-- ==== Sys2Proof/Word.lean ====
section
/-! DEFINITION. The word types of the codec: what the spec treats as bits is a bit vector of the width it gives, what it
treats as an integer is an integer (`spec/10_state.md`). -/

namespace Sys2Proof

/-- The command word, `CMD[15:0]` (R61). -/
abbrev CommandWord := BitVec 16

/-- An integer of a register or port of `OPW` bits, two's complement (R15, R19, R20). `OPW` is configuration (R6, D3), so
the range is not in the type: `Config.port` and the invariant keep it. -/
abbrev Operand := Int

/-- A binary64 value as its 64 bits (R19, R20, D14). -/
abbrev Double := BitVec 64

/-- A character code, one cell of `ARM` (R40). -/
abbrev Char8 := BitVec 8

/-- A bit sequence, index 0 first on the wire and most significant in every field (R7, R41). -/
abbrev Bits := List Bool

end Sys2Proof
end

