-- ==== Sys2Proof/Machine/Operands.lean ====
section
/-! DEFINITION. The integer notation of R7 and R8: fields as bit sequences and back, ranges, sign extension (R41, R65, R97). -/

namespace Sys2Proof.Machine

/-- `be_uint(seq)`: the unsigned integer whose most significant bit is `seq[0]` (R8, R41). -/
def beUint : Bits → Nat
  | [] => 0
  | b :: bs => b.toNat * 2 ^ bs.length + beUint bs

/-- `be_bits(u, w)`: the `w`-bit sequence with `seq[k] = u[w-1-k]` (R8, R41). -/
def beBits (u : Nat) : Nat → Bits
  | 0 => []
  | w + 1 => u.testBit w :: beBits u w

/-- `sext_w(u)`: `u` if `u < 2^(w-1)`, else `u - 2^w` (R7, R94). -/
def sext (w u : Nat) : Int := if u < 2 ^ (w - 1) then (u : Int) else (u : Int) - 2 ^ w

/-- `tc_w(v) = v mod 2^w`: the two's-complement pattern (R7, R114). -/
def tc (w : Nat) (v : Int) : Nat := (v % 2 ^ w).toNat

/-- An unsigned field of `w` bits holds `v`: `0 <= v < 2^w` (R112, R227). -/
def fitsUnsigned (v : Int) (w : Nat) : Bool := decide (0 ≤ v ∧ v < 2 ^ w)

/-- A two's-complement field of `w` bits holds `v`: `-2^(w-1) <= v < 2^(w-1)` (R114, R227). -/
def fitsSigned (v : Int) (w : Nat) : Bool := decide (-(2 ^ (w - 1)) ≤ v ∧ v < 2 ^ (w - 1))

/-- The pattern an unsigned append writes: `be_bits(v, w)` (R112). -/
def unsignedBits (v : Int) (w : Nat) : Bits := beBits v.toNat w

/-- The pattern a signed append writes: `be_bits(tc_w(v), w)` (R114). -/
def signedBits (v : Int) (w : Nat) : Bits := beBits (tc w v) w

/-- The identifier a failure carries: `id mod 64` (R158, R202, D17). -/
def idMod64 (id : Int) : BitVec 6 := BitVec.ofInt 6 id

/-- `v` names a row of `LAYOUT_ROM`: `0 <= v <= 63` (R158). -/
def isIdentifier (v : Int) : Bool := decide (0 ≤ v ∧ v ≤ 63)

end Sys2Proof.Machine
end

