-- ==== Sys2Proof/Machine/Double64.lean ====
section
/-! DEFINITION. The binary64 arithmetic of the position unit in integer arithmetic: the default `FDIV64` (R136, D14), and the
raw value whose degrees a number can be (R135, D15). -/

namespace Sys2Proof.Machine

/-- `DEG_DIV`: raw units per degree (R130). -/
abbrev degDiv : Nat := 600000

/-- `floor(log2(n / d))` for `n, d > 0`, as an integer. -/
def quotientExponent (n d : Nat) : Int :=
  let e : Int := (Nat.log2 n : Int) - (Nat.log2 d : Int)
  if n * 2 ^ (-e).toNat < d * 2 ^ e.toNat then e - 1 else e

/-- The nearest integer to `n / d`, ties to even. -/
def divNearestEven (n d : Nat) : Nat :=
  let q := n / d
  let r := n % d
  if d < 2 * r || (2 * r = d && q % 2 = 1) then q + 1 else q

/-- The magnitude of `n / d` in binary64, sign bit zero, round to nearest, ties to even; for `0 < n, d < 2^53`, where the
quotient is a normal number. With `e` the exponent, `n / d * 2^(52-e)` is rounded to the 53-bit significand; a carry out
of it goes into the exponent. -/
def quotientBits (n d : Nat) : Nat :=
  let e := quotientExponent n d
  let m := divNearestEven (n * 2 ^ (52 - e).toNat) (d * 2 ^ (e - 52).toNat)
  (e + 1023).toNat * 2 ^ 52 + (m - 2 ^ 52)

/-- `FDIV64(r, d)`: the integer `r` divided by `d` in binary64, round to nearest, ties to even; `+0.0` for `r = 0` (R136,
D14). -/
def fdiv64 (r : Int) (d : Nat) : Double :=
  if r = 0 then 0
  else BitVec.ofNat 64 ((if r < 0 then 2 ^ 63 else 0) + quotientBits r.natAbs d)

/-- The biased exponent of a binary64 value. -/
def Double.expField (x : Double) : Nat := (x.extractLsb' 52 11).toNat

/-- The fraction field of a binary64 value. -/
def Double.fracField (x : Double) : Nat := (x.extractLsb' 0 52).toNat

/-- Neither an infinity nor a NaN. -/
def Double.isFinite (x : Double) : Bool := decide (Double.expField x ≠ 2047)

/-- Degrees a raw value can have: a finite number, and not -0.0, so that different words are different degrees (R98, R136). -/
def Double.isDegrees (x : Double) : Bool := Double.isFinite x && decide (x ≠ 0x8000000000000000)

/-- A finite binary64 value has magnitude `significand * 2^(scale - 1074)`. -/
def Double.significand (x : Double) : Nat :=
  if Double.expField x = 0 then Double.fracField x else 2 ^ 52 + Double.fracField x

/-- The power of two that goes with `significand`. -/
def Double.scale (x : Double) : Nat := Double.expField x - 1

/-- The integer nearest to `x * 600000` for a finite `x`, ties away from zero: the only raw value whose degrees `x` can
be. -/
def nearestRaw (x : Double) : Int :=
  let m : Nat := (2 * Double.significand x * degDiv * 2 ^ Double.scale x + 2 ^ 1074) / 2 ^ 1075
  if x.msb then -(m : Int) else (m : Int)

end Sys2Proof.Machine
end

