-- ==== Sys2Proof/Syntax.lean ====
section
/-! DEFINITION. The 24 commands (R62), one constructor per row of `spec/opcode_table.json`, and the layout rows of
`LAYOUT_ROM` (R70). -/

namespace Sys2Proof

/-- The commands of R62. The width of the four CW commands is the 6-bit field `CMD[5:0]` as it stands (R63); which
widths are legal depends on `W_MAX` and is `Instr.wf`. All other operands are in the state (R61). -/
inductive Instr where
  /-- Bind a bit sequence and create the cursor (R91). -/
  | rbind
  /-- Extract an unsigned field (R92). -/
  | extu (w : BitVec 6)
  /-- Extract a two's-complement field (R94). -/
  | exts (w : BitVec 6)
  /-- Create an empty writer (R111). -/
  | wnew
  /-- Append an unsigned field (R112). -/
  | appu (w : BitVec 6)
  /-- Append a two's-complement field (R114). -/
  | apps (w : BitVec 6)
  /-- Pad, armor, finalize (R115). -/
  | fin
  /-- Decode a position from the cursor (R131). -/
  | posdec
  /-- Append a position to the writer (R132). -/
  | posenc
  /-- Is the position available (R133). -/
  | posavl
  /-- Construct a position from raw integers (R134). -/
  | possetr
  /-- Construct a position from degrees (R135). -/
  | possetd
  /-- Derived degrees (R136). -/
  | posdeg
  /-- Decode the header at the cursor (R156). -/
  | hdrdec
  /-- Append the header to the writer (R157). -/
  | hdrenc
  /-- Decode the type-specific fields selected by `FR[0]` (R158). -/
  | taildec
  /-- Append the type-specific fields selected by `FR[0]` (R159). -/
  | tailenc
  /-- Speed valid (R175). -/
  | sogv
  /-- Course valid (R176). -/
  | cogv
  /-- Heading valid (R177). -/
  | hdgv
  /-- Position valid (R178). -/
  | posv
  /-- Utc-second status (R179). -/
  | utcst
  /-- Decode one whole message (R203). -/
  | decode
  /-- Encode one whole message (R205). -/
  | encode
  deriving DecidableEq, Repr

/-- A tail entry of a layout row (R70). -/
inductive Entry where
  /-- `U(dest, w)`: an unsigned field of `w` bits held in `FR[dest]`. -/
  | u (dest : Nat) (w : Nat)
  /-- `S(dest, w)`: a two's-complement field of `w` bits held in `FR[dest]`. -/
  | s (dest : Nat) (w : Nat)
  /-- `POS`: longitude and latitude, 28 then 27 bits, signed, held in `POS_LON`, `POS_LAT`. -/
  | pos
  deriving DecidableEq, Repr

/-- One row of `LAYOUT_ROM` (R70): present or not, the fixed declared payload length with the header, the tail entries. -/
structure Row where
  present : Bool
  explen : Nat
  entries : List Entry
  deriving DecidableEq, Repr

end Sys2Proof
end

