-- ==== Sys2Proof/Config.lean ====
section
/-! DEFINITION. What an implementation fixes, the configuration record of R6, and the free values the spec leaves open:
constants with no body, of which nothing can be proved but what holds of every value. The defaults of R6 are
`Machine.defaultConfig`; which records are configurations of this hardware is `Config.wf`. -/

namespace Sys2Proof

/-- The implementation parameters of R6. It is configuration and not state (R10, R23): nothing the codec or its host does
writes it. `DEG2RAW_LON` and `DEG2RAW_LAT` are the open functions below (log 7); `BUS_MAP` is out of scope. -/
structure Config where
  /-- `W_MAX`, the largest legal field width (D2). -/
  wMax : Nat
  /-- `OPW`, the width of the integer operand and result ports, two's complement (D3). -/
  opw : Nat
  /-- `RBUF_BITS`, the capacity of the reader bit memory (D4). -/
  rbufBits : Nat
  /-- `WBUF_BITS`, the capacity of the writer bit memory (D4). Layout rows are checked against it (R73 b). An append past
  it has no defined result in the spec, and the model takes the buffer as unbounded there, one of the two options of R45.
  DESIGN CHOICE, unsafe: log 6. -/
  wbufBits : Nat
  /-- `ARM_CHARS`, the capacity of the armored text memory (D4). -/
  armChars : Nat
  /-- `NFR`, the number of field registers (R15, D12). -/
  nfr : Nat
  /-- `N_INST`, the number of instances (R26, D23). -/
  nInst : Nat
  /-- `ARMOR`, the six-bit alphabet, index 0 first (R118, D25). -/
  armor : List Char8
  /-- The rows of `LAYOUT_ROM` the configuration supplies beside row 18, by identifier (R74, R152). The ROM itself is
  `Config.row`. -/
  rows : List (Nat × Row)
  /-- `FDIV64`, as the raw values whose quotient by 600000 is not the default's, and their quotients (R136, D14). The
  function itself is `Config.degrees`. -/
  fdivTable : List (Int × Double)
  deriving DecidableEq, Repr

namespace Config

/-! ## Free values (log 2, 3, 4, 7)

The first argument of those of registers and cells is the number of the draw: reset and every failed DECODE take a
new one (R13, R25, R203). A port or register takes the low `OPW` bits of a free integer. -/

/-- The field register of that index that holds no value (R13). -/
opaque freeFr : Nat → Nat → Operand
/-- `POS_LON` holding no value. -/
opaque freeLon : Nat → BitVec 28
/-- `POS_LAT` holding no value. -/
opaque freeLat : Nat → BitVec 27
/-- `OPA` before the host has written it. -/
opaque freeOpa : Nat → Operand
/-- `OPB` before the host has written it. -/
opaque freeOpb : Nat → Operand
/-- `DEGA` before the host has written it. -/
opaque freeDega : Nat → Double
/-- `DEGB` before the host has written it. -/
opaque freeDegb : Nat → Double
/-- `RES` before a command has written it. -/
opaque freeRes : Nat → Operand
/-- `DEGLON` before POSDEG has written it. -/
opaque freeDeglon : Nat → Double
/-- `DEGLAT` before POSDEG has written it. -/
opaque freeDeglat : Nat → Double
/-- The bit a command reads from the `RBUF` cell of that index when the host never loaded it (R13, R91). -/
opaque unloadedRbufBit : Nat → Nat → Bool
/-- The bit a command reads from the `WBUF` cell of that index when nothing was appended there (R13). -/
opaque unwrittenWbufBit : Nat → Nat → Bool
/-- `DEG2RAW_LON` where property P-DEG does not fix its value, non-finite operands included (R135, D15, U5, U12). -/
opaque deg2rawLonOpen : Double → Int
/-- `DEG2RAW_LAT` where property P-DEG does not fix its value, non-finite operands included (R135, D15, U5, U12). -/
opaque deg2rawLatOpen : Double → Int

end Config

end Sys2Proof
end

