-- ==== Sys2Proof/WellFormed.lean ====
section
/-! DEFINITION. Which commands, which layout rows and which armor tables are well formed (R63, R73, R118). -/

namespace Sys2Proof

/-- A legal width: `1 <= w <= W_MAX` (R63, D2, D31). -/
def legalWidth (c : Config) (w : BitVec 6) : Bool := decide (1 ≤ w.toNat ∧ w.toNat ≤ c.wMax)

/-- A command whose word is legal: the width of a CW command is in `1 .. W_MAX` (R63, R64). -/
def Instr.wf (c : Config) : Instr → Bool
  | .extu w => legalWidth c w
  | .exts w => legalWidth c w
  | .appu w => legalWidth c w
  | .apps w => legalWidth c w
  | .rbind => true
  | .wnew => true
  | .fin => true
  | .posdec => true
  | .posenc => true
  | .posavl => true
  | .possetr => true
  | .possetd => true
  | .posdeg => true
  | .hdrdec => true
  | .hdrenc => true
  | .taildec => true
  | .tailenc => true
  | .sogv => true
  | .cogv => true
  | .hdgv => true
  | .posv => true
  | .utcst => true
  | .decode => true
  | .encode => true

/-- The number of payload bits of an entry, `POS` counting 55 (R73, R151). -/
def Entry.width : Entry → Nat
  | .u _ w => w
  | .s _ w => w
  | .pos => 55

/-- `tailbits`: the sum of the entry widths (R73 a, R151). -/
def tailbits (es : List Entry) : Nat := (es.map Entry.width).sum

/-- The field register an entry is held in, if it is not the position (R70). -/
def Entry.dest? : Entry → Option Nat
  | .u d _ => some d
  | .s d _ => some d
  | .pos => none

/-- The width of a `U` or `S` entry is in `1 .. W_MAX` (R73 d). -/
def Entry.wf (c : Config) : Entry → Bool
  | .u _ w => decide (1 ≤ w ∧ w ≤ c.wMax)
  | .s _ w => decide (1 ≤ w ∧ w ≤ c.wMax)
  | .pos => true

/-- The entries of a row meet R73 (c), (d) and (e): registers that exist, no header register and no register twice, legal
widths, at most one position. -/
def entriesWf (c : Config) (es : List Entry) : Bool :=
  es.all (Entry.wf c)
    && (es.filterMap Entry.dest?).all (fun d => decide (3 ≤ d ∧ d < c.nfr))
    && decide (es.filterMap Entry.dest?).Nodup
    && decide (es.count Entry.pos ≤ 1)

/-- R73: a row with `present = 1` is a row of this hardware. R73 gives no limit on the number of entries, which R262 takes
to be at most 63 and the optional form of R71 cannot exceed: a row with more, which needs an `NFR` of 66 or more, is accepted and
walked. DESIGN CHOICE, safe: log 21. -/
def Row.wf (c : Config) (r : Row) : Bool :=
  !r.present ||
    (decide (r.explen = 38 + tailbits r.entries)
      && decide (r.explen ≤ c.rbufBits)
      && decide (r.explen ≤ c.wbufBits)
      && entriesWf c r.entries)

/-- What R118 lets a model rely on whatever `ARMOR` is: 64 entries, injective, printable ASCII. -/
def armorWf (t : List Char8) : Bool :=
  decide (t.length = 64) && decide t.Nodup && t.all (fun a => decide (32 ≤ a.toNat ∧ a.toNat ≤ 126))

end Sys2Proof
end

