-- ==== Sys2Proof/Machine/Rom.lean ====
section
/-! DEFINITION. The two ROMs of a configuration: the armor alphabet (R118) and the layout rows (R70, R72, R74, R152), with
their defaults. -/

namespace Sys2Proof

namespace Machine

/-- The default `ARMOR`, the table of R118: `g + 48` up to 39, `g + 56` above, which the spec takes from general knowledge
(D25, G1). PRESUMED, unsafe: log 8. -/
def armorTable : List Char8 := (List.range 64).map fun g => BitVec.ofNat 8 (if g ≤ 39 then g + 48 else g + 56)

/-- Row 18, the type-18 layout: 17 entries, 168 bits with the header (R72, R17). -/
def row18 : Row where
  present := true
  explen := 168
  entries :=
    [.u 3 8, .u 4 10, .u 5 1, .pos, .u 6 12, .u 7 9, .u 8 6, .u 9 2, .u 10 1, .u 11 1, .u 12 1, .u 13 1, .u 14 1,
     .u 15 1, .u 16 1, .u 17 1, .u 18 19]

/-- An absent row: `present = 0` (R70, R74). -/
def absentRow : Row where
  present := false
  explen := 0
  entries := []

end Machine

/-- `ARMOR[g]` (R118). The table has 64 entries (`armorWf`), so the code 0 stands for no group. -/
def Config.armorChar (c : Config) (g : Nat) : Char8 := c.armor.getD g 0

/-- `LAYOUT_ROM[id]`: row 18 is the source's, identifiers outside 1 to 27 have no row, and every other identifier has the row
the configuration supplies, or none (R74, R152). -/
def Config.row (c : Config) (id : Nat) : Row :=
  if id = 18 then Machine.row18
  else if 1 ≤ id ∧ id ≤ 27 then (c.rows.lookup id).getD Machine.absentRow
  else Machine.absentRow

/-- R73, R152: a `LAYOUT_ROM` of this hardware: rows are supplied only for 1 to 17 and 19 to 27, and every row, row 18
included, meets R73. -/
def Config.romWf (c : Config) : Bool :=
  c.rows.all (fun e => decide (1 ≤ e.1 ∧ e.1 ≤ 27 ∧ e.1 ≠ 18)) && (List.range 64).all (fun id => (c.row id).wf c)

/-- `id` selects a row: it is in 0 to 63 and its row is present (R158, R202). -/
def Config.selects (c : Config) (id : Int) : Bool := Machine.isIdentifier id && (c.row id.toNat).present

end Sys2Proof
end

