-- ==== Sys2Proof/Machine/Configuration.lean ====
section
/-! DEFINITION. The configuration of R6 at work: the functions its tables stand for, which records are configurations of this
hardware (R73, R118, R152), and the default configuration. -/

namespace Sys2Proof

/-- What a port or register of `OPW` bits holds when it is given the integer `v`: the two's-complement value of the low
`OPW` bits of `v`, which is `v` itself in the operand range (R15, R19). DESIGN CHOICE, unsafe for a `v` outside that range:
log 20. -/
def Config.port (c : Config) (v : Int) : Operand := v.bmod (2 ^ c.opw)

/-- `FR[0 .. NFR-1]` holding no value, draw `n` (R13, R15; log 2, 4). -/
def Config.freeRegisters (c : Config) (n : Nat) : List Operand :=
  (List.range c.nfr).map fun i => c.port (Config.freeFr n i)

/-- `FDIV64(r, 600000)`: the quotient the configuration supplies for `r`, else the default's (R136, D14). -/
def Config.degrees (c : Config) (r : Int) : Double := (c.fdivTable.lookup r).getD (Machine.fdiv64 r Machine.degDiv)

/-- The only raw value whose degrees `x` can be. -/
def Config.rawOf (c : Config) (x : Double) : Int :=
  match c.fdivTable.find? (fun e => decide (e.2 = x)) with
  | some e => e.1
  | none => Machine.nearestRaw x

/-- `r` is in the range of a `w`-bit position register and `x` is its degrees. -/
def Config.isDegreesOf (c : Config) (x : Double) (r : Int) (w : Nat) : Bool :=
  Machine.fitsSigned r w && decide (c.degrees r = x)

/-- `DEG2RAW_LON`: the raw value property P-DEG asks for where `x` is the degrees of one; elsewhere, non-finite values
included, the spec gives no value and it is free (R135, D15, U5, U12). DESIGN CHOICE, safe: log 7. -/
def Config.deg2rawLon (c : Config) (x : Double) : Int :=
  if c.isDegreesOf x (c.rawOf x) 28 then c.rawOf x else Config.deg2rawLonOpen x

/-- `DEG2RAW_LAT`, as `DEG2RAW_LON` for the 27-bit register (R135, D15). DESIGN CHOICE, safe: log 7. -/
def Config.deg2rawLat (c : Config) (x : Double) : Int :=
  if c.isDegreesOf x (c.rawOf x) 27 then c.rawOf x else Config.deg2rawLatOpen x

/-- The corner cases of `FDIV64` hold: `r = 0` gives `+0.0`, and the sentinels give exactly 181.0 and 91.0 (R136). -/
def Config.fdivCorners (c : Config) : Bool :=
  decide (c.degrees 0 = 0 ∧ c.degrees 108600000 = 0x4066A00000000000 ∧ c.degrees 54600000 = 0x4056C00000000000)

/-- The quotients a configuration supplies: one for each raw value of the longitude's range it names; each a finite number
(R98); the corner cases of R136; and no two raw values of that range with one quotient, without which no `DEG2RAW_LON` has
property P-DEG (R135, R136). A supplied quotient may be the default's of a raw value only if the table names that raw value
too. R6 and D14 do not say which functions `FDIV64` may be, and nothing else is asked. DESIGN CHOICE, safe: log 20. -/
def Config.fdivWf (c : Config) : Bool :=
  c.fdivCorners && decide (c.fdivTable.map Prod.fst).Nodup && decide (c.fdivTable.map Prod.snd).Nodup
    && c.fdivTable.all (fun e => Machine.fitsSigned e.1 28 && Machine.Double.isDegrees e.2
      && (!Machine.fitsSigned (Machine.nearestRaw e.2) 28
        || decide (Machine.nearestRaw e.2 ∈ c.fdivTable.map Prod.fst)
        || decide (Machine.fdiv64 (Machine.nearestRaw e.2) Machine.degDiv ≠ e.2)))

/-- The sizes of a configuration agree with one another: a width field of 6 bits and the header's 30-bit field (R61, R155),
results that fit the ports (R97, D3), a text memory for a full writer (D4), at least one instance (R26). DEDUCED, safe:
log 19. -/
def Config.sizesWf (c : Config) : Bool :=
  decide (30 ≤ c.wMax ∧ c.wMax ≤ 63 ∧ c.wMax + 1 ≤ c.opw ∧ c.wbufBits ≤ 6 * c.armChars ∧ 1 ≤ c.nInst)

/-- A configuration of this hardware: what a model checks when it is given one (R73, R118, R152, U10). -/
def Config.wf (c : Config) : Bool := c.sizesWf && armorWf c.armor && c.romWf && c.fdivWf

namespace Machine

/-- The default configuration of R6 (DESIGN CHOICE among configurations, the spec's own default: log 8, 9, 19). -/
def defaultConfig : Config where
  wMax := 32
  opw := 33
  rbufBits := 1024
  wbufBits := 1024
  armChars := 171
  nfr := 32
  nInst := 1
  armor := armorTable
  rows := []
  fdivTable := []

end Machine

end Sys2Proof
end

