-- ==== Sys2Proof/Decode.lean ====
section
/-! DEFINITION. The command word: decoder, total on every 16-bit word and rejecting by name, and encoder (R61 to R64). -/

namespace Sys2Proof

/-- Why a word is illegal (R64). -/
inductive IllegalWord where
  /-- `op` is not one of the 24 of R62. -/
  | unassignedOp
  /-- Format CW with `z != 0`. -/
  | nonzeroZ
  /-- Format CW with `w` outside `1 .. W_MAX`. -/
  | widthOutOfRange
  /-- Format C0 with `z8 != 0`. -/
  | nonzeroZ8
  deriving DecidableEq, Repr

/-- `CMD[15:8]`, the operation code (R61). -/
def opField (c : CommandWord) : BitVec 8 := c.extractLsb' 8 8

/-- `CMD[7:6]`, zero in format CW (R61). -/
def zField (c : CommandWord) : BitVec 2 := c.extractLsb' 6 2

/-- `CMD[5:0]`, the width of format CW (R61, R63). -/
def wField (c : CommandWord) : BitVec 6 := c.extractLsb' 0 6

/-- `CMD[7:0]`, zero in format C0 (R61). -/
def z8Field (c : CommandWord) : BitVec 8 := c.extractLsb' 0 8

/-- Format CW: `z` zero and a width that is legal for the configured `W_MAX`, else the word is illegal (R61, R63, R64). -/
def decodeCW (cfg : Config) (c : CommandWord) (f : BitVec 6 → Instr) : Except IllegalWord Instr :=
  if zField c ≠ 0 then .error .nonzeroZ
  else if legalWidth cfg (wField c) then .ok (f (wField c))
  else .error .widthOutOfRange

/-- Format C0: `z8` zero, else the word is illegal (R61, R64). -/
def decodeC0 (c : CommandWord) (i : Instr) : Except IllegalWord Instr :=
  if z8Field c ≠ 0 then .error .nonzeroZ8 else .ok i

/-- The command of a word, or why the word is illegal (R62, R64). -/
def decode (cfg : Config) (c : CommandWord) : Except IllegalWord Instr :=
  match (opField c).toNat with
  | 0x01 => decodeC0 c .rbind
  | 0x02 => decodeCW cfg c .extu
  | 0x03 => decodeCW cfg c .exts
  | 0x10 => decodeC0 c .wnew
  | 0x11 => decodeCW cfg c .appu
  | 0x12 => decodeCW cfg c .apps
  | 0x13 => decodeC0 c .fin
  | 0x20 => decodeC0 c .posdec
  | 0x21 => decodeC0 c .posenc
  | 0x22 => decodeC0 c .posavl
  | 0x23 => decodeC0 c .possetr
  | 0x24 => decodeC0 c .possetd
  | 0x25 => decodeC0 c .posdeg
  | 0x30 => decodeC0 c .hdrdec
  | 0x31 => decodeC0 c .hdrenc
  | 0x32 => decodeC0 c .taildec
  | 0x33 => decodeC0 c .tailenc
  | 0x38 => decodeC0 c .sogv
  | 0x39 => decodeC0 c .cogv
  | 0x3A => decodeC0 c .hdgv
  | 0x3B => decodeC0 c .posv
  | 0x3C => decodeC0 c .utcst
  | 0x40 => decodeC0 c .decode
  | 0x41 => decodeC0 c .encode
  | _ => .error .unassignedOp

/-- The operation code of a command (R62). -/
def Instr.op : Instr → BitVec 8
  | .rbind => 0x01
  | .extu _ => 0x02
  | .exts _ => 0x03
  | .wnew => 0x10
  | .appu _ => 0x11
  | .apps _ => 0x12
  | .fin => 0x13
  | .posdec => 0x20
  | .posenc => 0x21
  | .posavl => 0x22
  | .possetr => 0x23
  | .possetd => 0x24
  | .posdeg => 0x25
  | .hdrdec => 0x30
  | .hdrenc => 0x31
  | .taildec => 0x32
  | .tailenc => 0x33
  | .sogv => 0x38
  | .cogv => 0x39
  | .hdgv => 0x3A
  | .posv => 0x3B
  | .utcst => 0x3C
  | .decode => 0x40
  | .encode => 0x41

/-- The low byte of a command's word: the width of a CW command, else zero (R61). -/
def Instr.lowByte : Instr → BitVec 8
  | .extu w => (0 : BitVec 2) ++ w
  | .exts w => (0 : BitVec 2) ++ w
  | .appu w => (0 : BitVec 2) ++ w
  | .apps w => (0 : BitVec 2) ++ w
  | .rbind => 0
  | .wnew => 0
  | .fin => 0
  | .posdec => 0
  | .posenc => 0
  | .posavl => 0
  | .possetr => 0
  | .possetd => 0
  | .posdeg => 0
  | .hdrdec => 0
  | .hdrenc => 0
  | .taildec => 0
  | .tailenc => 0
  | .sogv => 0
  | .cogv => 0
  | .hdgv => 0
  | .posv => 0
  | .utcst => 0
  | .decode => 0
  | .encode => 0

/-- The word of a command (R61, R62). -/
def encode (i : Instr) : CommandWord := i.op ++ i.lowByte

/-- What the decoder reads from a word whose low `nbits` bits are given, every higher bit zero, with the
default `W_MAX`. The command word is one 16-bit word of a port, so there is no byte order (R61). -/
def decodeTableWord (nbits w : Nat) : Option Instr :=
  match decode Machine.defaultConfig (BitVec.ofNat 16 (w % 2 ^ nbits)) with
  | .ok i => some i
  | .error _ => none

end Sys2Proof
end

