-- ==== Sys2Proof/Machine/State.lean ====
section
/-! DEFINITION. The state of one codec instance (R10 to R22), the things the host does between commands (R271), the
failures a command reports (R221), the reasons a step can stop, and the state after reset (R25, R250). -/

namespace Sys2Proof.Machine

/-- A memory of cells of type `α`: (index, value) pairs, indexes strictly rising. An index that is not listed holds no
value (R13), so no listed entry equals what an unlisted index holds. -/
abbrev Mem (α : Type) := List (Nat × α)

/-- The canonical form: indexes strictly rising. -/
abbrev Mem.wf {α : Type} (m : Mem α) : Prop := (m.map Prod.fst).Pairwise (· < ·)

/-- One thing the host does to the instance between commands (R263, R271). -/
inductive HostAction where
  /-- Issue a command word (R61). -/
  | command (w : CommandWord)
  /-- Write one bit of `RBUF` through the load port (R46). -/
  | load (i : Nat) (b : Bool)
  /-- Write field register `i` (R15, R21). -/
  | writeFr (i : Nat) (v : Operand)
  /-- Write `OPA` (R19). -/
  | writeOpa (v : Operand)
  /-- Write `OPB` (R19). -/
  | writeOpb (v : Operand)
  /-- Write `DEGA` (R19). -/
  | writeDega (v : Double)
  /-- Write `DEGB` (R19). -/
  | writeDegb (v : Double)
  /-- Assert the reset input (R250). -/
  | reset
  deriving DecidableEq, Repr

/-- The failures a command reports in `STATUS` and `INFO` (R221). Each is a next state, not a stop. -/
inductive Failure where
  /-- Fewer bits remain than the command needs (R222). -/
  | truncatedPayload
  /-- `RLEN` differs from the selected row's `explen` (R223). -/
  | wrongPayloadLength
  /-- The selected row is absent; carries the identifier (R225). -/
  | unsupportedMessageType (id : BitVec 6)
  /-- A value does not fit its field (R227). -/
  | fieldOverflow
  /-- Append while `WFIN = 1` (R228). -/
  | writerFinalized
  /-- Malformed command word, or RBIND length out of range (R229). -/
  | illegalCommand
  deriving DecidableEq, Repr

/-- Why the machine stops with a fault. No command does: these are host accesses outside the address spaces. -/
inductive Fault where
  /-- Raised by `step` on a load-port write to an index `>= RBUF_BITS`, which the spec does not have (R40, R46). Safe. -/
  | loadPortIndex (i : Nat)
  /-- Raised by `step` on a host write to a field register `>= NFR`, which the spec does not have (R15). Safe. -/
  | fieldRegisterIndex (i : Nat)
  deriving DecidableEq, Repr

/-- Why a step has no meaning. -/
inductive Refusal where
  /-- Raised by an arm of `exec` whose command has no meaning yet; safe. No arm raises it. -/
  | notModelled (mnemonic : String)
  deriving DecidableEq, Repr

/-- One codec instance: everything R10 to R22 list, and four fields of the model's own. -/
structure State where
  /-- The model's own: the configuration the instance is built with, carried here so that one `exec` and one `step` serve
  every configuration. It is not state of the codec and nothing writes it (R6, R10, R23; log 20). -/
  cfg : Config
  /-- `RBUF`, the reader bit memory (R11). -/
  rbuf : Mem Bool
  /-- `RLEN`, the declared bit length; 0 when no sequence is bound (R11, R25). -/
  rlen : Nat
  /-- `RPOS`, the read position (R11, R14). -/
  rpos : Nat
  /-- `WBUF`, the writer bit memory (R12). -/
  wbuf : Mem Bool
  /-- `WLEN`, the number of bits appended (R12, R14). -/
  wlen : Nat
  /-- `WFIN`, finalized (R12, R21). -/
  wfin : Bool
  /-- `ARM`, the armored text (R12). -/
  arm : List Host.Cell
  /-- `ARMLEN`, the number of characters of armored text (R12). -/
  armlen : Nat
  /-- `FILL`, the fill-bit count (R12). -/
  fill : Nat
  /-- `POS_LON` (R18). -/
  posLon : BitVec 28
  /-- `POS_LAT` (R18). -/
  posLat : BitVec 27
  /-- `FR[0 .. NFR-1]` (R15). -/
  fr : List Operand
  /-- `MSG_OK` (R21). -/
  msgOk : Bool
  /-- `OPA` (R19). -/
  opa : Operand
  /-- `OPB` (R19). -/
  opb : Operand
  /-- `DEGA` (R19). -/
  dega : Double
  /-- `DEGB` (R19). -/
  degb : Double
  /-- `STATUS` (R22). -/
  status : BitVec 4
  /-- `INFO` (R22). -/
  info : BitVec 6
  /-- `RES` (R20). -/
  res : Operand
  /-- `DEGLON` (R20). -/
  deglon : Double
  /-- `DEGLAT` (R20). -/
  deglat : Double
  /-- The model's own: what the host does next, in order (log 1). -/
  pending : List HostAction
  /-- The model's own: the number of the next draw of free values (log 4). -/
  draws : Nat
  /-- The model's own: the draw the cells that hold no value belong to (log 3). -/
  epoch : Nat
  deriving DecidableEq, Repr

/-- The state a reset leaves in an instance of configuration `c`, the registers that hold no value taking draw `n` of the
free values (R25, R250; DESIGN CHOICE, log 2, 3, 4). The next draw is `N_INST` on, so that no two instances take the same
(log 11). -/
def State.resetAt (c : Config) (n : Nat) : State where
  cfg := c
  rbuf := []
  rlen := 0
  rpos := 0
  wbuf := []
  wlen := 0
  wfin := false
  arm := []
  armlen := 0
  fill := 0
  posLon := Config.freeLon n
  posLat := Config.freeLat n
  fr := c.freeRegisters n
  msgOk := false
  opa := c.port (Config.freeOpa n)
  opb := c.port (Config.freeOpb n)
  dega := Config.freeDega n
  degb := Config.freeDegb n
  status := 0
  info := 0
  res := c.port (Config.freeRes n)
  deglon := Config.freeDeglon n
  deglat := Config.freeDeglat n
  pending := []
  draws := n + c.nInst
  epoch := n

/-- An instance of the default configuration right after reset (R6, R25, R250), the host having nothing to do. -/
def State.reset : State := State.resetAt defaultConfig 0

/-- What a step or a meaning answers. -/
abbrev Result := Host.Outcome State Fault Refusal

end Sys2Proof.Machine
end

