-- ==== Sys2Proof/Machine/Flags.lean ====
section
/-! DEFINITION. The response codes (R22, R221) and the two stored flags, `WFIN` and `MSG_OK` (R21). -/

namespace Sys2Proof.Machine

/-- The `STATUS` code of a failure (R22, R221). -/
def Failure.code : Failure → BitVec 4
  | .truncatedPayload => 1
  | .wrongPayloadLength => 2
  | .unsupportedMessageType _ => 3
  | .fieldOverflow => 4
  | .writerFinalized => 5
  | .illegalCommand => 6

/-- What a failure records in `INFO`: the identifier for UnsupportedMessageType, else 0 (R22, R221). -/
def Failure.info : Failure → BitVec 6
  | .unsupportedMessageType id => id
  | .truncatedPayload => 0
  | .wrongPayloadLength => 0
  | .fieldOverflow => 0
  | .writerFinalized => 0
  | .illegalCommand => 0

/-- `MSG_OK <- 0`: the registers no longer hold exactly a decoded message (R21). -/
def State.clearMsgOk (s : State) : State := { s with msgOk := false }

/-- `MSG_OK <- 1`: a DECODE succeeded (R21, R203). -/
def State.setMsgOk (s : State) : State := { s with msgOk := true }

/-- `WFIN <- 1`: the writer is finalized (R21, R115). -/
def State.setWfin (s : State) : State := { s with wfin := true }

end Sys2Proof.Machine
end

