-- ==== Sys2Proof/Machine/Ops.lean ====
section
/-! DEFINITION. The named operations over the state: memory cells, registers, the cursor, the writer, and how a command
completes or fails (R8, R93, R224). -/

namespace Sys2Proof.Machine

/-! ## Memories (R8, R40) -/

/-- The value a cell holds, if it holds one. -/
def Mem.get? {α : Type} : Mem α → Nat → Option α
  | [], _ => none
  | (b, x) :: m, a => if b = a then some x else Mem.get? m a

/-- Write one cell, keeping the canonical form. -/
def Mem.set {α : Type} : Mem α → Nat → α → Mem α
  | [], a, v => [(a, v)]
  | (b, x) :: m, a, v =>
    if a < b then (a, v) :: (b, x) :: m
    else if a = b then (a, v) :: m
    else (b, x) :: Mem.set m a v

/-- `MemWrite(space, addr, len, seq)` (R8). -/
def Mem.write {α : Type} (m : Mem α) (a : Nat) : List α → Mem α
  | [] => m
  | v :: vs => Mem.write (m.set a v) (a + 1) vs

/-- The bit a command reads from `RBUF[a]`: the cell's bit, a free bit where the cell holds no value (R13; log 3). -/
def State.rbufBit (s : State) (a : Nat) : Bool := (Mem.get? s.rbuf a).getD (Config.unloadedRbufBit s.epoch a)

/-- The bit a command reads from `WBUF[a]`: the cell's bit, a free bit where the cell holds no value (R13; log 3). -/
def State.wbufBit (s : State) (a : Nat) : Bool := (Mem.get? s.wbuf a).getD (Config.unwrittenWbufBit s.epoch a)

/-- `MemRead(RBUF, p, w)` (R8). -/
def State.readRbuf (s : State) (p : Nat) : Nat → Bits
  | 0 => []
  | w + 1 => s.rbufBit p :: State.readRbuf s (p + 1) w

/-- The unsigned field at position `p`: `be_uint(RBUF[p .. p+w-1])` (R41). -/
def State.fieldU (s : State) (p w : Nat) : Nat := beUint (s.readRbuf p w)

/-- The two's-complement field at position `p`: `sext_w(be_uint(RBUF[p .. p+w-1]))` (R94). -/
def State.fieldS (s : State) (p w : Nat) : Int := sext w (s.fieldU p w)

/-! ## Registers (R15, R18, R20) -/

/-- `FR[i]` (R8, R15). A configuration names no register past `NFR - 1` (R73), so the 0 there is no register's. -/
def State.readFr (s : State) (i : Nat) : Int := s.fr.getD i 0

/-- `FR[i] <- v` (R8, R15). -/
def State.writeFr (s : State) (i : Nat) (v : Int) : State := { s with fr := s.fr.set i v }

/-- `POS_LON <- lon; POS_LAT <- lat`, whole values only (R18). -/
def State.writePos (s : State) (lon lat : Int) : State :=
  { s with posLon := BitVec.ofInt 28 lon, posLat := BitVec.ofInt 27 lat }

/-! ## How a command ends (R8, R20, R22, R224) -/

/-- `raise E(info)`: no state changes but `STATUS` and `INFO` (R8, R224). This is all there is to taking an exception:
no vector, no saved register, no mode, and nothing to return from (R220, R226). -/
def State.raise (s : State) (e : Failure) : State := { s with status := e.code, info := e.info }

/-- `done()`: complete with `STATUS <- 0`, `INFO <- 0` (R8). -/
def State.done (s : State) : State := { s with status := 0, info := 0 }

/-- `RES <- v`, before `done()` (R8, R20). -/
def State.setRes (s : State) (v : Int) : State := { s with res := v }

/-- The end of a command that either completes or raises a failure with no other effect (R224 a, b). -/
def State.complete (s : State) : Except Failure State → State
  | .ok t => t.done
  | .error e => s.raise e

/-- A failing DECODE, its cursor already new: `MSG_OK <- 0`, and `FR`, `POS_LON`, `POS_LAT` hold no value, which here is
a new draw of free values (R203, R224 c; log 4). Draws are `N_INST` apart, so that no two instances take the same (log 11). -/
def State.failDecode (s : State) (e : Failure) : State :=
  { s.raise e with
    msgOk := false
    fr := s.cfg.freeRegisters s.draws
    posLon := Config.freeLon s.draws
    posLat := Config.freeLat s.draws
    draws := s.draws + s.cfg.nInst }

/-! ## The cursor (R93) -/

/-- `RLEN - RPOS < need`: too few bits remain (R93). -/
def State.truncated (s : State) (need : Nat) : Bool := decide (s.rlen < s.rpos + need)

/-- `RPOS <- RPOS + w` (R14, R92). -/
def State.advance (s : State) (w : Nat) : State := { s with rpos := s.rpos + w }

/-- The bound test of every extracting command, then its effect (R93). -/
def State.extracting (s : State) (need : Nat) (effect : State) : Except Failure State :=
  if s.truncated need then .error .truncatedPayload else .ok effect

/-! ## The writer (R112, R113) -/

/-- `MemWrite(WBUF, WLEN, w, seq); WLEN <- WLEN + w` (R112). The buffer is unbounded: log 6. -/
def State.append (s : State) (bs : Bits) : State :=
  { s with wbuf := Mem.write s.wbuf s.wlen bs, wlen := s.wlen + bs.length }

/-- The checks and the effect of every appending command: the lock first, then the range (R113, R230). -/
def State.appending (s : State) (fits : Bool) (bs : Bits) : Except Failure State :=
  if s.wfin then .error .writerFinalized
  else if fits then .ok (s.append bs)
  else .error .fieldOverflow

/-- An empty, unfinalized writer: `WLEN <- 0; WFIN <- 0; ARMLEN <- 0; FILL <- 0` (R111). -/
def State.newWriter (s : State) : State := { s with wlen := 0, wfin := false, armlen := 0, fill := 0 }

/-- The fill-bit count: `(6 - WLEN mod 6) mod 6` (R115). -/
def fillCount (n : Nat) : Nat := (6 - n % 6) % 6

/-- The 6-bit group `i` of the bits written so far, pad bits zero, first bit most significant (R42, R115). -/
def State.group (s : State) (i : Nat) : Nat :=
  beUint ((List.range 6).map fun k => if 6 * i + k < s.wlen then s.wbufBit (6 * i + k) else false)

/-- The armored text: one character for each 6-bit group (R78, R115). -/
def State.armorText (s : State) : List Char8 :=
  (List.range ((s.wlen + fillCount s.wlen) / 6)).map fun i => s.cfg.armorChar (s.group i)

/-- Pad, armor, finalize: the effect of FIN on a writer that is not finalized (R115). -/
def State.finalize (s : State) : State :=
  { s.setWfin with
    arm := Mem.write s.arm 0 s.armorText
    armlen := (s.wlen + fillCount s.wlen) / 6
    fill := fillCount s.wlen }

/-! ## The header and the walks of the layout sequencer (R151, R155) -/

/-- The three header fields at position `p` (R155, R156). -/
def State.readHeader (s : State) (p : Nat) : State :=
  ((s.writeFr 0 (s.fieldU p 6)).writeFr 1 (s.fieldU (p + 6) 2)).writeFr 2 (s.fieldU (p + 8) 30)

/-- The range checks of the header fields that are not the identifier (R157, R205). -/
def State.headerRestFits (s : State) : Bool := fitsUnsigned (s.readFr 1) 2 && fitsUnsigned (s.readFr 2) 30

/-- The range checks of the three header fields (R157). -/
def State.headerFits (s : State) : Bool := fitsUnsigned (s.readFr 0) 6 && s.headerRestFits

/-- The 38 header bits (R157). -/
def State.headerBits (s : State) : Bits :=
  unsignedBits (s.readFr 0) 6 ++ unsignedBits (s.readFr 1) 2 ++ unsignedBits (s.readFr 2) 30

/-- `POS_LON`, `POS_LAT` from the 55 bits at position `p`, longitude first (R131, R151). -/
def State.readPos (s : State) (p : Nat) : State := s.writePos (s.fieldS p 28) (s.fieldS (p + 28) 27)

/-- The 55 position bits, longitude first (R132, R151). -/
def State.posBits (s : State) : Bits := signedBits s.posLon.toInt 28 ++ signedBits s.posLat.toInt 27

/-- One entry of the decoding walk, at position `p` (R151). -/
def State.readEntry (s : State) (p : Nat) : Entry → State
  | .u d w => s.writeFr d (s.fieldU p w)
  | .s d w => s.writeFr d (s.fieldS p w)
  | .pos => s.readPos p

/-- `walk_dec(entries, p)`: the registers it writes; it ends at `p + tailbits(entries)` (R151). -/
def State.walkDec (s : State) (p : Nat) : List Entry → State
  | [] => s
  | e :: es => State.walkDec (s.readEntry p e) (p + e.width) es

/-- `fits(e)` (R151). -/
def State.entryFits (s : State) : Entry → Bool
  | .u d w => fitsUnsigned (s.readFr d) w
  | .s d w => fitsSigned (s.readFr d) w
  | .pos => true

/-- The bits one entry of the encoding walk writes (R151). -/
def State.entryBits (s : State) : Entry → Bits
  | .u d w => unsignedBits (s.readFr d) w
  | .s d w => signedBits (s.readFr d) w
  | .pos => s.posBits

/-- The bits `walk_enc(entries, q)` writes from `q` on, entry after entry (R151). -/
def State.walkEncBits (s : State) (es : List Entry) : Bits := es.flatMap s.entryBits

/-! ## The dispatch (R200, R202) -/

/-- The row an identifier selects, or UnsupportedMessageType with `id mod 64` (R158, R159, R202, D17). -/
def State.selectRow (s : State) (id : Int) : Except Failure Row :=
  if s.cfg.selects id then .ok (s.cfg.row id.toNat) else .error (.unsupportedMessageType (idMod64 id))

end Sys2Proof.Machine
end

