-- ==== Sys2Proof/Machine/Position.lean ====
section
/-! DEFINITION. The position unit: POSDEC, POSENC, POSAVL, POSSETR, POSSETD, POSDEG (`spec/42_position.md`). -/

namespace Sys2Proof.Machine

/-- `LON_NA`, the longitude sentinel (R130). -/
abbrev lonNa : Int := 108600000

/-- `LAT_NA`, the latitude sentinel (R130). -/
abbrev latNa : Int := 54600000

/-- 1 (available) unless both raw fields equal their sentinels (R133). -/
def State.posAvailable (s : State) : Int := if s.posLon.toInt = lonNa ∧ s.posLat.toInt = latNa then 0 else 1

/-- Replace the position by two raw integers, both range-checked first; `MSG_OK <- 0` (R134, R135). -/
def State.setPosition (s : State) (lon lat : Int) : Except Failure State :=
  if fitsSigned lon 28 && fitsSigned lat 27 then .ok (s.writePos lon lat).clearMsgOk
  else .error .fieldOverflow

/-- POSDEC (R131). -/
def execPosdec (s : State) : Result :=
  .next (s.complete (s.extracting 55 ((s.readPos s.rpos).advance 55).clearMsgOk))

/-- POSENC (R132). -/
def execPosenc (s : State) : Result := .next (s.complete (s.appending true s.posBits))

/-- POSAVL (R133). -/
def execPosavl (s : State) : Result := .next (s.setRes s.posAvailable).done

/-- POSSETR: the position from `OPA`, `OPB` (R134). -/
def execPossetr (s : State) : Result := .next (s.complete (s.setPosition s.opa s.opb))

/-- POSSETD: the position from the degrees in `DEGA`, `DEGB` (R135; log 7). -/
def execPossetd (s : State) : Result :=
  .next (s.complete (s.setPosition (s.cfg.deg2rawLon s.dega) (s.cfg.deg2rawLat s.degb)))

/-- POSDEG: degrees of the position (R136). -/
def execPosdeg (s : State) : Result :=
  .next { s with deglon := s.cfg.degrees s.posLon.toInt, deglat := s.cfg.degrees s.posLat.toInt }.done

end Sys2Proof.Machine
end

