-- ==== Sys2Proof/Machine/Layout.lean ====
section
/-! DEFINITION. The layout unit: header and tail commands and the type-18 predicates (`spec/43_layout_msg18.md`). -/

namespace Sys2Proof.Machine

/-- HDRDEC (R156). -/
def execHdrdec (s : State) : Result :=
  .next (s.complete (s.extracting 38 ((s.readHeader s.rpos).advance 38).clearMsgOk))

/-- HDRENC (R157). -/
def execHdrenc (s : State) : Result := .next (s.complete (s.appending s.headerFits s.headerBits))

/-- The tests and the effect of TAILDEC once the row is selected: the length, then the bits that remain, then the walk
(R158, R230). -/
def State.decodeTail (s : State) (r : Row) : Except Failure State :=
  if s.rlen ≠ r.explen then .error .wrongPayloadLength
  else s.extracting (tailbits r.entries)
    ((s.walkDec s.rpos r.entries).advance (tailbits r.entries)).clearMsgOk

/-- TAILDEC (R158). -/
def execTaildec (s : State) : Result :=
  .next (s.complete ((s.selectRow (s.readFr 0)).bind s.decodeTail))

/-- The tests and the effect of TAILENC: the lock, the row, the ranges, then the walk (R159, R230). -/
def State.encodeTail (s : State) : Except Failure State :=
  if s.wfin then .error .writerFinalized
  else (s.selectRow (s.readFr 0)).bind fun r =>
    s.appending (r.entries.all s.entryFits) (s.walkEncBits r.entries)

/-- TAILENC (R159). -/
def execTailenc (s : State) : Result := .next (s.complete s.encodeTail)

/-- SOGV: 1 if `FR[4] < 1023`, else 0 (R175). -/
def execSogv (s : State) : Result := .next (s.setRes (if s.readFr 4 < 1023 then 1 else 0)).done

/-- COGV: 1 if `FR[6] < 3600`, else 0 (R176). -/
def execCogv (s : State) : Result := .next (s.setRes (if s.readFr 6 < 3600 then 1 else 0)).done

/-- HDGV: 1 if `FR[7] < 360`, else 0 (R177). -/
def execHdgv (s : State) : Result := .next (s.setRes (if s.readFr 7 < 360 then 1 else 0)).done

/-- POSV: 1 if the position is available, else 0 (R178). -/
def execPosv (s : State) : Result := .next (s.setRes s.posAvailable).done

/-- The utc-second status of `FR[8]` (R179). -/
def utcStatus (v : Int) : Int :=
  if 0 ≤ v ∧ v ≤ 59 then 0
  else if v = 60 then 1
  else if v = 61 then 2
  else if v = 62 then 3
  else if v = 63 then 4
  else 5

/-- UTCST (R179). -/
def execUtcst (s : State) : Result := .next (s.setRes (utcStatus (s.readFr 8))).done

end Sys2Proof.Machine
end

