-- ==== Sys2Proof/Machine/Message.lean ====
section
/-! DEFINITION. The dispatch unit: DECODE and ENCODE of one whole message (`spec/44_dispatch.md`). -/

namespace Sys2Proof.Machine

/-- DECODE's tests in the order of R204, then the header and the tail from position 0 of the bound sequence (R203). -/
def State.decodeMessage (s : State) : Except Failure State :=
  if s.rlen < 38 then .error .truncatedPayload
  else (s.selectRow (s.fieldU 0 6)).bind fun r =>
    if s.rlen ≠ r.explen then .error .wrongPayloadLength
    else .ok { (s.readHeader 0).walkDec 38 r.entries with rpos := 38 + tailbits r.entries }

/-- The end of DECODE: `MSG_OK <- 1` on success, no message on failure (R203, R224 c). -/
def State.completeDecode (s : State) : Except Failure State → State
  | .ok t => t.setMsgOk.done
  | .error e => s.failDecode e

/-- DECODE: a new cursor, then the message or a failure (R203). -/
def execDecode (s : State) : Result :=
  .next (State.completeDecode { s with rpos := 0 } s.decodeMessage)

/-- ENCODE's tests, then a new writer with the header and the tail, finalized (R205). -/
def State.encodeMessage (s : State) : Except Failure State :=
  if !isIdentifier (s.readFr 0) then .error .fieldOverflow
  else (s.selectRow (s.readFr 0)).bind fun r =>
    if s.headerRestFits && r.entries.all s.entryFits then
      .ok (s.newWriter.append (s.headerBits ++ s.walkEncBits r.entries)).finalize
    else .error .fieldOverflow

/-- ENCODE (R205). -/
def execEncode (s : State) : Result := .next (s.complete s.encodeMessage)

end Sys2Proof.Machine
end

