-- ==== Sys2Proof/Machine/Reader.lean ====
section
/-! DEFINITION. The reader unit: RBIND, EXTU, EXTS (`spec/40_bitcursor.md`). -/

namespace Sys2Proof.Machine

/-- RBIND: `OPA` outside `0 .. RBUF_BITS` is IllegalCommand; else bind that many bits, cursor at 0 (R91). -/
def execRbind (s : State) : Result :=
  .next (s.complete (
    if 0 ≤ s.opa ∧ s.opa ≤ s.cfg.rbufBits then .ok { s with rlen := s.opa.toNat, rpos := 0 }
    else .error .illegalCommand))

/-- EXTU w (R92). The decoder never yields an illegal width; exec answers one as R64 answers the word (log 12). -/
def execExtu (w : BitVec 6) (s : State) : Result :=
  .next (s.complete (
    if legalWidth s.cfg w then s.extracting w.toNat ((s.setRes (s.fieldU s.rpos w.toNat)).advance w.toNat)
    else .error .illegalCommand))

/-- EXTS w (R94). Illegal widths as EXTU (log 12). -/
def execExts (w : BitVec 6) (s : State) : Result :=
  .next (s.complete (
    if legalWidth s.cfg w then s.extracting w.toNat ((s.setRes (s.fieldS s.rpos w.toNat)).advance w.toNat)
    else .error .illegalCommand))

end Sys2Proof.Machine
end

