-- ==== Sys2Proof/Machine/Writer.lean ====
section
/-! DEFINITION. The writer unit: WNEW, APPU, APPS, FIN (`spec/41_bitwriter.md`). -/

namespace Sys2Proof.Machine

/-- WNEW (R111). -/
def execWnew (s : State) : Result := .next s.newWriter.done

/-- APPU w: append `OPA` as an unsigned field (R112). Illegal widths as EXTU (log 12). -/
def execAppu (w : BitVec 6) (s : State) : Result :=
  .next (s.complete (
    if legalWidth s.cfg w then
      s.appending (fitsUnsigned s.opa w.toNat) (unsignedBits s.opa w.toNat)
    else .error .illegalCommand))

/-- APPS w: append `OPA` as a two's-complement field (R114). Illegal widths as EXTU (log 12). -/
def execApps (w : BitVec 6) (s : State) : Result :=
  .next (s.complete (
    if legalWidth s.cfg w then
      s.appending (fitsSigned s.opa w.toNat) (signedBits s.opa w.toNat)
    else .error .illegalCommand))

/-- FIN: finalize, or replay when already finalized (R115, R117). -/
def execFin (s : State) : Result := .next (if s.wfin then s else s.finalize).done

end Sys2Proof.Machine
end

