-- ==== Sys2Proof/Machine/Dispatch.lean ====
section
/-! DEFINITION. One arm per command: the meaning of each row of `spec/opcode_table.json`. -/

namespace Sys2Proof.Machine

def exec (i : Instr) (s : State) : Host.Outcome State Fault Refusal :=
  match i with
  | .rbind => Sys2Proof.Machine.execRbind s
  | .extu w => Sys2Proof.Machine.execExtu w s
  | .exts w => Sys2Proof.Machine.execExts w s
  | .wnew => Sys2Proof.Machine.execWnew s
  | .appu w => Sys2Proof.Machine.execAppu w s
  | .apps w => Sys2Proof.Machine.execApps w s
  | .fin => Sys2Proof.Machine.execFin s
  | .posdec => Sys2Proof.Machine.execPosdec s
  | .posenc => Sys2Proof.Machine.execPosenc s
  | .posavl => Sys2Proof.Machine.execPosavl s
  | .possetr => Sys2Proof.Machine.execPossetr s
  | .possetd => Sys2Proof.Machine.execPossetd s
  | .posdeg => Sys2Proof.Machine.execPosdeg s
  | .hdrdec => Sys2Proof.Machine.execHdrdec s
  | .hdrenc => Sys2Proof.Machine.execHdrenc s
  | .taildec => Sys2Proof.Machine.execTaildec s
  | .tailenc => Sys2Proof.Machine.execTailenc s
  | .sogv => Sys2Proof.Machine.execSogv s
  | .cogv => Sys2Proof.Machine.execCogv s
  | .hdgv => Sys2Proof.Machine.execHdgv s
  | .posv => Sys2Proof.Machine.execPosv s
  | .utcst => Sys2Proof.Machine.execUtcst s
  | .decode => Sys2Proof.Machine.execDecode s
  | .encode => Sys2Proof.Machine.execEncode s

end Sys2Proof.Machine
end

