-- ==== Sys2Proof/Machine/HostPort.lean ====
section
/-! DEFINITION. What the host's writes do to an instance between commands (R15, R19, R21, R46, R250, R271). -/

namespace Sys2Proof.Machine

/-- A load-port write: `RBUF[i] <- b`, and the sequence is unbound; an index outside `RBUF` does not exist (R40, R46;
log 10). -/
def hostLoad (i : Nat) (b : Bool) (s : State) : Result :=
  if i < s.cfg.rbufBits then .next { s with rbuf := Mem.set s.rbuf i b, rlen := 0, rpos := 0 }
  else .fault (.loadPortIndex i)

/-- A host write to a field register, which clears `MSG_OK`; a register past the last does not exist (R15, R21; log 10, 20). -/
def hostWriteFr (i : Nat) (v : Operand) (s : State) : Result :=
  if i < s.cfg.nfr then .next (s.writeFr i (s.cfg.port v)).clearMsgOk
  else .fault (.fieldRegisterIndex i)

/-- A host write to `OPA` (R19; log 20). -/
def hostWriteOpa (v : Operand) (s : State) : Result := .next { s with opa := s.cfg.port v }

/-- A host write to `OPB` (R19; log 20). -/
def hostWriteOpb (v : Operand) (s : State) : Result := .next { s with opb := s.cfg.port v }

/-- A host write to `DEGA` (R19). -/
def hostWriteDega (v : Double) (s : State) : Result := .next { s with dega := v }

/-- A host write to `DEGB` (R19). -/
def hostWriteDegb (v : Double) (s : State) : Result := .next { s with degb := v }

/-- Reset: the state of R25 in the same configuration, registers that hold no value taking a new draw; what the host does
next is not the instance's and stays (R250; log 1, 2, 20). -/
def hostReset (s : State) : Result := .next { State.resetAt s.cfg s.draws with pending := s.pending }

end Sys2Proof.Machine
end

