-- ==== Sys2Proof/Machine/Step.lean ====
section
/-! DEFINITION. One step: the host's next action, a command being executed from issue to completion (R52, R262, R263). -/

namespace Sys2Proof.Machine

/-- Issue a command word: run its command; an illegal word is IllegalCommand and changes nothing else (R64). -/
def issue (c : CommandWord) (s : State) : Result :=
  match decode s.cfg c with
  | .ok i => exec i s
  | .error _ => .next (s.raise .illegalCommand)

/-- Do one thing the host does. -/
def perform (a : HostAction) (s : State) : Result :=
  match a with
  | .command c => issue c s
  | .load i b => hostLoad i b s
  | .writeFr i v => hostWriteFr i v s
  | .writeOpa v => hostWriteOpa v s
  | .writeOpb v => hostWriteOpb v s
  | .writeDega v => hostWriteDega v s
  | .writeDegb v => hostWriteDegb v s
  | .reset => hostReset s

/-- One step: the next host action; with none, the instance waits (R251; log 1). -/
def step (s : State) : Host.Outcome State Fault Refusal :=
  match s.pending with
  | [] => .next s
  | a :: rest => perform a { s with pending := rest }

/-- The word of a table row put where `step` takes its next command: the head of the host's actions (log 1). -/
def State.withFetchWord (s : State) (nbits w : Nat) : State :=
  { s with pending := .command (BitVec.ofNat 16 (w % 2 ^ nbits)) :: s.pending }

end Sys2Proof.Machine
end

