-- ==== Sys2Proof/Machine/Instances.lean ====
section
/-! DEFINITION. `N_INST` independent instances: complete, separate copies of the state, numbered from 0 (R26, R243). -/

namespace Sys2Proof.Machine

/-- The instances of a configuration right after reset: `N_INST` of them (R6, R25, R26; log 11), or none where the record
is not a configuration of this hardware, which is refused at configuration time (R73, U9, U10). Instance `k` takes the draws
`k`, `k + N_INST`, `k + 2 * N_INST` and so on, so registers and cells that hold no value are not tied between instances: the
spec says neither that they agree nor that they differ, and neither can be proved. DESIGN CHOICE, safe: log 11. -/
def instancesReset (c : Config) : Option (List State) :=
  if c.wf then some ((List.range c.nInst).map (State.resetAt c)) else none

/-- One step of instance `k`; the other instances are not touched (R26). -/
def stepInstance (sys : List State) (k : Fin sys.length) : Host.Outcome (List State) Fault Refusal :=
  match step sys[k] with
  | .next t => .next (sys.set k t)
  | .fault r => .fault r
  | .refused r => .refused r

end Sys2Proof.Machine
end

