-- ==== Sys2Proof/Machine/RowFormat.lean ====
section
/-! DEFINITION. The binary form of a layout row: a 32-bit row header and 16-bit entry words, written and read (R71). -/

namespace Sys2Proof.Machine

/-- The entry word: `kind` in bits 15:14, `w` in 13:8, zero in 7:5, `dest` in 4:0 (R71). -/
def entryWord : Entry → BitVec 16
  | .u d w => (0 : BitVec 2) ++ BitVec.ofNat 6 w ++ (0 : BitVec 3) ++ BitVec.ofNat 5 d
  | .s d w => (1 : BitVec 2) ++ BitVec.ofNat 6 w ++ (0 : BitVec 3) ++ BitVec.ofNat 5 d
  | .pos => 0x8000

/-- The row header word: `present` in bit 31, `explen` in 26:16, the number of entries in 5:0, the rest zero (R71). -/
def rowHeaderWord (r : Row) : BitVec 32 :=
  BitVec.ofBool r.present ++ (0 : BitVec 4) ++ BitVec.ofNat 11 r.explen ++ (0 : BitVec 10) ++
    BitVec.ofNat 6 r.entries.length

/-- The entry of a word, none for the reserved kind, a nonzero zero field or a width the kind does not have (R71, U9). -/
def readEntryWord (c : Config) (e : BitVec 16) : Option Entry :=
  let w := (e.extractLsb' 8 6).toNat
  let dest := (e.extractLsb' 0 5).toNat
  if e.extractLsb' 5 3 ≠ 0 then none
  else
    match (e.extractLsb' 14 2).toNat with
    | 0 => if 1 ≤ w ∧ w ≤ c.wMax then some (.u dest w) else none
    | 1 => if 1 ≤ w ∧ w ≤ c.wMax then some (.s dest w) else none
    | 2 => if w = 0 ∧ dest = 0 then some .pos else none
    | _ => none

/-- The row of a header word and its entry words, none where the words are not the binary form of a row (R71, U9). -/
def readRowWords (c : Config) (h : BitVec 32) (es : List (BitVec 16)) : Option Row :=
  if h.extractLsb' 27 4 ≠ 0 ∨ h.extractLsb' 6 10 ≠ 0 ∨ (h.extractLsb' 0 6).toNat ≠ es.length then none
  else
    (es.mapM (readEntryWord c)).map fun entries =>
      { present := h.getLsbD 31, explen := (h.extractLsb' 16 11).toNat, entries := entries }

end Sys2Proof.Machine
end

