-- ==== Sys2Proof/Safety.lean ====
section
/-! DEFINITION. What a good state of an instance is: the invariants the spec's rules hold (R11, R12, R14, R21, R22) and the
canonical form of the memories. Claims about every step are stated with it. -/

namespace Sys2Proof

open Machine

/-- Every bit appended so far is in `WBUF`: the cells below `WLEN` hold values (R12). -/
def Machine.State.wbufFilled (s : State) : Prop := ∀ a, a < s.wlen → (Mem.get? s.wbuf a).isSome

/-- The armored outputs of a finalized writer are those of its bits: the lengths, and every character of the text
(R12, R115). -/
def Machine.State.armored (s : State) : Prop :=
  s.armlen = (s.wlen + 5) / 6 ∧ 6 * s.armlen = s.wlen + s.fill ∧
    ∀ i, i < s.armlen → Mem.get? s.arm i = some (s.cfg.armorChar (s.group i))

/-- `FR` and `POS_*` hold a complete message of the row `FR[0]` selects, every field within its width, which is what
`MSG_OK` tells the host (R21). -/
def Machine.State.holdsMessage (s : State) : Prop :=
  s.cfg.selects (s.readFr 0) = true ∧ s.headerRestFits = true ∧
    (s.cfg.row (s.readFr 0).toNat).entries.all s.entryFits = true

/-- The instance is one of a configuration of this hardware, with the field registers it says (R6, R15). -/
def Machine.State.isConfigured (s : State) : Prop := s.cfg.wf = true ∧ s.fr.length = s.cfg.nfr

/-- Every integer register and port is in the operand range (R15, R19, R20). -/
def Machine.State.operandsInRange (s : State) : Prop :=
  ∀ v ∈ s.opa :: s.opb :: s.res :: s.fr, -(2 ^ (s.cfg.opw - 1)) ≤ v ∧ v < 2 ^ (s.cfg.opw - 1)

/-- The invariant of an instance. -/
structure Machine.State.Inv (s : State) : Prop where
  /-- The configuration is one of this hardware (R6, R73, R118, R152). -/
  configured : s.isConfigured
  /-- The integer registers and ports are in the operand range (R15, R19, R20). -/
  operands : s.operandsInRange
  /-- `0 <= RPOS <= RLEN` (R11). -/
  cursor : s.rpos ≤ s.rlen
  /-- `0 <= RLEN <= RBUF_BITS` (R11). -/
  bound : s.rlen ≤ s.cfg.rbufBits
  /-- `RBUF` has no cell at or past its capacity (R40, R46). -/
  rbufRange : ∀ a, s.cfg.rbufBits ≤ a → Mem.get? s.rbuf a = none
  /-- The memories are in canonical form. -/
  rbufWf : Mem.wf s.rbuf
  /-- The memories are in canonical form. -/
  wbufWf : Mem.wf s.wbuf
  /-- The memories are in canonical form. -/
  armWf : Mem.wf s.arm
  /-- `WBUF[0 .. WLEN-1]` holds the bits written so far (R12). -/
  written : s.wbufFilled
  /-- `FILL` is 0 to 5 (R12). -/
  fillRange : s.fill ≤ 5
  /-- While `WFIN = 1` the text is the armoring of the bits (R12, R113, R115). -/
  text : s.wfin = true → s.armored
  /-- The text of a writer within its capacity is within that of `ARM` (R40, D4). -/
  textRange : s.wfin = true → s.wlen ≤ s.cfg.wbufBits → s.armlen ≤ s.cfg.armChars
  /-- `STATUS` values 7 to 15 are never produced (R22). -/
  statusRange : s.status.toNat ≤ 6
  /-- `INFO` is 0 unless the failure is UnsupportedMessageType (R22, R221). -/
  infoZero : s.status ≠ 3 → s.info = 0
  /-- `MSG_OK = 1` tells that a complete decoded message is held (R21). -/
  message : s.msgOk = true → s.holdsMessage

/-- A step that stops is not safe: with `Inv` it is what claims about whole runs speak of. -/
def Machine.State.stepsOn (s : State) : Prop := ∃ t, step s = .next t

end Sys2Proof
end

