-- ==== Sys2Proof/Certificates/Slice0/Obligations.lean ====
section
/-! DEFINITION. The statements about the codec, from the numbered rules of `spec/`. The helper definitions are written
from the rules and not from the model's own functions. -/

namespace Sys2Proof.Claims

open Sys2Proof.Machine

/-- R7, R41: the unsigned value of the field of `w` bits at position `p`, most significant bit first. -/
def fieldValue (bit : Nat → Bool) (p w : Nat) : Nat := ∑ k ∈ Finset.range w, (bit (p + k)).toNat * 2 ^ (w - 1 - k)

/-- R7: `sext_w`. -/
def twosComplement (w u : Nat) : Int := if u < 2 ^ (w - 1) then u else (u : Int) - 2 ^ w

/-- R7: bit `j` of an integer, `floor(v / 2^j) mod 2`. -/
def bitOf (v : Int) (j : Nat) : Bool := decide (v / 2 ^ j % 2 = 1)

/-- R41, R112, R114: the cells `q .. q+w-1` hold the low `w` bits of `v`, most significant first. -/
def holdsField (m : Mem Bool) (q w : Nat) (v : Int) : Prop :=
  ∀ k, k < w → Mem.get? m (q + k) = some (bitOf v (w - 1 - k))

/-- Every cell outside `q .. q+w-1` is as before. -/
def sameOutside {α : Type} (m m' : Mem α) (q w : Nat) : Prop := ∀ a, a < q ∨ q + w ≤ a → Mem.get? m' a = Mem.get? m a

/-- R8: `FR[i]`. -/
def reg (s : State) (i : Nat) : Int := s.fr.getD i 0

/-- R63: the legal widths. -/
def isLegal (c : Config) (w : BitVec 6) : Prop := 1 ≤ w.toNat ∧ w.toNat ≤ c.wMax

/-- R62, R61, R64: the words that are not illegal. -/
def isCommandWord (cfg : Config) (c : CommandWord) : Prop :=
  (c.toNat % 256 = 0 ∧ c.toNat / 256 ∈ [0x01, 0x10, 0x13, 0x20, 0x21, 0x22, 0x23, 0x24, 0x25, 0x30, 0x31, 0x32, 0x33,
      0x38, 0x39, 0x3A, 0x3B, 0x3C, 0x40, 0x41]) ∨
    (c.toNat / 64 % 4 = 0 ∧ 1 ≤ c.toNat % 64 ∧ c.toNat % 64 ≤ cfg.wMax ∧ c.toNat / 256 ∈ [0x02, 0x03, 0x11, 0x12])

/-- R16, R75: the header fields: register, first payload bit, width. -/
def headerFields : List (Nat × Nat × Nat) := [(0, 0, 6), (1, 6, 2), (2, 8, 30)]

/-- R17: the type-18 tail fields held in `FR`: register, first payload bit, width. -/
def tailFields : List (Nat × Nat × Nat) :=
  [(3, 38, 8), (4, 46, 10), (5, 56, 1), (6, 112, 12), (7, 124, 9), (8, 133, 6), (9, 139, 2), (10, 141, 1), (11, 142, 1),
   (12, 143, 1), (13, 144, 1), (14, 145, 1), (15, 146, 1), (16, 147, 1), (17, 148, 1), (18, 149, 19)]

/-- R17: `POS_LON` is at payload bits 57 to 84 and `POS_LAT` at 85 to 111; `o` is what is added to a payload bit number. -/
def readsPosition (s t : State) (o : Nat) : Prop :=
  t.posLon.toInt = twosComplement 28 (fieldValue s.rbufBit (o + 57) 28) ∧
    t.posLat.toInt = twosComplement 27 (fieldValue s.rbufBit (o + 85) 27)

/-- The registers of `fields` hold the unsigned fields of `s` at their payload bits. -/
def readsFields (s t : State) (o : Nat) (fields : List (Nat × Nat × Nat)) : Prop :=
  ∀ f ∈ fields, t.fr[f.1]? = some (fieldValue s.rbufBit (o + f.2.1) f.2.2 : Int)

/-- The registers of `fields` are within their widths (R227). -/
def fieldsFit (s : State) (fields : List (Nat × Nat × Nat)) : Prop :=
  ∀ f ∈ fields, 0 ≤ reg s f.1 ∧ reg s f.1 < 2 ^ f.2.2

/-- The payload bits of `fields` hold the registers, from cell `q` on for payload bit `o`. -/
def writesFields (s : State) (m : Mem Bool) (q o : Nat) (fields : List (Nat × Nat × Nat)) : Prop :=
  ∀ f ∈ fields, holdsField m (q + (f.2.1 - o)) f.2.2 (reg s f.1)

/-- R70, R155: row `r` is the one identifier `id` selects. -/
def selected (s : State) (id : Int) (r : Row) : Prop :=
  0 ≤ id ∧ id ≤ 63 ∧ s.cfg.row id.toNat = r ∧ r.present = true

/-- R202: no row is selected. -/
def unsupported (s : State) (id : Int) : Prop := ¬ ∃ r, selected s id r

/-- R70: the register an entry is held in. -/
def names (es : List Entry) (i : Nat) : Prop := ∃ w, Entry.u i w ∈ es ∨ Entry.s i w ∈ es

/-- R151: where entry `k` starts, counted from the first. -/
def entryStart (es : List Entry) (k : Nat) : Nat := tailbits (es.take k)

/-- R70, R151: the registers hold the fields of the entries, the first at position `p`; the others are as before. -/
def readsEntries (s t : State) (p : Nat) (es : List Entry) : Prop :=
  (∀ (k : Nat) (e : Entry), es[k]? = some e → match e with
    | .u d w => t.fr[d]? = some (fieldValue s.rbufBit (p + entryStart es k) w : Int)
    | .s d w => t.fr[d]? = some (twosComplement w (fieldValue s.rbufBit (p + entryStart es k) w))
    | .pos => t.posLon.toInt = twosComplement 28 (fieldValue s.rbufBit (p + entryStart es k) 28) ∧
        t.posLat.toInt = twosComplement 27 (fieldValue s.rbufBit (p + entryStart es k + 28) 27)) ∧
  (Entry.pos ∉ es → t.posLon = s.posLon ∧ t.posLat = s.posLat)

/-- R151: the registers of the entries fit them. -/
def entriesFit (s : State) (es : List Entry) : Prop :=
  ∀ e ∈ es, match e with
    | .u d w => 0 ≤ reg s d ∧ reg s d < 2 ^ w
    | .s d w => -(2 ^ (w - 1)) ≤ reg s d ∧ reg s d < 2 ^ (w - 1)
    | .pos => True

/-- R70, R151: the cells from `q` on hold the fields of the entries. -/
def writesEntries (s : State) (m : Mem Bool) (q : Nat) (es : List Entry) : Prop :=
  ∀ (k : Nat) (e : Entry), es[k]? = some e → match e with
    | .u d w => holdsField m (q + entryStart es k) w (reg s d)
    | .s d w => holdsField m (q + entryStart es k) w (reg s d)
    | .pos => holdsField m (q + entryStart es k) 28 s.posLon.toInt ∧
        holdsField m (q + entryStart es k + 28) 27 s.posLat.toInt

/-- R42, R115: the first `n` characters are the armoring of the bits. -/
def holdsText (c : Config) (arm : List Host.Cell) (n : Nat) (bit : Nat → Bool) : Prop :=
  ∀ i, i < n → Mem.get? arm i = some (c.armorChar (fieldValue bit (6 * i) 6))

/-- R15, R19: what a port of `OPW` bits holds that is given `v`: a value of the operand range with the same low `OPW`
bits, so `v` itself if it is in the range. -/
def carries (c : Config) (v u : Int) : Prop :=
  -(2 ^ (c.opw - 1)) ≤ u ∧ u < 2 ^ (c.opw - 1) ∧ (2 : Int) ^ c.opw ∣ u - v

/-- R25: what reset leaves, the entries that hold a value, and the memories with no cell that holds one. -/
def isResetState (t : State) : Prop :=
  t.rlen = 0 ∧ t.rpos = 0 ∧ t.wlen = 0 ∧ t.wfin = false ∧ t.armlen = 0 ∧ t.fill = 0 ∧ t.msgOk = false ∧
    t.status = 0 ∧ t.info = 0 ∧
    (∀ a, Mem.get? t.rbuf a = none) ∧ (∀ a, Mem.get? t.wbuf a = none) ∧ (∀ a, Mem.get? t.arm a = none)

/-- IEEE 754 binary64: the biased exponent. -/
def expOf (x : Double) : Nat := x.toNat / 2 ^ 52 % 2048

/-- IEEE 754 binary64: the fraction. -/
def fracOf (x : Double) : Nat := x.toNat % 2 ^ 52

/-- IEEE 754 binary64: the value of a finite number. -/
def valueOf (x : Double) : ℚ :=
  (if 2 ^ 63 ≤ x.toNat then -1 else 1) *
    (if expOf x = 0 then (fracOf x : ℚ) * 2 ^ (-1074 : ℤ) else (2 ^ 52 + fracOf x : ℚ) * 2 ^ ((expOf x : ℤ) - 1075))

/-- Half a unit in the last place of a binary64 number. -/
def halfUlp (x : Double) : ℚ := 2 ^ ((max (expOf x) 1 : ℤ) - 1076)

/-- R136: `x` is finite and at most half a unit in the last place from `q`, and even where it is exactly half. -/
def isRoundedTo (x : Double) (q : ℚ) : Prop :=
  expOf x < 2047 ∧ |valueOf x - q| ≤ halfUlp x ∧ (|valueOf x - q| = halfUlp x → fracOf x % 2 = 0)

/-- R119 c: a field a host appends and extracts: its signedness, width and value. -/
structure Field where
  signed : Bool
  width : BitVec 6
  value : Operand

/-- The value fits the width under the declared signedness (R112, R114). -/
def Field.fits (c : Config) (f : Field) : Prop :=
  isLegal c f.width ∧
    if f.signed then -(2 ^ (f.width.toNat - 1)) ≤ f.value ∧ f.value < 2 ^ (f.width.toNat - 1)
    else 0 ≤ f.value ∧ f.value < 2 ^ f.width.toNat

/-- The host sets `OPA` and appends each field in turn; the writer after the last, if no append fails. -/
def appendAll : List Field → State → Option State
  | [], s => some s
  | f :: fs, s =>
    match exec (if f.signed then .apps f.width else .appu f.width) { s with opa := f.value } with
    | .next t => if t.status = 0 then appendAll fs t else none
    | _ => none

/-- The host extracts each field in turn; the values of `RES` and the reader after the last, if no extraction fails. -/
def extractAll : List Field → State → Option (List Operand × State)
  | [], s => some ([], s)
  | f :: fs, s =>
    match exec (if f.signed then .exts f.width else .extu f.width) s with
    | .next t => if t.status = 0 then (extractAll fs t).map fun r => (t.res :: r.1, r.2) else none
    | _ => none

/-- The number of bits of the fields. -/
def totalWidth (fs : List Field) : Nat := (fs.map fun f => f.width.toNat).sum

end Sys2Proof.Claims

open Sys2Proof Sys2Proof.Machine Sys2Proof.Claims

/-! ## Command words, the step, the host's side -/

/-- R62: the 20 words of format C0 and the words of the four commands with a width. -/
def Obligations.CommandTableWords : Prop :=
  (decode defaultConfig 0x0100 = .ok .rbind ∧ decode defaultConfig 0x1000 = .ok .wnew ∧ decode defaultConfig 0x1300 = .ok .fin ∧ decode defaultConfig 0x2000 = .ok .posdec ∧
    decode defaultConfig 0x2100 = .ok .posenc ∧ decode defaultConfig 0x2200 = .ok .posavl ∧ decode defaultConfig 0x2300 = .ok .possetr ∧
    decode defaultConfig 0x2400 = .ok .possetd ∧ decode defaultConfig 0x2500 = .ok .posdeg ∧ decode defaultConfig 0x3000 = .ok .hdrdec ∧
    decode defaultConfig 0x3100 = .ok .hdrenc ∧ decode defaultConfig 0x3200 = .ok .taildec ∧ decode defaultConfig 0x3300 = .ok .tailenc ∧
    decode defaultConfig 0x3800 = .ok .sogv ∧ decode defaultConfig 0x3900 = .ok .cogv ∧ decode defaultConfig 0x3A00 = .ok .hdgv ∧ decode defaultConfig 0x3B00 = .ok .posv ∧
    decode defaultConfig 0x3C00 = .ok .utcst ∧ decode defaultConfig 0x4000 = .ok .decode ∧ decode defaultConfig 0x4100 = .ok .encode) ∧
  (decode defaultConfig 0x0206 = .ok (.extu 6) ∧ decode defaultConfig 0x031C = .ok (.exts 28) ∧ decode defaultConfig 0x1113 = .ok (.appu 19) ∧
    decode defaultConfig 0x1220 = .ok (.apps 32))

/-- R61 to R64: for every configured `W_MAX`, a word decodes to a command exactly if the command is well formed and the word
is its encoding: no bit of a word is dropped, and every word has one meaning. -/
def Obligations.DecodeInvertsEncode : Prop :=
  ∀ (cfg : Config) (c : CommandWord) (i : Instr), decode cfg c = .ok i ↔ i.wf cfg = true ∧ encode i = c

/-- R64: an illegal word completes with IllegalCommand and changes no other state. -/
def Obligations.IllegalWordChangesOnlyStatus : Prop :=
  ∀ (s : State) (c : CommandWord) (rest : List HostAction), s.pending = .command c :: rest →
    ¬ isCommandWord s.cfg c → step s = .next { s with pending := rest, status := 6, info := 0 }

/-- R63, R64: exec answers an illegal width as the step answers the word (the decoder never yields one; the model's
choice, log 12). -/
def Obligations.IllegalWidthIsIllegalCommand : Prop :=
  ∀ (s : State) (w : BitVec 6), ¬ isLegal s.cfg w → ∀ i ∈ [Instr.extu w, .exts w, .appu w, .apps w],
    exec i s = .next { s with status := 6, info := 0 }

/-- R262: a step whose host action is a legal word runs the command of the word, the action taken off the list. -/
def Obligations.StepRunsDecodedCommand : Prop :=
  ∀ (s : State) (c : CommandWord) (i : Instr) (rest : List HostAction), s.pending = .command c :: rest →
    decode s.cfg c = .ok i → step s = exec i { s with pending := rest }

/-- R251: with no command issued the instance waits (the model's choice of a step that changes nothing, log 1). -/
def Obligations.IdleInstanceWaits : Prop := ∀ s : State, s.pending = [] → step s = .next s

/-- R262: every command terminates with a next state, whatever the state and the operands. In this breadth it is the model's
choice: registers and cells with no value are read (log 5), appends past `WBUF_BITS` go on (log 6), POSSETD runs on
non-finite degrees (log 7), an illegal width is IllegalCommand (log 12). -/
def Obligations.EveryCommandCompletes : Prop := ∀ (i : Instr) (s : State), ∃ t, exec i s = .next t

/-- R46: a load-port write sets its cell and unbinds; every extraction then fails until the host binds again; and no
command changes `RBUF`. -/
def Obligations.LoadPortWriteUnbinds : Prop :=
  (∀ (s : State) (i : Nat) (b : Bool) (rest : List HostAction), s.pending = .load i b :: rest → i < s.cfg.rbufBits →
    ∃ t, step s = .next t ∧ Mem.get? t.rbuf i = some b ∧ (∀ a, a ≠ i → Mem.get? t.rbuf a = Mem.get? s.rbuf a) ∧
      t = { s with pending := rest, rbuf := t.rbuf, rlen := 0, rpos := 0 } ∧
      ∀ w, isLegal s.cfg w → ∀ j ∈ [Instr.extu w, .exts w, .posdec, .hdrdec],
        exec j t = .next { t with status := 1, info := 0 }) ∧
  ∀ (i : Instr) (s t : State), exec i s = .next t → t.rbuf = s.rbuf

/-- R15, R19, R21: the host's register writes: a field register (which clears `MSG_OK`) and the operand registers, each
writing nothing else; an integer is held as its low `OPW` bits, so as it is in the operand range (outside it: log 20). -/
def Obligations.HostRegisterWrites : Prop :=
  ∀ (s : State) (rest : List HostAction), s.isConfigured →
    (∀ (i : Nat) (v : Operand), i < s.cfg.nfr → s.pending = .writeFr i v :: rest →
      ∃ t u, step s = .next t ∧ carries s.cfg v u ∧ t.fr[i]? = some u ∧ (∀ j, j ≠ i → t.fr[j]? = s.fr[j]?) ∧
        t = { s with pending := rest, fr := t.fr, msgOk := false }) ∧
    (∀ v, s.pending = .writeOpa v :: rest →
      ∃ u, carries s.cfg v u ∧ step s = .next { s with pending := rest, opa := u }) ∧
    (∀ v, s.pending = .writeOpb v :: rest →
      ∃ u, carries s.cfg v u ∧ step s = .next { s with pending := rest, opb := u }) ∧
    (∀ v, s.pending = .writeDega v :: rest → step s = .next { s with pending := rest, dega := v }) ∧
    (∀ v, s.pending = .writeDegb v :: rest → step s = .next { s with pending := rest, degb := v })

/-- R40, R46, R15: the host accesses the spec does not have stop the model, and nothing else does. That these stop is the
model's choice (log 10). That every other step answers a next state, a command word in any state among them, is R262, and in
that breadth the model's choice: registers and cells with no value are read (log 5), appends past `WBUF_BITS` go on (log 6),
POSSETD runs on non-finite degrees (log 7), and with no host action the instance waits (log 1). -/
def Obligations.OnlyAbsentCellsStopAStep : Prop :=
  ∀ (s : State), (∃ t, step s = .next t) ↔
    ¬ ((∃ i b rest, s.pending = .load i b :: rest ∧ s.cfg.rbufBits ≤ i) ∨
      (∃ i v rest, s.pending = .writeFr i v :: rest ∧ s.cfg.nfr ≤ i))

/-- R25, R250, R6, R202: the reset state, its default configuration with row 18 alone, and what asserting reset leaves, at any
state; the registers the spec gives no value are not spoken of (log 2). -/
def Obligations.ResetStateAndResetInput : Prop :=
  (isResetState State.reset ∧ State.reset.cfg.wMax = 32 ∧ State.reset.cfg.opw = 33 ∧ State.reset.cfg.rbufBits = 1024 ∧
    State.reset.cfg.wbufBits = 1024 ∧ State.reset.cfg.armChars = 171 ∧ State.reset.cfg.nfr = 32 ∧
    State.reset.cfg.nInst = 1 ∧ ∀ id, (State.reset.cfg.row id).present = true ↔ id = 18) ∧
  ∀ (s : State) (rest : List HostAction), s.pending = .reset :: rest →
    ∃ t, step s = .next t ∧ isResetState t ∧ t.pending = rest ∧ t.cfg = s.cfg ∧ t.fr.length = s.cfg.nfr

/-- The invariant holds at reset, in the default configuration and in every configuration of this hardware. -/
def Obligations.InvariantHoldsAtReset : Prop :=
  State.reset.Inv ∧ ∀ (c : Config) (n : Nat), c.wf = true → (State.resetAt c n).Inv

/-- R11, R12, R15, R21, R22: every step keeps the invariant. Where the host gives a port an integer outside the operand range,
that it stays in range is the model's choice (log 20). -/
def Obligations.EveryStepKeepsInvariant : Prop := ∀ s t : State, s.Inv → step s = .next t → t.Inv

/-! ## Reader unit -/

/-- R91: RBIND. -/
def Obligations.RbindBindsOrRejects : Prop :=
  ∀ s : State, exec .rbind s = .next (
    if 0 ≤ s.opa ∧ s.opa ≤ s.cfg.rbufBits
    then { s with rlen := s.opa.toNat, rpos := 0, status := 0, info := 0 }
    else { s with status := 6, info := 0 })

/-- R92: EXTU w, every width and every number of bits that remain. -/
def Obligations.ExtuReturnsUnsignedField : Prop :=
  ∀ (s : State) (w : BitVec 6), isLegal s.cfg w →
    (s.rlen < s.rpos + w.toNat → exec (.extu w) s = .next { s with status := 1, info := 0 }) ∧
    (s.rpos + w.toNat ≤ s.rlen → ∃ t, exec (.extu w) s = .next t ∧
      t.res = fieldValue s.rbufBit s.rpos w.toNat ∧ t.res < 2 ^ w.toNat ∧
      t = { s with res := t.res, rpos := s.rpos + w.toNat, status := 0, info := 0 })

/-- R94: EXTS w, every width and every number of bits that remain. -/
def Obligations.ExtsReturnsSignedField : Prop :=
  ∀ (s : State) (w : BitVec 6), isLegal s.cfg w →
    (s.rlen < s.rpos + w.toNat → exec (.exts w) s = .next { s with status := 1, info := 0 }) ∧
    (s.rpos + w.toNat ≤ s.rlen → ∃ t, exec (.exts w) s = .next t ∧
      t.res = twosComplement w.toNat (fieldValue s.rbufBit s.rpos w.toNat) ∧
      -(2 ^ (w.toNat - 1)) ≤ t.res ∧ t.res < 2 ^ (w.toNat - 1) ∧
      t = { s with res := t.res, rpos := s.rpos + w.toNat, status := 0, info := 0 })

/-- R93: the bound test of every extracting command but DECODE: nothing is read, nothing moves. -/
def Obligations.TooFewBitsChangesOnlyStatus : Prop :=
  ∀ s : State,
    (∀ w, isLegal s.cfg w → s.rlen < s.rpos + w.toNat → ∀ i ∈ [Instr.extu w, .exts w],
      exec i s = .next { s with status := 1, info := 0 }) ∧
    (s.rlen < s.rpos + 55 → exec .posdec s = .next { s with status := 1, info := 0 }) ∧
    (s.rlen < s.rpos + 38 → exec .hdrdec s = .next { s with status := 1, info := 0 }) ∧
    (reg s 0 = 18 → s.rlen = 168 → s.rlen < s.rpos + 130 →
      exec .taildec s = .next { s with status := 1, info := 0 })

/-- R95 (a): EXTU a then EXTU b return the high and low parts of what EXTU (a+b) returns. -/
def Obligations.ExtractionSplits : Prop :=
  ∀ (s : State) (a b c : BitVec 6), isLegal s.cfg a → isLegal s.cfg b → isLegal s.cfg c → a.toNat + b.toNat = c.toNat →
    s.rpos + c.toNat ≤ s.rlen →
    ∃ t1 t2 t, exec (.extu a) s = .next t1 ∧ exec (.extu b) t1 = .next t2 ∧ exec (.extu c) s = .next t ∧
      t.res = t1.res * 2 ^ b.toNat + t2.res ∧ t2.rpos = t.rpos

/-- R95 (b): EXTS w and EXTU w at the same position agree modulo `2^w`. -/
def Obligations.SignedAndUnsignedAgreeModWidth : Prop :=
  ∀ (s : State) (w : BitVec 6), isLegal s.cfg w → s.rpos + w.toNat ≤ s.rlen →
    ∃ t u, exec (.exts w) s = .next t ∧ exec (.extu w) s = .next u ∧ t.res % 2 ^ w.toNat = u.res

/-- R96: the cursor goes back only when a new one is created: by RBIND, DECODE, a load-port write or reset. -/
def Obligations.CursorNeverRewinds : Prop :=
  ∀ (a : HostAction) (s t : State), perform a s = .next t → t.rpos < s.rpos →
    (∃ i b, a = .load i b) ∨ a = .reset ∨ (∃ c, a = .command c ∧ (decode s.cfg c = .ok .rbind ∨ decode s.cfg c = .ok .decode))

/-! ## Writer unit -/

/-- R111: WNEW. -/
def Obligations.WnewEmptiesWriter : Prop :=
  ∀ s : State, exec .wnew s = .next { s with wlen := 0, wfin := false, armlen := 0, fill := 0, status := 0, info := 0 }

/-- R112: APPU w: the lock, the range test, then the bits of `OPA` at `WLEN`, within the capacity. -/
def Obligations.AppuAppendsUnsignedField : Prop :=
  ∀ (s : State) (w : BitVec 6), isLegal s.cfg w →
    (s.wfin = true → exec (.appu w) s = .next { s with status := 5, info := 0 }) ∧
    (s.wfin = false → (s.opa < 0 ∨ 2 ^ w.toNat ≤ s.opa) →
      exec (.appu w) s = .next { s with status := 4, info := 0 }) ∧
    (s.wfin = false → 0 ≤ s.opa → s.opa < 2 ^ w.toNat → s.wlen + w.toNat ≤ s.cfg.wbufBits →
      ∃ t, exec (.appu w) s = .next t ∧ holdsField t.wbuf s.wlen w.toNat s.opa ∧
        sameOutside s.wbuf t.wbuf s.wlen w.toNat ∧
        t = { s with wbuf := t.wbuf, wlen := s.wlen + w.toNat, status := 0, info := 0 })

/-- R114: APPS w: the lock, the range test, then the low bits of `OPA` at `WLEN`, within the capacity. -/
def Obligations.AppsAppendsSignedField : Prop :=
  ∀ (s : State) (w : BitVec 6), isLegal s.cfg w →
    (s.wfin = true → exec (.apps w) s = .next { s with status := 5, info := 0 }) ∧
    (s.wfin = false → (s.opa < -(2 ^ (w.toNat - 1)) ∨ 2 ^ (w.toNat - 1) ≤ s.opa) →
      exec (.apps w) s = .next { s with status := 4, info := 0 }) ∧
    (s.wfin = false → -(2 ^ (w.toNat - 1)) ≤ s.opa → s.opa < 2 ^ (w.toNat - 1) → s.wlen + w.toNat ≤ s.cfg.wbufBits →
      ∃ t, exec (.apps w) s = .next t ∧ holdsField t.wbuf s.wlen w.toNat s.opa ∧
        sameOutside s.wbuf t.wbuf s.wlen w.toNat ∧
        t = { s with wbuf := t.wbuf, wlen := s.wlen + w.toNat, status := 0, info := 0 })

/-- R113: while `WFIN = 1` the appending commands fail with WriterFinalized and change nothing else; the lock is
released only by WNEW, by a successful ENCODE, which starts a new writer (and finalizes it), and by reset. -/
def Obligations.FinalizedWriterIsLocked : Prop :=
  (∀ (s : State) (w : BitVec 6), isLegal s.cfg w → s.wfin = true →
    ∀ i ∈ [Instr.appu w, .apps w, .posenc, .hdrenc, .tailenc], exec i s = .next { s with status := 5, info := 0 }) ∧
  ∀ (a : HostAction) (s t : State), perform a s = .next t → s.wfin = true →
    (t.wfin = false → a = .reset ∨ ∃ c, a = .command c ∧ decode s.cfg c = .ok .wnew) ∧
    ((t.wbuf ≠ s.wbuf ∨ t.wlen ≠ s.wlen ∨ t.arm ≠ s.arm ∨ t.armlen ≠ s.armlen ∨ t.fill ≠ s.fill) →
      a = .reset ∨ ∃ c, a = .command c ∧ (decode s.cfg c = .ok .wnew ∨ decode s.cfg c = .ok .encode))

/-- R115, R117: FIN: on a writer that is not finalized, the text, its length, the fill count, the flag; a second FIN
changes no state and completes. -/
def Obligations.FinPadsArmorsFinalizes : Prop :=
  ∀ s : State,
    (s.wfin = true → exec .fin s = .next { s with status := 0, info := 0 }) ∧
    (s.wfin = false → ∃ t, exec .fin s = .next t ∧
      (∀ i, i < t.armlen → Mem.get? t.arm i =
        some (s.cfg.armorChar (fieldValue (fun j => if j < s.wlen then s.wbufBit j else false) (6 * i) 6))) ∧
      sameOutside s.arm t.arm 0 t.armlen ∧
      t = { s with arm := t.arm, armlen := (s.wlen + (6 - s.wlen % 6) % 6) / 6, fill := (6 - s.wlen % 6) % 6,
                   wfin := true, status := 0, info := 0 })

/-- R116: after FIN, `6 * ARMLEN = WLEN + FILL`, and `FILL` is 0 to 5, 0 exactly when `WLEN` is a multiple of 6. -/
def Obligations.FillCountAccountsForText : Prop :=
  ∀ s t : State, s.wfin = false → exec .fin s = .next t →
    6 * t.armlen = t.wlen + t.fill ∧ t.fill ≤ 5 ∧ (t.fill = 0 ↔ 6 ∣ s.wlen)

/-- R45: an append goes on past the capacity as within it: the bits, the length and the frame are the same whatever `WLEN`
is (past `WBUF_BITS` the model's choice of an unbounded buffer, log 6). -/
def Obligations.AppendsPastNominalCapacity : Prop :=
  ∀ (s : State) (w : BitVec 6), isLegal s.cfg w → s.wfin = false →
    (0 ≤ s.opa → s.opa < 2 ^ w.toNat →
      ∃ t, exec (.appu w) s = .next t ∧ holdsField t.wbuf s.wlen w.toNat s.opa ∧
        sameOutside s.wbuf t.wbuf s.wlen w.toNat ∧
        t = { s with wbuf := t.wbuf, wlen := s.wlen + w.toNat, status := 0, info := 0 }) ∧
    (-(2 ^ (w.toNat - 1)) ≤ s.opa → s.opa < 2 ^ (w.toNat - 1) →
      ∃ t, exec (.apps w) s = .next t ∧ holdsField t.wbuf s.wlen w.toNat s.opa ∧
        sameOutside s.wbuf t.wbuf s.wlen w.toNat ∧
        t = { s with wbuf := t.wbuf, wlen := s.wlen + w.toNat, status := 0, info := 0 }) ∧
    (∃ t, exec .posenc s = .next t ∧
      holdsField t.wbuf s.wlen 28 s.posLon.toInt ∧ holdsField t.wbuf (s.wlen + 28) 27 s.posLat.toInt ∧
      sameOutside s.wbuf t.wbuf s.wlen 55 ∧
      t = { s with wbuf := t.wbuf, wlen := s.wlen + 55, status := 0, info := 0 }) ∧
    (fieldsFit s headerFields →
      ∃ t, exec .hdrenc s = .next t ∧ writesFields s t.wbuf s.wlen 0 headerFields ∧
        sameOutside s.wbuf t.wbuf s.wlen 38 ∧
        t = { s with wbuf := t.wbuf, wlen := s.wlen + 38, status := 0, info := 0 }) ∧
    ∀ r, selected s (reg s 0) r → entriesFit s r.entries →
      ∃ t, exec .tailenc s = .next t ∧ writesEntries s t.wbuf s.wlen r.entries ∧
        sameOutside s.wbuf t.wbuf s.wlen (tailbits r.entries) ∧
        t = { s with wbuf := t.wbuf, wlen := s.wlen + tailbits r.entries, status := 0, info := 0 }

/-- R119 (c), R95 (c): appending any list of fields and extracting them again, with the same widths and signedness, from
a reader holding the appended bits, returns the same values in order. Where the fields pass `WBUF_BITS`, that the appends
succeed is the model's choice of an unbounded buffer (log 6). -/
def Obligations.WriterReaderRoundTrip : Prop :=
  ∀ (fs : List Field) (s : State), (∀ f ∈ fs, f.fits s.cfg) → s.wfin = false →
    ∃ t, appendAll fs s = some t ∧ t.wlen = s.wlen + totalWidth fs ∧
      ∀ r : State, r.cfg = s.cfg → r.rpos + totalWidth fs ≤ r.rlen →
        (∀ k, k < totalWidth fs → some (r.rbufBit (r.rpos + k)) = Mem.get? t.wbuf (s.wlen + k)) →
        ∃ u, extractAll fs r = some (fs.map Field.value, u) ∧ u.rpos = r.rpos + totalWidth fs

/-! ## Position unit -/

/-- R131: POSDEC: longitude then latitude, sign-extended; all or nothing. -/
def Obligations.PosdecReadsPosition : Prop :=
  ∀ s : State,
    (s.rlen < s.rpos + 55 → exec .posdec s = .next { s with status := 1, info := 0 }) ∧
    (s.rpos + 55 ≤ s.rlen → ∃ t, exec .posdec s = .next t ∧
      t.posLon.toInt = twosComplement 28 (fieldValue s.rbufBit s.rpos 28) ∧
      t.posLat.toInt = twosComplement 27 (fieldValue s.rbufBit (s.rpos + 28) 27) ∧
      t = { s with posLon := t.posLon, posLat := t.posLat, rpos := s.rpos + 55, msgOk := false,
                   status := 0, info := 0 })

/-- R132: POSENC: the 28 and 27 bits of the position registers at `WLEN`, within the capacity. -/
def Obligations.PosencAppendsPosition : Prop :=
  ∀ s : State,
    (s.wfin = true → exec .posenc s = .next { s with status := 5, info := 0 }) ∧
    (s.wfin = false → s.wlen + 55 ≤ s.cfg.wbufBits → ∃ t, exec .posenc s = .next t ∧
      holdsField t.wbuf s.wlen 28 s.posLon.toInt ∧ holdsField t.wbuf (s.wlen + 28) 27 s.posLat.toInt ∧
      sameOutside s.wbuf t.wbuf s.wlen 55 ∧
      t = { s with wbuf := t.wbuf, wlen := s.wlen + 55, status := 0, info := 0 })

/-- R133, R178: POSAVL and POSV: 0 exactly when both raw fields equal their sentinels. -/
def Obligations.PositionUnavailableOnlyAtBothSentinels : Prop :=
  ∀ s : State, ∀ i ∈ [Instr.posavl, .posv], exec i s = .next { s with
    res := if s.posLon.toInt = 108600000 ∧ s.posLat.toInt = 54600000 then 0 else 1, status := 0, info := 0 }

/-- R134: POSSETR: both ranges tested before either register is written. -/
def Obligations.PossetrReplacesPosition : Prop :=
  ∀ s : State,
    ((s.opa < -134217728 ∨ 134217728 ≤ s.opa ∨ s.opb < -67108864 ∨ 67108864 ≤ s.opb) →
      exec .possetr s = .next { s with status := 4, info := 0 }) ∧
    (-134217728 ≤ s.opa → s.opa < 134217728 → -67108864 ≤ s.opb → s.opb < 67108864 →
      ∃ t, exec .possetr s = .next t ∧ t.posLon.toInt = s.opa ∧ t.posLat.toInt = s.opb ∧
        t = { s with posLon := t.posLon, posLat := t.posLat, msgOk := false, status := 0, info := 0 })

/-- R135, property P-DEG: POSSETD of the degrees of a raw pair, any pair of the registers' ranges, gives the pair, in every
configuration of this hardware. -/
def Obligations.PossetdInvertsDegrees : Prop :=
  ∀ (s : State) (lon : BitVec 28) (lat : BitVec 27), s.cfg.wf = true →
    s.dega = s.cfg.degrees lon.toInt → s.degb = s.cfg.degrees lat.toInt →
    exec .possetd s = .next { s with posLon := lon, posLat := lat, msgOk := false, status := 0, info := 0 }

/-- R135: POSSETD: the raw values are `DEG2RAW_LON(DEGA)` and `DEG2RAW_LAT(DEGB)`, whatever these open functions give; both
ranges are tested before either register is written, and a value out of range is a FieldOverflow that changes nothing
else. That it runs on non-finite degrees too is the model's choice (log 7). -/
def Obligations.PossetdReplacesOrRejects : Prop :=
  ∀ s : State, ∃ t, exec .possetd s = .next t ∧
    if -134217728 ≤ s.cfg.deg2rawLon s.dega ∧ s.cfg.deg2rawLon s.dega < 134217728 ∧
      -67108864 ≤ s.cfg.deg2rawLat s.degb ∧ s.cfg.deg2rawLat s.degb < 67108864
    then t.posLon.toInt = s.cfg.deg2rawLon s.dega ∧ t.posLat.toInt = s.cfg.deg2rawLat s.degb ∧
      t = { s with posLon := t.posLon, posLat := t.posLat, msgOk := false, status := 0, info := 0 }
    else t = { s with status := 4, info := 0 }

/-- R136: POSDEG: with the default `FDIV64` the binary64 quotients by 600000, rounded to nearest, the sentinels giving exactly
181 and 91; where a configuration supplies a quotient, that one (D14, log 20). In every configuration of this hardware no NaN
or infinity, and the same corner cases (R98). -/
def Obligations.PosdegRoundsToNearest : Prop :=
  ∀ s : State, ∃ t, exec .posdeg s = .next t ∧
    (s.cfg.fdivTable.lookup s.posLon.toInt = none →
      isRoundedTo t.deglon (s.posLon.toInt / 600000) ∧ (s.posLon.toInt = 0 → t.deglon = 0) ∧
        (s.posLon.toInt = 108600000 → valueOf t.deglon = 181)) ∧
    (s.cfg.fdivTable.lookup s.posLat.toInt = none →
      isRoundedTo t.deglat (s.posLat.toInt / 600000) ∧ (s.posLat.toInt = 0 → t.deglat = 0) ∧
        (s.posLat.toInt = 54600000 → valueOf t.deglat = 91)) ∧
    (∀ x, s.cfg.fdivTable.lookup s.posLon.toInt = some x → t.deglon = x) ∧
    (∀ x, s.cfg.fdivTable.lookup s.posLat.toInt = some x → t.deglat = x) ∧
    (s.cfg.wf = true → expOf t.deglon < 2047 ∧ expOf t.deglat < 2047 ∧
      (s.posLon.toInt = 0 → t.deglon = 0) ∧ (s.posLat.toInt = 0 → t.deglat = 0) ∧
      (s.posLon.toInt = 108600000 → valueOf t.deglon = 181) ∧ (s.posLat.toInt = 54600000 → valueOf t.deglat = 91)) ∧
    t = { s with deglon := t.deglon, deglat := t.deglat, status := 0, info := 0 }

/-- R137: any raw pair survives POSENC then POSDEC unchanged, bit for bit, the sentinels included. Where the 55 bits pass
`WBUF_BITS`, that POSENC completes is the model's choice of an unbounded buffer (log 6). -/
def Obligations.PositionRoundTrips : Prop :=
  ∀ s : State, s.wfin = false → ∃ t, exec .posenc s = .next t ∧
    ∀ r : State, r.rpos + 55 ≤ r.rlen →
      (∀ k, k < 55 → some (r.rbufBit (r.rpos + k)) = Mem.get? t.wbuf (s.wlen + k)) →
      ∃ u, exec .posdec r = .next u ∧ u.posLon = s.posLon ∧ u.posLat = s.posLat

/-- R67, R131: POSDEC is EXTS 28 then EXTS 27 as one command. -/
def Obligations.PosdecIsTwoSignedExtractions : Prop :=
  ∀ s : State, s.cfg.wf = true → s.rpos + 55 ≤ s.rlen → ∃ t1 t2 t, exec (.exts 28) s = .next t1 ∧ exec (.exts 27) t1 = .next t2 ∧
    exec .posdec s = .next t ∧ t.posLon.toInt = t1.res ∧ t.posLat.toInt = t2.res ∧ t.rpos = t2.rpos

/-! ## Layout unit -/

/-- R156: HDRDEC: the three header fields at the cursor; all or nothing. -/
def Obligations.HdrdecReadsHeader : Prop :=
  ∀ s : State,
    (s.rlen < s.rpos + 38 → exec .hdrdec s = .next { s with status := 1, info := 0 }) ∧
    (s.isConfigured → s.rpos + 38 ≤ s.rlen → ∃ t, exec .hdrdec s = .next t ∧ readsFields s t s.rpos headerFields ∧
      (∀ i, 3 ≤ i → t.fr[i]? = s.fr[i]?) ∧
      t = { s with fr := t.fr, rpos := s.rpos + 38, msgOk := false, status := 0, info := 0 })

/-- R157: HDRENC: the lock, the three ranges, then the 38 header bits at `WLEN`, within the capacity. -/
def Obligations.HdrencAppendsHeader : Prop :=
  ∀ s : State,
    (s.wfin = true → exec .hdrenc s = .next { s with status := 5, info := 0 }) ∧
    (s.wfin = false → ¬ fieldsFit s headerFields → exec .hdrenc s = .next { s with status := 4, info := 0 }) ∧
    (s.wfin = false → fieldsFit s headerFields → s.wlen + 38 ≤ s.cfg.wbufBits → ∃ t, exec .hdrenc s = .next t ∧
      writesFields s t.wbuf s.wlen 0 headerFields ∧ sameOutside s.wbuf t.wbuf s.wlen 38 ∧
      t = { s with wbuf := t.wbuf, wlen := s.wlen + 38, status := 0, info := 0 })

/-- R158: TAILDEC: the row `FR[0]` selects, the length, the bits that remain; then, for identifier 18, whose row every
configuration has (R152), the tail fields at their places from the cursor on. -/
def Obligations.TaildecReadsTail : Prop :=
  ∀ s : State,
    (unsupported s (reg s 0) →
      exec .taildec s = .next { s with status := 3, info := BitVec.ofInt 6 (reg s 0 % 64) }) ∧
    (s.cfg.rows = [] → reg s 0 ≠ 18 → unsupported s (reg s 0)) ∧
    (∀ r, selected s (reg s 0) r →
      (s.rlen ≠ r.explen → exec .taildec s = .next { s with status := 2, info := 0 }) ∧
      (s.rlen = r.explen → s.rlen < s.rpos + tailbits r.entries →
        exec .taildec s = .next { s with status := 1, info := 0 })) ∧
    (s.isConfigured → reg s 0 = 18 → s.rlen = 168 → s.rpos + 130 ≤ 168 → ∃ t, exec .taildec s = .next t ∧
      (∀ f ∈ tailFields, t.fr[f.1]? = some (fieldValue s.rbufBit (s.rpos + (f.2.1 - 38)) f.2.2 : Int)) ∧
      t.posLon.toInt = twosComplement 28 (fieldValue s.rbufBit (s.rpos + 19) 28) ∧
      t.posLat.toInt = twosComplement 27 (fieldValue s.rbufBit (s.rpos + 47) 27) ∧
      (∀ i, i < 3 ∨ 18 < i → t.fr[i]? = s.fr[i]?) ∧
      t = { s with fr := t.fr, posLon := t.posLon, posLat := t.posLat, rpos := s.rpos + 130, msgOk := false,
                   status := 0, info := 0 })

/-- R159: TAILENC: the lock, the row `FR[0]` selects, the ranges; then, for identifier 18, the 130 tail bits at `WLEN`, within
the capacity. -/
def Obligations.TailencAppendsTail : Prop :=
  ∀ s : State,
    (s.wfin = true → exec .tailenc s = .next { s with status := 5, info := 0 }) ∧
    (s.wfin = false → unsupported s (reg s 0) →
      exec .tailenc s = .next { s with status := 3, info := BitVec.ofInt 6 (reg s 0 % 64) }) ∧
    (∀ r, s.wfin = false → selected s (reg s 0) r → ¬ entriesFit s r.entries →
      exec .tailenc s = .next { s with status := 4, info := 0 }) ∧
    (s.wfin = false → reg s 0 = 18 → ¬ fieldsFit s tailFields →
      exec .tailenc s = .next { s with status := 4, info := 0 }) ∧
    (s.wfin = false → reg s 0 = 18 → fieldsFit s tailFields → s.wlen + 130 ≤ s.cfg.wbufBits →
      ∃ t, exec .tailenc s = .next t ∧ writesFields s t.wbuf s.wlen 38 tailFields ∧
        holdsField t.wbuf (s.wlen + 19) 28 s.posLon.toInt ∧ holdsField t.wbuf (s.wlen + 47) 27 s.posLat.toInt ∧
        sameOutside s.wbuf t.wbuf s.wlen 130 ∧
        t = { s with wbuf := t.wbuf, wlen := s.wlen + 130, status := 0, info := 0 })

/-- R175, R176, R177: the speed, course and heading predicates. -/
def Obligations.SpeedCourseHeadingPredicates : Prop :=
  ∀ s : State,
    exec .sogv s = .next { s with res := if reg s 4 < 1023 then 1 else 0, status := 0, info := 0 } ∧
    exec .cogv s = .next { s with res := if reg s 6 < 3600 then 1 else 0, status := 0, info := 0 } ∧
    exec .hdgv s = .next { s with res := if reg s 7 < 360 then 1 else 0, status := 0, info := 0 }

/-- R179: the utc-second status. -/
def Obligations.UtcSecondStatus : Prop :=
  ∀ s : State, ∃ t, exec .utcst s = .next t ∧ t = { s with res := t.res, status := 0, info := 0 } ∧
    (reg s 8 < 0 ∨ 63 < reg s 8 → t.res = 5) ∧
    (0 ≤ reg s 8 ∧ reg s 8 ≤ 59 → t.res = 0) ∧
    (60 ≤ reg s 8 ∧ reg s 8 ≤ 63 → t.res = reg s 8 - 59)

/-- R151, R152, R119: for the entries of any row that meets R73, reading a tail and writing it again reproduces its bits, and
writing fields that fit and reading them again restores the registers; and so, for any row a configuration has, do DECODE
and ENCODE with whole messages. -/
def Obligations.AnyRowRoundTrips : Prop :=
  (∀ (s : State) (p : Nat) (es : List Entry), s.isConfigured → entriesWf s.cfg es = true →
    (s.walkDec p es).walkEncBits es = s.readRbuf p (tailbits es) ∧ es.all (s.walkDec p es).entryFits = true) ∧
  (∀ (s r : State) (p : Nat) (es : List Entry), r.isConfigured → entriesWf r.cfg es = true →
    es.all s.entryFits = true → r.readRbuf p (tailbits es) = s.walkEncBits es →
      (∀ i, names es i → (r.walkDec p es).fr[i]? = some (reg s i)) ∧
      (.pos ∈ es → (r.walkDec p es).posLon = s.posLon ∧ (r.walkDec p es).posLat = s.posLat)) ∧
  (∀ (s : State) (r : Row), s.isConfigured → 38 ≤ s.rlen → selected s (fieldValue s.rbufBit 0 6) r → s.rlen = r.explen →
    ∃ t u, exec .decode s = .next t ∧ t.status = 0 ∧ exec .encode t = .next u ∧ u.status = 0 ∧ u.wlen = s.rlen ∧
      ∀ a, a < s.rlen → Mem.get? u.wbuf a = some (s.rbufBit a)) ∧
  ∀ (s t q : State) (r : Row), q.isConfigured → q.cfg = s.cfg → selected s (reg s 0) r → exec .encode s = .next t →
    t.status = 0 → q.rlen = t.wlen → (∀ a, a < t.wlen → some (q.rbufBit a) = Mem.get? t.wbuf a) →
    ∃ u, exec .decode q = .next u ∧ u.status = 0 ∧ (∀ i, i < 3 ∨ names r.entries i → u.fr[i]? = some (reg s i)) ∧
      (.pos ∈ r.entries → u.posLon = s.posLon ∧ u.posLat = s.posLat)

/-- R71: the binary form of a row that meets R73 and whose numbers are in the ranges of the form reads back as the row. -/
def Obligations.RowFormatRoundTrips : Prop :=
  ∀ (c : Config) (r : Row), c.wf = true → r.present = true → r.wf c = true → r.explen ≤ 2047 → r.entries.length ≤ 63 →
    (∀ i, names r.entries i → i < 32) →
    readRowWords c (rowHeaderWord r) (r.entries.map entryWord) = some r

/-- R151, R152: TAILDEC, TAILENC, DECODE and ENCODE execute any row a configuration has, entry after entry, exactly as row
18: every field at its place, and nothing else changed. -/
def Obligations.ConfiguredRowsAreExecuted : Prop :=
  ∀ (s : State) (r : Row), s.isConfigured →
    (selected s (reg s 0) r → s.rlen = r.explen → s.rpos + tailbits r.entries ≤ s.rlen →
      ∃ t, exec .taildec s = .next t ∧ readsEntries s t s.rpos r.entries ∧
        (∀ i, ¬ names r.entries i → t.fr[i]? = s.fr[i]?) ∧
        t = { s with fr := t.fr, posLon := t.posLon, posLat := t.posLat, rpos := s.rpos + tailbits r.entries,
                     msgOk := false, status := 0, info := 0 }) ∧
    (selected s (reg s 0) r → s.wfin = false → entriesFit s r.entries →
      s.wlen + tailbits r.entries ≤ s.cfg.wbufBits →
      ∃ t, exec .tailenc s = .next t ∧ writesEntries s t.wbuf s.wlen r.entries ∧
        sameOutside s.wbuf t.wbuf s.wlen (tailbits r.entries) ∧
        t = { s with wbuf := t.wbuf, wlen := s.wlen + tailbits r.entries, status := 0, info := 0 }) ∧
    (38 ≤ s.rlen → selected s (fieldValue s.rbufBit 0 6) r → s.rlen = r.explen →
      ∃ t, exec .decode s = .next t ∧ readsFields s t 0 headerFields ∧ readsEntries s t 38 r.entries ∧
        (∀ i, 3 ≤ i → ¬ names r.entries i → t.fr[i]? = s.fr[i]?) ∧
        t = { s with fr := t.fr, posLon := t.posLon, posLat := t.posLat, rpos := r.explen, msgOk := true,
                     status := 0, info := 0 }) ∧
    (selected s (reg s 0) r → fieldsFit s headerFields → entriesFit s r.entries →
      ∃ t, exec .encode s = .next t ∧ writesFields s t.wbuf 0 0 headerFields ∧ writesEntries s t.wbuf 38 r.entries ∧
        sameOutside s.wbuf t.wbuf 0 r.explen ∧
        holdsText s.cfg t.arm t.armlen (fun a => decide (a < r.explen) && t.wbufBit a) ∧
        sameOutside s.arm t.arm 0 t.armlen ∧
        t = { s with wbuf := t.wbuf, wlen := r.explen, arm := t.arm, armlen := (r.explen + 5) / 6,
                     fill := (6 - r.explen % 6) % 6, wfin := true, status := 0, info := 0 })

/-! ## Dispatch unit -/

/-- R203, R17: DECODE of 168 bits with identifier 18: every field of the header and of the type-18 layout at its payload
bits; the other registers as they were. -/
def Obligations.DecodeReadsType18Message : Prop :=
  ∀ s : State, s.isConfigured → s.rlen = 168 → fieldValue s.rbufBit 0 6 = 18 → ∃ t, exec .decode s = .next t ∧
    readsFields s t 0 headerFields ∧ readsFields s t 0 tailFields ∧ readsPosition s t 0 ∧
    (∀ i, 18 < i → t.fr[i]? = s.fr[i]?) ∧
    t = { s with fr := t.fr, posLon := t.posLon, posLat := t.posLat, rpos := 168, msgOk := true, status := 0, info := 0 }

/-- R204: DECODE's result for every declared length and identifier, for any rows and for the default rows; after a failure
there is no message, the cursor is new, and all but `FR` and the position is as before (what those hold is free:
log 4). -/
def Obligations.DecodeChecksInOrder : Prop :=
  ∀ s : State, ∃ t, exec .decode s = .next t ∧
    (s.rlen < 38 → t.status = 1 ∧ t.info = 0) ∧
    (38 ≤ s.rlen → unsupported s (fieldValue s.rbufBit 0 6) →
      t.status = 3 ∧ t.info.toNat = fieldValue s.rbufBit 0 6) ∧
    (∀ r, 38 ≤ s.rlen → selected s (fieldValue s.rbufBit 0 6) r →
      (s.rlen ≠ r.explen → t.status = 2 ∧ t.info = 0) ∧ (s.rlen = r.explen → t.status = 0 ∧ t.msgOk = true)) ∧
    (s.cfg.rows = [] → 38 ≤ s.rlen → fieldValue s.rbufBit 0 6 ≠ 18 → t.status = 3) ∧
    (38 ≤ s.rlen → fieldValue s.rbufBit 0 6 = 18 → (t.status = 0 ↔ s.rlen = 168)) ∧
    (t.status ≠ 0 → t = { s with status := t.status, info := t.info, rpos := 0, msgOk := false, fr := t.fr,
                                 posLon := t.posLon, posLat := t.posLat, draws := t.draws })

/-- R205: ENCODE of a type-18 message whose fields fit: a new writer with the 168 bits, finalized. -/
def Obligations.EncodeWritesType18Message : Prop :=
  ∀ s : State, reg s 0 = 18 → fieldsFit s headerFields → fieldsFit s tailFields →
    ∃ t, exec .encode s = .next t ∧
      writesFields s t.wbuf 0 0 headerFields ∧ writesFields s t.wbuf 0 0 tailFields ∧
      holdsField t.wbuf 57 28 s.posLon.toInt ∧ holdsField t.wbuf 85 27 s.posLat.toInt ∧ sameOutside s.wbuf t.wbuf 0 168 ∧
      holdsText s.cfg t.arm 28 t.wbufBit ∧
      sameOutside s.arm t.arm 0 28 ∧
      t = { s with wbuf := t.wbuf, wlen := 168, arm := t.arm, armlen := 28, fill := 0, wfin := true,
                   status := 0, info := 0 }

/-- R205, R230: what ENCODE rejects, in order, nothing else changed, for any rows and for the default rows. -/
def Obligations.EncodeRejectsInOrder : Prop :=
  ∀ s : State,
    (reg s 0 < 0 ∨ 63 < reg s 0 → exec .encode s = .next { s with status := 4, info := 0 }) ∧
    (0 ≤ reg s 0 → reg s 0 ≤ 63 → unsupported s (reg s 0) →
      exec .encode s = .next { s with status := 3, info := BitVec.ofInt 6 (reg s 0) }) ∧
    (s.cfg.rows = [] → reg s 0 ≠ 18 → unsupported s (reg s 0)) ∧
    (∀ r, selected s (reg s 0) r → ¬ (fieldsFit s headerFields ∧ entriesFit s r.entries) →
      exec .encode s = .next { s with status := 4, info := 0 }) ∧
    (reg s 0 = 18 → ¬ (fieldsFit s headerFields ∧ fieldsFit s tailFields) →
      exec .encode s = .next { s with status := 4, info := 0 })

/-- R182: encode of decode is the payload, for every 168-bit sequence whose first six bits are 18, the text and the fill
count included; and decode of encode restores the registers, for every message ENCODE accepts. -/
def Obligations.Type18RoundTrips : Prop :=
  (∀ s : State, s.isConfigured → s.rlen = 168 → fieldValue s.rbufBit 0 6 = 18 → ∃ t u, exec .decode s = .next t ∧ t.status = 0 ∧
    exec .encode t = .next u ∧ u.status = 0 ∧ u.wlen = 168 ∧ u.fill = 0 ∧ u.armlen = 28 ∧
    (∀ a, a < 168 → Mem.get? u.wbuf a = some (s.rbufBit a)) ∧
    holdsText s.cfg u.arm 28 s.rbufBit) ∧
  ∀ s t r : State, r.isConfigured → reg s 0 = 18 → exec .encode s = .next t → t.status = 0 → r.rlen = 168 →
    (∀ a, a < 168 → some (r.rbufBit a) = Mem.get? t.wbuf a) →
    ∃ u, exec .decode r = .next u ∧ u.status = 0 ∧ (∀ i, i ≤ 18 → u.fr[i]? = some (reg s i)) ∧
      u.posLon = s.posLon ∧ u.posLat = s.posLat

/-- R203, R151: a DECODE that succeeds is HDRDEC then TAILDEC from a new cursor, but for `MSG_OK`, for any row a
configuration has. -/
def Obligations.DecodeIsHeaderThenTail : Prop :=
  ∀ (s : State) (r : Row), s.isConfigured → s.rpos = 0 → selected s (fieldValue s.rbufBit 0 6) r → s.rlen = r.explen →
    ∃ h t u, exec .hdrdec s = .next h ∧ exec .taildec h = .next t ∧ exec .decode s = .next u ∧ u.status = 0 ∧
      u = { t with msgOk := true }

/-- R205, R151: an ENCODE that succeeds is WNEW, HDRENC, TAILENC, FIN. -/
def Obligations.EncodeIsHeaderThenTailThenFin : Prop :=
  ∀ s u : State, exec .encode s = .next u → u.status = 0 →
    ∃ n h t f, exec .wnew s = .next n ∧ exec .hdrenc n = .next h ∧ exec .tailenc h = .next t ∧ exec .fin t = .next f ∧
      f.wlen = u.wlen ∧ f.wfin = u.wfin ∧ f.armlen = u.armlen ∧ f.fill = u.fill ∧ f.status = 0 ∧
      (∀ a, Mem.get? f.wbuf a = Mem.get? u.wbuf a) ∧ ∀ a, Mem.get? f.arm a = Mem.get? u.arm a

/-- R206: DECODE depends only on the bound sequence, and ENCODE only on the message registers, besides the configuration. -/
def Obligations.MessagesAreIndependent : Prop :=
  (∀ s1 s2 : State, s1.isConfigured → s2.isConfigured → s1.cfg = s2.cfg → s1.rlen = s2.rlen →
    (∀ a, a < s1.rlen → s1.rbufBit a = s2.rbufBit a) →
    ∃ t1 t2, exec .decode s1 = .next t1 ∧ exec .decode s2 = .next t2 ∧ t1.status = t2.status ∧ t1.info = t2.info ∧
      t1.msgOk = t2.msgOk ∧ t1.rpos = t2.rpos ∧
      ∀ r, t1.status = 0 → selected s1 (fieldValue s1.rbufBit 0 6) r →
        (∀ i, i < 3 ∨ names r.entries i → t1.fr[i]? = t2.fr[i]?) ∧
        (.pos ∈ r.entries → t1.posLon = t2.posLon ∧ t1.posLat = t2.posLat)) ∧
  ∀ s1 s2 : State, s1.cfg = s2.cfg → s1.fr = s2.fr → s1.posLon = s2.posLon → s1.posLat = s2.posLat →
    ∃ t1 t2, exec .encode s1 = .next t1 ∧ exec .encode s2 = .next t2 ∧ t1.status = t2.status ∧ t1.info = t2.info ∧
      (t1.status = 0 → t1.wlen = t2.wlen ∧ t1.armlen = t2.armlen ∧ t1.fill = t2.fill ∧
        (∀ a, a < t1.wlen → Mem.get? t1.wbuf a = Mem.get? t2.wbuf a) ∧
        ∀ i, i < t1.armlen → Mem.get? t1.arm i = Mem.get? t2.arm i)

/-! ## Rules about every command -/

/-- R224: a failing command changes nothing but `STATUS` and `INFO`; a failing DECODE also leaves `RPOS = 0`, `MSG_OK = 0`
and the message registers with no value of the spec's (free values: log 4). -/
def Obligations.FailuresArePrecise : Prop :=
  ∀ (i : Instr) (s t : State), exec i s = .next t → t.status ≠ 0 →
    (i ≠ .decode → t = { s with status := t.status, info := t.info }) ∧
    (i = .decode → t = { s with status := t.status, info := t.info, rpos := 0, msgOk := false, fr := t.fr,
                                posLon := t.posLon, posLat := t.posLat, draws := t.draws })

/-- R221: which commands raise which failure, what `INFO` records, and the commands that never fail. -/
def Obligations.FailureKindsByCommand : Prop :=
  ∀ (i : Instr) (s t : State), exec i s = .next t → i.wf s.cfg = true →
    (t.status = 1 → (∃ w, i = .extu w) ∨ (∃ w, i = .exts w) ∨ i ∈ [Instr.posdec, .hdrdec, .taildec, .decode]) ∧
    (t.status = 2 → i ∈ [Instr.taildec, .decode]) ∧
    (t.status = 3 → i ∈ [Instr.taildec, .tailenc, .decode, .encode]) ∧
    (t.status = 4 → (∃ w, i = .appu w) ∨ (∃ w, i = .apps w) ∨
      i ∈ [Instr.possetr, .possetd, .hdrenc, .tailenc, .encode]) ∧
    (t.status = 5 → (∃ w, i = .appu w) ∨ (∃ w, i = .apps w) ∨ i ∈ [Instr.posenc, .hdrenc, .tailenc]) ∧
    (t.status = 6 → i = .rbind) ∧ t.status.toNat ≤ 6 ∧ (t.status ≠ 3 → t.info = 0) ∧
    (i ∈ [Instr.wnew, .fin, .posavl, .posdeg, .sogv, .cogv, .hdgv, .posv, .utcst] → t.status = 0)

/-- R21: who sets and clears `WFIN` and `MSG_OK`, and that no command reads `MSG_OK`. -/
def Obligations.StoredFlagsFollowTheRule : Prop :=
  (∀ (i : Instr) (s t : State), exec i s = .next t →
    (t.wfin = if i = .wnew then false else if i ∈ [Instr.fin, .encode] ∧ t.status = 0 then true else s.wfin) ∧
    (t.msgOk = if i = .decode then decide (t.status = 0)
      else if i ∈ [Instr.hdrdec, .taildec, .posdec, .possetr, .possetd] ∧ t.status = 0 then false else s.msgOk)) ∧
  (∀ (i : Nat) (v : Operand) (s t : State), perform (.writeFr i v) s = .next t → t.msgOk = false ∧ t.wfin = s.wfin) ∧
  (∀ s t : State, perform .reset s = .next t → t.msgOk = false ∧ t.wfin = false) ∧
  ∀ (i : Instr) (s t : State) (b : Bool), exec i s = .next t →
    ∃ b', exec i { s with msgOk := b } = .next { t with msgOk := b' }

/-- R19, R20, R23, R27: each piece of state is written only by the commands the access table names, and the configuration by
nothing the host can do. -/
def Obligations.OnlyNamedCommandsWrite : Prop :=
  (∀ (a : HostAction) (s t : State), perform a s = .next t → t.cfg = s.cfg) ∧
  ∀ (i : Instr) (s t : State), exec i s = .next t →
    (t.opa = s.opa ∧ t.opb = s.opb ∧ t.dega = s.dega ∧ t.degb = s.degb ∧ t.rbuf = s.rbuf ∧ t.pending = s.pending) ∧
    (t.rlen ≠ s.rlen → i = .rbind) ∧
    (t.rpos ≠ s.rpos → (∃ w, i = .extu w) ∨ (∃ w, i = .exts w) ∨
      i ∈ [Instr.rbind, .posdec, .hdrdec, .taildec, .decode]) ∧
    (t.wbuf ≠ s.wbuf → (∃ w, i = .appu w) ∨ (∃ w, i = .apps w) ∨ i ∈ [Instr.posenc, .hdrenc, .tailenc, .encode]) ∧
    (t.wlen ≠ s.wlen → (∃ w, i = .appu w) ∨ (∃ w, i = .apps w) ∨
      i ∈ [Instr.wnew, .posenc, .hdrenc, .tailenc, .encode]) ∧
    (t.wfin ≠ s.wfin ∨ t.armlen ≠ s.armlen ∨ t.fill ≠ s.fill → i ∈ [Instr.wnew, .fin, .encode]) ∧
    (t.arm ≠ s.arm → i ∈ [Instr.fin, .encode]) ∧
    (t.fr ≠ s.fr → i ∈ [Instr.hdrdec, .taildec, .decode]) ∧
    (t.posLon ≠ s.posLon ∨ t.posLat ≠ s.posLat → i ∈ [Instr.posdec, .taildec, .decode, .possetr, .possetd]) ∧
    (t.res ≠ s.res → (∃ w, i = .extu w) ∨ (∃ w, i = .exts w) ∨
      i ∈ [Instr.posavl, .sogv, .cogv, .hdgv, .posv, .utcst]) ∧
    (t.deglon ≠ s.deglon ∨ t.deglat ≠ s.deglat → i = .posdeg)

/-- R26, R6: a step of one instance leaves every other instance as it was, and does to its own what the instance alone
does; and a configuration's `N_INST` instances all start from reset with that configuration. -/
def Obligations.InstancesDoNotInterfere : Prop :=
  (∀ (sys : List State) (k : Fin sys.length),
    (∀ t, step sys[k] = .next t → ∃ sys', stepInstance sys k = .next sys' ∧ sys'[k.val]? = some t ∧
      ∀ j, j ≠ k.val → sys'[j]? = sys[j]?) ∧
    (∀ r, step sys[k] = .fault r → stepInstance sys k = .fault r)) ∧
  ∀ c : Config, c.wf = true → ∃ sys, instancesReset c = some sys ∧ sys.length = c.nInst ∧
    ∀ s ∈ sys, s.cfg = c ∧ isResetState s

/-! ## The armor alphabet -/

/-- R118, whatever table is configured: it is injective on the 64 groups and printable; so two writers with one configuration
whose FIN gives the same text and the same fill count held the same bits. -/
def Obligations.ArmoredTextDeterminesBits : Prop :=
  (∀ c : Config, c.wf = true → ∀ g h, g < 64 → h < 64 →
    (c.armorChar g = c.armorChar h → g = h) ∧ 32 ≤ (c.armorChar g).toNat ∧ (c.armorChar g).toNat ≤ 126) ∧
  ∀ s1 s2 t1 t2 : State, s1.cfg.wf = true → s1.cfg = s2.cfg → s1.wfin = false → s2.wfin = false →
    exec .fin s1 = .next t1 → exec .fin s2 = .next t2 → t1.armlen = t2.armlen → t1.fill = t2.fill →
    (∀ i, i < t1.armlen → Mem.get? t1.arm i = Mem.get? t2.arm i) →
    s1.wlen = s2.wlen ∧ ∀ a, a < s1.wlen → s1.wbufBit a = s2.wbufBit a
end

