-- ==== Sys2Proof/Laws/Double64.lean ====
section
/-! SUPPORT. The binary64 arithmetic of the position unit: what `FDIV64` computes, and that the degrees of a raw value
name it (R135, R136, D14, D15). -/

namespace Sys2Proof.Machine

theorem two_zpow_eq (k : ℤ) : (2 : ℚ) ^ k = 2 ^ k.toNat / 2 ^ (-k).toNat := by
  rcases le_total 0 k with h | h
  · lift k to ℕ using h
    simp
  · obtain ⟨n, rfl⟩ : ∃ n : ℕ, k = -n := ⟨(-k).toNat, by omega⟩
    simp

/-- The exponent of a quotient: `2^e <= n/d < 2^(e+1)`. -/
theorem quotientExponent_spec (n d : Nat) (hn : 0 < n) (hd : 0 < d) :
    (2 : ℚ) ^ quotientExponent n d ≤ n / d ∧ (n / d : ℚ) < 2 ^ (quotientExponent n d + 1) := by
  have hn1 : (2 : ℚ) ^ n.log2 ≤ n := by exact_mod_cast Nat.log2_self_le hn.ne'
  have hn2 : (n : ℚ) < 2 ^ (n.log2 + 1) := by exact_mod_cast Nat.lt_log2_self
  have hd1 : (2 : ℚ) ^ d.log2 ≤ d := by exact_mod_cast Nat.log2_self_le hd.ne'
  have hd2 : (d : ℚ) < 2 ^ (d.log2 + 1) := by exact_mod_cast Nat.lt_log2_self
  have hd0 : (0 : ℚ) < d := by exact_mod_cast hd
  have hn0 : (0 : ℚ) < n := by exact_mod_cast hn
  have hp (k : ℤ) : (2 : ℚ) ^ (k + 1) = 2 * 2 ^ k := by rw [zpow_add₀ (by norm_num)]; ring
  have hab : (2 : ℚ) ^ ((n.log2 : ℤ) - d.log2) = 2 ^ n.log2 / 2 ^ d.log2 := by
    rw [zpow_sub₀ (by norm_num)]; simp
  have key : n * 2 ^ (-((n.log2 : ℤ) - d.log2)).toNat < d * 2 ^ ((n.log2 : ℤ) - d.log2).toNat ↔
      (n / d : ℚ) < 2 ^ ((n.log2 : ℤ) - d.log2) := by
    rw [two_zpow_eq, div_lt_div_iff₀ hd0 (by positivity)]
    rw [mul_comm _ (d : ℚ)]
    exact_mod_cast Iff.rfl
  unfold quotientExponent
  simp only [key]
  have up : (n / d : ℚ) < 2 ^ ((n.log2 : ℤ) - d.log2 + 1) := by
    rw [hp, hab, div_lt_iff₀ hd0]
    have : (2 : ℚ) * (2 ^ n.log2 / 2 ^ d.log2) * d = 2 * 2 ^ n.log2 * (d / 2 ^ d.log2) := by ring
    rw [this]
    have h1 : (1 : ℚ) ≤ d / 2 ^ d.log2 := by rwa [one_le_div (by positivity)]
    rw [pow_succ] at hn2
    nlinarith [show (0 : ℚ) < 2 ^ n.log2 by positivity]
  have lo : (2 : ℚ) ^ ((n.log2 : ℤ) - d.log2) < 2 * (n / d) := by
    rw [hab, div_lt_iff₀ (by positivity)]
    have : (2 : ℚ) * (n / d) * 2 ^ d.log2 = n * (2 ^ (d.log2 + 1) / d) := by rw [pow_succ]; ring
    rw [this]
    have h1 : (1 : ℚ) < 2 ^ (d.log2 + 1) / d := by rwa [one_lt_div hd0]
    nlinarith
  split
  · rename_i h
    constructor
    · have := hp ((n.log2 : ℤ) - d.log2 - 1)
      rw [sub_add_cancel] at this
      linarith
    · rwa [sub_add_cancel]
  · rename_i h
    exact ⟨not_lt.mp h, up⟩

/-- Rounding to the nearest integer, ties to even. -/
theorem divNearestEven_spec (n d : Nat) (hd : 0 < d) :
    |(divNearestEven n d : ℚ) - n / d| ≤ 1 / 2 ∧
      (|(divNearestEven n d : ℚ) - n / d| = 1 / 2 → divNearestEven n d % 2 = 0) := by
  have hd0 : (0 : ℚ) < d := by exact_mod_cast hd
  have hm : (n / d : ℚ) = (n / d : ℕ) + ((n % d : ℕ) : ℚ) / d := by
    field_simp
    exact_mod_cast (Nat.div_add_mod n d).symm
  have hr : ((n % d : ℕ) : ℚ) / d < 1 := by
    rw [div_lt_one hd0]
    exact_mod_cast Nat.mod_lt n hd
  have hr0 : 0 ≤ ((n % d : ℕ) : ℚ) / d := by positivity
  have h1 : d < 2 * (n % d) ↔ (1 : ℚ) / 2 < ((n % d : ℕ) : ℚ) / d := by
    rw [div_lt_div_iff₀ (by norm_num) hd0]
    constructor <;> intro h
    · have : (d : ℚ) < 2 * (n % d : ℕ) := by exact_mod_cast h
      linarith
    · have : (d : ℚ) < 2 * (n % d : ℕ) := by linarith
      exact_mod_cast this
  have h2 : 2 * (n % d) = d ↔ ((n % d : ℕ) : ℚ) / d = 1 / 2 := by
    rw [div_eq_div_iff hd0.ne' (by norm_num)]
    constructor <;> intro h
    · have : (2 : ℚ) * (n % d : ℕ) = d := by exact_mod_cast h
      linarith
    · have : (2 : ℚ) * (n % d : ℕ) = d := by linarith
      exact_mod_cast this
  rw [hm]
  unfold divNearestEven
  simp only [h1, h2, Bool.or_eq_true, Bool.and_eq_true, decide_eq_true_eq]
  generalize ((n % d : ℕ) : ℚ) / d = x at *
  generalize n / d = q at *
  split
  · rename_i h
    have e : ((q + 1 : ℕ) : ℚ) - (q + x) = 1 - x := by push_cast; ring
    rw [e, abs_of_pos (by linarith)]
    constructor
    · rcases h with h | ⟨h, _⟩ <;> linarith
    · intro he
      rcases h with h | ⟨_, h⟩
      · linarith
      · omega
  · rename_i h
    have e : (q : ℚ) - (q + x) = -x := by ring
    rw [e, abs_neg, abs_of_nonneg hr0]
    push Not at h
    exact ⟨h.1, fun he => by have := h.2 he; omega⟩

/-- The rounded quotient: a significand `m` of 53 bits (or `2^53`) at the exponent `e`. -/
theorem quotientBits_spec (n d : Nat) (hn : 0 < n) (hd : 0 < d) :
    ∃ (e : ℤ) (m : ℕ), quotientBits n d = (e + 1023).toNat * 2 ^ 52 + (m - 2 ^ 52) ∧
      (2 : ℚ) ^ e ≤ n / d ∧ (n / d : ℚ) < 2 ^ (e + 1) ∧ 2 ^ 52 ≤ m ∧ m ≤ 2 ^ 53 ∧
      |(m : ℚ) * 2 ^ (e - 52) - n / d| ≤ 2 ^ (e - 53) ∧
      (|(m : ℚ) * 2 ^ (e - 52) - n / d| = 2 ^ (e - 53) → m % 2 = 0) := by
  obtain ⟨he1, he2⟩ := quotientExponent_spec n d hn hd
  set e := quotientExponent n d with he
  have hd0 : (0 : ℚ) < d := by exact_mod_cast hd
  obtain ⟨r1, r2⟩ := divNearestEven_spec (n * 2 ^ (52 - e).toNat) (d * 2 ^ (e - 52).toNat) (by positivity)
  refine ⟨e, divNearestEven (n * 2 ^ (52 - e).toNat) (d * 2 ^ (e - 52).toNat), rfl, he1, he2, ?_⟩
  set m := divNearestEven (n * 2 ^ (52 - e).toNat) (d * 2 ^ (e - 52).toNat) with hmdef
  have hq : (((n * 2 ^ (52 - e).toNat : ℕ) : ℚ) / ((d * 2 ^ (e - 52).toNat : ℕ) : ℚ)) = n / d * 2 ^ (52 - e) := by
    rw [two_zpow_eq (52 - e), neg_sub]
    push_cast
    field_simp
  rw [hq] at r1 r2
  have hpos : (0 : ℚ) < 2 ^ (e - 52) := by positivity
  have hinv : (2 : ℚ) ^ (52 - e) * 2 ^ (e - 52) = 1 := by rw [← zpow_add₀ (by norm_num)]; simp
  have habs : |(m : ℚ) * 2 ^ (e - 52) - n / d| = |(m : ℚ) - n / d * 2 ^ (52 - e)| * 2 ^ (e - 52) := by
    rw [← abs_of_pos hpos, ← abs_mul, abs_of_pos hpos, sub_mul, mul_assoc (n / d : ℚ), hinv, mul_one]
  have hhalf : (2 : ℚ) ^ (e - 53) = 1 / 2 * 2 ^ (e - 52) := by
    rw [show e - 52 = (e - 53) + 1 by ring, zpow_add₀ (by norm_num)]; ring
  have hlo : (2 : ℚ) ^ 52 ≤ n / d * 2 ^ (52 - e) := by
    have : (2 : ℚ) ^ (52 : ℕ) = 2 ^ e * 2 ^ (52 - e) := by rw [← zpow_add₀ (by norm_num)]; norm_num
    rw [this]; gcongr
  have hhi : n / d * (2 : ℚ) ^ (52 - e) < 2 ^ 53 := by
    have : (2 : ℚ) ^ (53 : ℕ) = 2 ^ (e + 1) * 2 ^ (52 - e) := by
      rw [← zpow_add₀ (by norm_num), show e + 1 + (52 - e) = 53 by ring]
      norm_num
    rw [this]; gcongr
  have r1' := abs_le.mp r1
  refine ⟨?_, ?_, ?_, ?_⟩
  · by_contra h
    have : (m : ℚ) ≤ 2 ^ 52 - 1 := by
      have : m + 1 ≤ 2 ^ 52 := by omega
      have : ((m + 1 : ℕ) : ℚ) ≤ 2 ^ 52 := by exact_mod_cast this
      push_cast at this; linarith
    linarith
  · by_contra h
    have : (2 ^ 53 + 1 : ℚ) ≤ m := by
      have : 2 ^ 53 + 1 ≤ m := by omega
      exact_mod_cast this
    linarith
  · rw [habs, hhalf]; gcongr
  · intro h
    rw [habs, hhalf] at h
    exact r2 (mul_right_cancel₀ hpos.ne' h)

/-- The fields of the binary64 word of a rounded quotient: exponent, fraction, and the magnitude they stand for. -/
theorem double_fields (g : Bool) (e : ℤ) (m : ℕ) (he : -1022 ≤ e) (he' : e ≤ 1000) (hm : 2 ^ 52 ≤ m)
    (hm' : m ≤ 2 ^ 53) (x : Double) (hx : x = BitVec.ofNat 64 ((if g then 2 ^ 63 else 0) + ((e + 1023).toNat * 2 ^ 52 + (m - 2 ^ 52)))) :
    x.msb = g ∧ Double.expField x = (if m = 2 ^ 53 then (e + 1024).toNat else (e + 1023).toNat) ∧
      Double.fracField x = (if m = 2 ^ 53 then 0 else m - 2 ^ 52) ∧
      Double.significand x * 2 ^ Double.scale x = m * 2 ^ (e + 1022).toNat := by
  have hn : x.toNat = (if g then 2 ^ 63 else 0) + ((e + 1023).toNat * 2 ^ 52 + (m - 2 ^ 52)) := by
    rw [hx, BitVec.toNat_ofNat, Nat.mod_eq_of_lt]
    cases g <;> (simp; omega)
  have hmsb : x.msb = g := by
    rw [BitVec.msb_eq_decide, hn]
    cases g <;> simp <;> omega
  have hE : Double.expField x = (if m = 2 ^ 53 then (e + 1024).toNat else (e + 1023).toNat) := by
    unfold Double.expField
    rw [BitVec.extractLsb'_toNat, hn, Nat.shiftRight_eq_div_pow]
    cases g <;> simp <;> split <;> omega
  have hF : Double.fracField x = (if m = 2 ^ 53 then 0 else m - 2 ^ 52) := by
    unfold Double.fracField
    rw [BitVec.extractLsb'_toNat, hn, Nat.shiftRight_eq_div_pow]
    cases g <;> simp <;> split <;> omega
  refine ⟨hmsb, hE, hF, ?_⟩
  unfold Double.significand Double.scale
  rw [hE, hF]
  by_cases h : m = 2 ^ 53
  · simp only [h, if_true]
    rw [if_neg (by omega)]
    have : (e + 1024).toNat - 1 = (e + 1022).toNat + 1 := by omega
    rw [this, pow_succ]
    ring
  · simp only [h, if_false]
    rw [if_neg (by omega)]
    have h1 : (e + 1023).toNat - 1 = (e + 1022).toNat := by omega
    have h2 : 2 ^ 52 + (m - 2 ^ 52) = m := by omega
    rw [h1, h2]

/-- `FDIV64` of a nonzero integer: sign, and a rounded magnitude (R136, D14). -/
theorem fdiv64_spec (r : ℤ) (d : ℕ) (hr : r ≠ 0) (hd : 0 < d) :
    ∃ (e : ℤ) (m : ℕ), fdiv64 r d = BitVec.ofNat 64 ((if decide (r < 0) then 2 ^ 63 else 0) +
        ((e + 1023).toNat * 2 ^ 52 + (m - 2 ^ 52))) ∧
      (2 : ℚ) ^ e ≤ r.natAbs / d ∧ (r.natAbs / d : ℚ) < 2 ^ (e + 1) ∧ 2 ^ 52 ≤ m ∧ m ≤ 2 ^ 53 ∧
      |(m : ℚ) * 2 ^ (e - 52) - r.natAbs / d| ≤ 2 ^ (e - 53) ∧
      (|(m : ℚ) * 2 ^ (e - 52) - r.natAbs / d| = 2 ^ (e - 53) → m % 2 = 0) := by
  obtain ⟨e, m, hb, h⟩ := quotientBits_spec r.natAbs d (by omega) hd
  refine ⟨e, m, ?_, h⟩
  unfold fdiv64
  rw [if_neg hr, hb]
  simp

/-- The exponent of the degrees of a raw value of the position registers. -/
theorem degrees_exponent (n : ℕ) (e : ℤ) (hn : 0 < n) (hn' : n ≤ 2 ^ 27) (h1 : (2 : ℚ) ^ e ≤ n / (degDiv : ℕ))
    (h2 : (n / (degDiv : ℕ) : ℚ) < 2 ^ (e + 1)) : -20 ≤ e ∧ e ≤ 7 := by
  have hn0 : (1 : ℚ) ≤ n := by exact_mod_cast hn
  have hn1 : (n : ℚ) ≤ 2 ^ 27 := by exact_mod_cast hn'
  norm_num [degDiv] at h1 h2
  constructor
  · by_contra h
    have : (2 : ℚ) ^ (e + 1) ≤ 2 ^ (-20 : ℤ) := zpow_le_zpow_right₀ (by norm_num) (by omega)
    norm_num at this
    linarith
  · by_contra h
    have : (2 : ℚ) ^ (8 : ℤ) ≤ 2 ^ e := zpow_le_zpow_right₀ (by norm_num) (by omega)
    norm_num at this
    linarith

/-- The degrees of a raw value are a finite number (R98). -/
theorem isFinite_fdiv64 (r : ℤ) (h : r.natAbs ≤ 2 ^ 27) : Double.isFinite (fdiv64 r degDiv) = true := by
  by_cases hr : r = 0
  · subst hr
    rfl
  · obtain ⟨e, m, hx, h1, h2, hm, hm', -, -⟩ := fdiv64_spec r degDiv hr (by norm_num)
    obtain ⟨he, he'⟩ := degrees_exponent r.natAbs e (by omega) h h1 h2
    obtain ⟨-, hE, -, -⟩ := double_fields _ e m (by omega) (by omega) hm hm' _ hx
    rw [Double.isFinite, hE, decide_eq_true_eq]
    split <;> omega

/-- The degrees of a raw value name that raw value and no other (R135, property P-DEG). -/
theorem nearestRaw_fdiv64 (r : ℤ) (h : r.natAbs ≤ 2 ^ 27) : nearestRaw (fdiv64 r degDiv) = r := by
  by_cases hr : r = 0
  · subst hr
    decide +kernel
  · obtain ⟨e, m, hx, h1, h2, hm, hm', habs, -⟩ := fdiv64_spec r degDiv hr (by norm_num)
    obtain ⟨he, he'⟩ := degrees_exponent r.natAbs e (by omega) h h1 h2
    obtain ⟨hmsb, -, -, hv⟩ := double_fields _ e m (by omega) (by omega) hm hm' _ hx
    have hq : 2 * Double.significand (fdiv64 r degDiv) * degDiv * 2 ^ Double.scale (fdiv64 r degDiv) =
        2 * degDiv * (m * 2 ^ (e + 1022).toNat) := by rw [← hv]; ring
    have key : (2 * degDiv * (m * 2 ^ (e + 1022).toNat) + 2 ^ 1074) / 2 ^ 1075 = r.natAbs := by
      have hk : ((2 : ℚ) ^ (e + 1022).toNat) = 2 ^ (e - 52) * 2 ^ 1074 := by
        rw [← zpow_natCast (2 : ℚ) (e + 1022).toNat, ← zpow_natCast (2 : ℚ) 1074, ← zpow_add₀ two_ne_zero]
        congr 1
        push_cast
        omega
      have hs : (2 : ℚ) ^ (e - 53) ≤ 2 ^ (-46 : ℤ) := zpow_le_zpow_right₀ (by norm_num) (by omega)
      have hb := abs_le.mp (habs.trans hs)
      have hd : ((degDiv : ℕ) : ℚ) = 600000 := by norm_num
      rw [hd] at hb
      have h46 : (2 : ℚ) ^ (-46 : ℤ) = 1 / 2 ^ 46 := by norm_num
      rw [h46] at hb
      have hp : (2 : ℚ) ^ 1075 = 2 * 2 ^ 1074 := by rw [pow_succ]; ring
      have hpos : (0 : ℚ) < 2 ^ 1074 := by positivity
      have b1 : (r.natAbs : ℚ) - 1 / 2 ≤ 600000 * (m * 2 ^ (e - 52)) := by linarith [hb.1]
      have b2 : 600000 * ((m : ℚ) * 2 ^ (e - 52)) < (r.natAbs : ℚ) + 1 / 2 := by linarith [hb.2]
      have hz : (((2 : ℕ) ^ (e + 1022).toNat : ℕ) : ℚ) = 2 ^ (e - 52) * ((2 ^ 1074 : ℕ) : ℚ) := by
        push_cast
        exact hk
      rw [show (2 : ℕ) ^ 1075 = 2 * 2 ^ 1074 from pow_succ' 2 1074]
      have hP : 0 < (2 : ℕ) ^ 1074 := by positivity
      generalize (2 : ℕ) ^ 1074 = P at hz hP ⊢
      generalize (2 : ℕ) ^ (e + 1022).toNat = z at hz ⊢
      have hP' : (0 : ℚ) < P := by exact_mod_cast hP
      have hN : ((2 * degDiv * (m * z) + P : ℕ) : ℚ) = (2 * (600000 * (m * 2 ^ (e - 52))) + 1) * P := by
        push_cast
        rw [hz]
        ring
      apply Nat.div_eq_of_lt_le
      · have : ((r.natAbs * (2 * P) : ℕ) : ℚ) ≤ ((2 * degDiv * (m * z) + P : ℕ) : ℚ) := by
          rw [hN]
          push_cast
          nlinarith
        exact_mod_cast this
      · have : ((2 * degDiv * (m * z) + P : ℕ) : ℚ) < (((r.natAbs + 1) * (2 * P) : ℕ) : ℚ) := by
          rw [hN]
          push_cast
          nlinarith
        exact_mod_cast this
    unfold nearestRaw
    simp only [hq, key, hmsb]
    by_cases hneg : r < 0
    · rw [decide_eq_true hneg, if_pos rfl]
      omega
    · rw [decide_eq_false hneg, if_neg (by simp)]
      omega
end Sys2Proof.Machine
end

