-- ==== Sys2Proof/Laws/Operands.lean ====
section
/-! SUPPORT. The arithmetic of fields: `beUint` and `beBits` are inverse, `sext` and `tc` are inverse (R95, R119). -/

namespace Sys2Proof.Machine

@[simp] theorem beUint_nil : beUint [] = 0 := rfl

theorem beUint_cons (b : Bool) (bs : Bits) : beUint (b :: bs) = b.toNat * 2 ^ bs.length + beUint bs := rfl

@[simp] theorem beBits_zero (u : Nat) : beBits u 0 = [] := rfl

theorem beBits_succ (u w : Nat) : beBits u (w + 1) = u.testBit w :: beBits u w := rfl

@[simp] theorem beBits_length (u w : Nat) : (beBits u w).length = w := by
  induction w with
  | zero => rfl
  | succ w ih => simp [beBits_succ, ih]

/-- `seq[k] = u[w-1-k]` (R8). -/
theorem beBits_getElem? (u w k : Nat) (h : k < w) : (beBits u w)[k]? = some (u.testBit (w - 1 - k)) := by
  induction w generalizing k with
  | zero => omega
  | succ w ih =>
    cases k with
    | zero => simp [beBits_succ]
    | succ k =>
      rw [beBits_succ, List.getElem?_cons_succ, ih k (by omega)]
      congr 2
      omega

theorem beUint_lt (bs : Bits) : beUint bs < 2 ^ bs.length := by
  induction bs with
  | nil => simp
  | cons b bs ih =>
    rw [beUint_cons, List.length_cons, pow_succ]
    have : b.toNat ≤ 1 := by cases b <;> simp
    nlinarith

/-- The integer of a concatenation (R95 a). -/
theorem beUint_append (as bs : Bits) : beUint (as ++ bs) = beUint as * 2 ^ bs.length + beUint bs := by
  induction as with
  | nil => simp
  | cons a as ih =>
    rw [List.cons_append, beUint_cons, ih, beUint_cons, List.length_append, pow_add]
    ring

theorem testBit_beUint (bs : Bits) (k : Nat) (h : k < bs.length) :
    (beUint bs).testBit (bs.length - 1 - k) = bs[k] := by
  induction bs generalizing k with
  | nil => simp at h
  | cons b bs ih =>
    rw [beUint_cons, Nat.mul_comm, Nat.testBit_two_pow_mul_add _ (beUint_lt bs)]
    cases k with
    | zero => cases b <;> simp
    | succ k =>
      have hk : k < bs.length := by simpa using h
      rw [List.length_cons, if_pos (by omega), show bs.length + 1 - 1 - (k + 1) = bs.length - 1 - k by omega, ih k hk]
      simp

/-- Every bit sequence is the pattern of its integer (R119 d). -/
@[simp] theorem beBits_beUint (bs : Bits) : beBits (beUint bs) bs.length = bs := by
  apply List.ext_getElem?
  intro k
  by_cases h : k < bs.length
  · rw [beBits_getElem? _ _ _ h, testBit_beUint _ _ h, List.getElem?_eq_getElem h]
  · rw [List.getElem?_eq_none (by simpa using h), List.getElem?_eq_none (by omega)]

theorem beUint_beBits_mod (u w : Nat) : beUint (beBits u w) = u % 2 ^ w := by
  induction w with
  | zero => simp [Nat.mod_one]
  | succ w ih =>
    rw [beBits_succ, beUint_cons, ih, beBits_length, Nat.mod_pow_succ, Nat.testBit_eq_decide_div_mod_eq]
    rcases Nat.mod_two_eq_zero_or_one (u / 2 ^ w) with h | h <;> simp [h]; ring

/-- A pattern's integer is the value it was made from, when it fits (R119 a). -/
theorem beUint_beBits (u w : Nat) (h : u < 2 ^ w) : beUint (beBits u w) = u := by
  rw [beUint_beBits_mod, Nat.mod_eq_of_lt h]

/-- `beUint` as the sum of R8 and R41. -/
theorem beUint_eq_sum (bs : Bits) :
    beUint bs = ∑ k ∈ Finset.range bs.length, (bs.getD k false).toNat * 2 ^ (bs.length - 1 - k) := by
  induction bs with
  | nil => simp
  | cons b bs ih =>
    rw [beUint_cons, List.length_cons, Finset.sum_range_succ', ih, Nat.add_comm]
    congr 1
    apply Finset.sum_congr rfl
    intro k _
    rw [List.getD_cons_succ, show bs.length + 1 - 1 - (k + 1) = bs.length - 1 - k by omega]

theorem tc_lt (w : Nat) (v : Int) : tc w v < 2 ^ w := by
  have h := Int.emod_lt_of_pos v (show (0 : Int) < 2 ^ w by positivity)
  have h0 := Int.emod_nonneg v (show (2 : Int) ^ w ≠ 0 by positivity)
  zify [tc]
  rw [Int.toNat_of_nonneg h0]
  exact h

theorem fitsUnsigned_iff (v : Int) (w : Nat) : fitsUnsigned v w = true ↔ 0 ≤ v ∧ v < 2 ^ w := by simp [fitsUnsigned]

theorem fitsSigned_iff (v : Int) (w : Nat) : fitsSigned v w = true ↔ -(2 ^ (w - 1)) ≤ v ∧ v < 2 ^ (w - 1) := by
  simp [fitsSigned]

/-- `sext_w(tc_w(v)) = v` for a value that fits (R7, R119 a). -/
theorem sext_tc (w : Nat) (v : Int) (hw : 1 ≤ w) (h : fitsSigned v w = true) : sext w (tc w v) = v := by
  rw [fitsSigned_iff] at h
  obtain ⟨n, rfl⟩ : ∃ n, w = n + 1 := ⟨w - 1, by omega⟩
  simp only [Nat.add_sub_cancel] at h
  have hp : (2 : Int) ^ (n + 1) = 2 * 2 ^ n := by ring
  have hpos : (0 : Int) < 2 ^ n := by positivity
  have htc : (tc (n + 1) v : Int) = v % 2 ^ (n + 1) := by
    simp only [tc]
    exact Int.toNat_of_nonneg (Int.emod_nonneg _ (by positivity))
  unfold sext
  simp only [Nat.add_sub_cancel]
  rcases lt_or_ge v 0 with hv | hv
  · have hm : v % 2 ^ (n + 1) = v + 2 ^ (n + 1) := by
      rw [← Int.add_emod_right, Int.emod_eq_of_lt] <;> rw [hp] <;> linarith
    rw [if_neg, htc, hm]
    · ring
    · zify
      rw [htc, hm, hp]
      linarith
  · have hm : v % 2 ^ (n + 1) = v := Int.emod_eq_of_lt hv (by rw [hp]; linarith)
    rw [if_pos, htc, hm]
    zify
    rw [htc, hm]
    exact h.2

/-- `tc_w(sext_w(u)) = u` for a pattern of `w` bits (R95 b). -/
theorem tc_sext (w u : Nat) (h : u < 2 ^ w) : tc w (sext w u) = u := by
  have h' : (u : Int) < 2 ^ w := by exact_mod_cast h
  unfold tc sext
  split
  · rw [Int.emod_eq_of_lt (by positivity) h']; simp
  · rw [Int.sub_emod_right, Int.emod_eq_of_lt (by positivity) h']; simp

/-- A sign-extended field fits its width (R97 a). -/
theorem fitsSigned_sext (w u : Nat) (hw : 1 ≤ w) (h : u < 2 ^ w) : fitsSigned (sext w u) w = true := by
  rw [fitsSigned_iff]
  obtain ⟨n, rfl⟩ : ∃ n, w = n + 1 := ⟨w - 1, by omega⟩
  have hp : (2 : Int) ^ (n + 1) = 2 * 2 ^ n := by ring
  have h' : (u : Int) < 2 ^ (n + 1) := by exact_mod_cast h
  have hpos : (0 : Int) < 2 ^ n := by positivity
  unfold sext
  simp only [Nat.add_sub_cancel]
  split
  · rename_i h1
    have h1' : (u : Int) < 2 ^ n := by exact_mod_cast h1
    constructor <;> linarith [Int.natCast_nonneg u]
  · rename_i h1
    have h1' : (2 : Int) ^ n ≤ u := by exact_mod_cast not_lt.mp h1
    constructor <;> rw [hp] <;> linarith

@[simp] theorem unsignedBits_length (v : Int) (w : Nat) : (unsignedBits v w).length = w := beBits_length _ _

@[simp] theorem signedBits_length (v : Int) (w : Nat) : (signedBits v w).length = w := beBits_length _ _

/-- An unsigned field reads back as the value appended (R119 a). -/
theorem beUint_unsignedBits (v : Int) (w : Nat) (h : fitsUnsigned v w = true) : (beUint (unsignedBits v w) : Int) = v := by
  rw [fitsUnsigned_iff] at h
  rw [unsignedBits, beUint_beBits]
  · exact Int.toNat_of_nonneg h.1
  · zify
    rw [Int.toNat_of_nonneg h.1]
    exact h.2

/-- A two's-complement field reads back as the value appended (R119 a). -/
theorem sext_signedBits (v : Int) (w : Nat) (hw : 1 ≤ w) (h : fitsSigned v w = true) :
    sext w (beUint (signedBits v w)) = v := by
  rw [signedBits, beUint_beBits _ _ (tc_lt w v), sext_tc w v hw h]

/-- A bit sequence is the unsigned pattern of its integer (R119 d). -/
theorem unsignedBits_beUint (bs : Bits) : unsignedBits (beUint bs) bs.length = bs := by simp [unsignedBits]

/-- A bit sequence is the two's-complement pattern of its sign-extended integer (R119 d). -/
theorem signedBits_sext (bs : Bits) : signedBits (sext bs.length (beUint bs)) bs.length = bs := by
  rw [signedBits, tc_sext _ _ (beUint_lt bs), beBits_beUint]

/-- Bit `k` of the unsigned pattern of a value that fits is bit `w-1-k` of the value (R7, R112). -/
theorem unsignedBits_getElem? (v : Int) (w k : Nat) (hk : k < w) (h : fitsUnsigned v w = true) :
    (unsignedBits v w)[k]? = some (decide (v / 2 ^ (w - 1 - k) % 2 = 1)) := by
  rw [fitsUnsigned_iff] at h
  rw [unsignedBits, beBits_getElem? _ _ _ hk, Nat.testBit_eq_decide_div_mod_eq]
  congr 2
  apply propext
  lift v to Nat using h.1
  rw [Int.toNat_natCast]
  norm_cast

/-- Bit `k` of the two's-complement pattern of a value is bit `w-1-k` of the value (R7, R114). -/
theorem signedBits_getElem? (v : Int) (w k : Nat) (hk : k < w) :
    (signedBits v w)[k]? = some (decide (v / 2 ^ (w - 1 - k) % 2 = 1)) := by
  rw [signedBits, beBits_getElem? _ _ _ hk, Nat.testBit_eq_decide_div_mod_eq]
  congr 2
  apply propext
  have hn : (tc w v : Int) = v % 2 ^ w := Int.toNat_of_nonneg (Int.emod_nonneg _ (by positivity))
  have hp : (2 : Int) ^ w = 2 ^ (w - 1 - k) * (2 * 2 ^ k) := by
    rw [← pow_succ', ← pow_add]
    congr 1
    omega
  have key : v / 2 ^ (w - 1 - k) = v % 2 ^ w / 2 ^ (w - 1 - k) + 2 * (2 ^ k * (v / 2 ^ w)) := by
    have hq : (2 : Int) ^ w * (v / 2 ^ w) = 2 * (2 ^ k * (v / 2 ^ w)) * 2 ^ (w - 1 - k) := by
      rw [hp]
      ring
    conv_lhs => rw [← Int.emod_add_mul_ediv v (2 ^ w), hq]
    rw [Int.add_mul_ediv_right _ _ (by positivity)]
  rw [← Int.natCast_inj, key, Int.add_mul_emod_self_left]
  push_cast
  rw [hn]

/-- A field of either kind that fits `w` bits fits every wider two's-complement register (R97). -/
theorem fitsSigned_of_fitsUnsigned (v : Int) (w n : Nat) (hw : w < n) (h : fitsUnsigned v w = true) :
    fitsSigned v n = true := by
  rw [fitsUnsigned_iff] at h
  rw [fitsSigned_iff]
  have : (2 : Int) ^ w ≤ 2 ^ (n - 1) := pow_le_pow_right₀ (by norm_num) (by omega)
  exact ⟨by linarith [show (0 : Int) ≤ 2 ^ (n - 1) by positivity], by linarith⟩

theorem fitsSigned_mono (v : Int) (w n : Nat) (hw : w ≤ n) (h : fitsSigned v w = true) : fitsSigned v n = true := by
  rw [fitsSigned_iff] at h ⊢
  have : (2 : Int) ^ (w - 1) ≤ 2 ^ (n - 1) := pow_le_pow_right₀ (by norm_num) (by omega)
  exact ⟨by linarith, by linarith⟩

end Sys2Proof.Machine
end

