-- ==== Sys2Proof/Laws/Configuration.lean ====
section
/-! SUPPORT. What a configuration of this hardware is sure of: its rows, its armor table, its degrees; and that the default
is one (R6, R73, R118, R135, R152). -/

namespace Sys2Proof

open Machine

variable (c : Config)

/-! ## Rows (R73, R74, R152) -/

theorem Config.wf_iff :
    c.wf = true ↔ c.sizesWf = true ∧ armorWf c.armor = true ∧ c.romWf = true ∧ c.fdivWf = true := by
  simp only [Config.wf, Bool.and_eq_true, and_assoc]

theorem Config.sizesWf_iff : c.sizesWf = true ↔
    30 ≤ c.wMax ∧ c.wMax ≤ 63 ∧ c.wMax + 1 ≤ c.opw ∧ c.wbufBits ≤ 6 * c.armChars ∧ 1 ≤ c.nInst := by
  simp only [Config.sizesWf, decide_eq_true_eq]

@[simp] theorem Config.row_18 : c.row 18 = row18 := rfl

theorem Config.selects_iff (id : Int) :
    c.selects id = true ↔ 0 ≤ id ∧ id ≤ 63 ∧ (c.row id.toNat).present = true := by
  simp only [Config.selects, isIdentifier, Bool.and_eq_true, decide_eq_true_eq, and_assoc]

@[simp] theorem Config.selects_18 : c.selects 18 = true := rfl

/-- Identifiers outside 1 to 27 never have a row (R74, R202). -/
theorem Config.selects_range (id : Int) (h : c.selects id = true) : 1 ≤ id ∧ id ≤ 27 := by
  rw [Config.selects_iff] at h
  obtain ⟨h0, h1, h2⟩ := h
  unfold Config.row at h2
  split at h2
  · omega
  · split at h2
    · omega
    · cases h2

/-- Every row of a configuration of this hardware meets R73. -/
theorem Config.row_wf (h : c.wf = true) (id : Nat) : (c.row id).wf c = true := by
  by_cases hid : id < 64
  · have h := (Config.wf_iff c).mp h
    have := (Bool.and_eq_true _ _ ▸ h.2.2.1 : _ ∧ _).2
    exact List.all_eq_true.mp this id (List.mem_range.mpr hid)
  · have : c.row id = absentRow := by
      unfold Config.row
      rw [if_neg (by omega), if_neg (by omega)]
    rw [this]
    rfl

theorem Row.wf_iff (r : Row) (hp : r.present = true) : r.wf c = true ↔
    r.explen = 38 + tailbits r.entries ∧ r.explen ≤ c.rbufBits ∧ r.explen ≤ c.wbufBits ∧ entriesWf c r.entries = true := by
  simp only [Row.wf, hp, Bool.not_true, Bool.false_or, Bool.and_eq_true, decide_eq_true_eq, and_assoc]

theorem entriesWf_iff (es : List Entry) : entriesWf c es = true ↔
    es.all (Entry.wf c) = true ∧ (∀ d ∈ es.filterMap Entry.dest?, 3 ≤ d ∧ d < c.nfr) ∧
      (es.filterMap Entry.dest?).Nodup ∧ es.count .pos ≤ 1 := by
  simp only [entriesWf, Bool.and_eq_true, List.all_eq_true, decide_eq_true_eq, and_assoc]

/-- A configuration of this hardware has the registers of the header and of type 18 (R16, R17, R73). -/
theorem Config.nfr_ge (h : c.wf = true) : 19 ≤ c.nfr := by
  have := (Row.wf_iff c row18 rfl).mp (c.row_wf h 18)
  have := ((entriesWf_iff c row18.entries).mp this.2.2.2).2.1 18 (by decide)
  omega

/-! ## Armor (R118) -/

theorem armorWf_iff (t : List Char8) :
    armorWf t = true ↔ t.length = 64 ∧ t.Nodup ∧ ∀ a ∈ t, 32 ≤ a.toNat ∧ a.toNat ≤ 126 := by
  simp only [armorWf, Bool.and_eq_true, decide_eq_true_eq, List.all_eq_true, and_assoc]

theorem Config.armorChar_mem (h : armorWf c.armor = true) (g : Nat) (hg : g < 64) : c.armor[g]? = some (c.armorChar g) := by
  have := ((armorWf_iff _).mp h).1
  simp [Config.armorChar, show g < c.armor.length by omega]

/-- The armor table of a configuration is injective on the 64 groups. -/
theorem Config.armorChar_injective (h : armorWf c.armor = true) (g k : Nat) (hg : g < 64) (hk : k < 64)
    (e : c.armorChar g = c.armorChar k) : g = k := by
  obtain ⟨hl, hn, _⟩ := (armorWf_iff _).mp h
  have h1 := c.armorChar_mem h g hg
  rw [e, ← c.armorChar_mem h k hk] at h1
  exact (List.getElem?_inj (i := g) (by omega) hn).mp h1

/-- The characters of a configuration's armor table are printable ASCII. -/
theorem Config.armorChar_printable (h : armorWf c.armor = true) (g : Nat) (hg : g < 64) :
    32 ≤ (c.armorChar g).toNat ∧ (c.armorChar g).toNat ≤ 126 :=
  ((armorWf_iff _).mp h).2.2 _ (List.mem_of_getElem? (c.armorChar_mem h g hg))

/-! ## Degrees (R135) -/

/-- Property P-DEG's inverse: the degrees of a raw value name that raw value and no other. -/
theorem Config.rawOf_degrees (h : c.fdivWf = true) (r : Int) (hr : fitsSigned r 28 = true) : c.rawOf (c.degrees r) = r := by
  simp only [Config.fdivWf, Bool.and_eq_true, Bool.or_eq_true, decide_eq_true_eq, List.all_eq_true,
    Bool.not_eq_true'] at h
  obtain ⟨⟨⟨-, -⟩, hv⟩, ht⟩ := h
  have hb : r.natAbs ≤ 2 ^ 27 := by
    rw [fitsSigned_iff] at hr
    norm_num at hr ⊢
    omega
  unfold Config.rawOf Config.degrees
  cases hl : c.fdivTable.lookup r with
  | some x =>
    have hm : (r, x) ∈ c.fdivTable := by
      obtain ⟨l₁, l₂, e, _⟩ := List.lookup_eq_some_iff.mp hl
      rw [e]
      simp
    rw [Option.getD_some]
    cases hf : c.fdivTable.find? (fun e => decide (e.2 = x)) with
    | none => exact absurd (List.find?_eq_none.mp hf _ hm) (by simp)
    | some e =>
      have h2 : e.2 = x := by simpa using List.find?_some hf
      have := List.inj_on_of_nodup_map hv (List.mem_of_find?_eq_some hf) hm h2
      rw [this]
  | none =>
    rw [Option.getD_none]
    cases hf : c.fdivTable.find? (fun e => decide (e.2 = fdiv64 r degDiv)) with
    | none => exact nearestRaw_fdiv64 r hb
    | some e =>
      have h2 : e.2 = fdiv64 r degDiv := by simpa using List.find?_some hf
      have hm := List.mem_of_find?_eq_some hf
      rcases (ht e hm).2 with (hout | hin) | hne
      · rw [h2, nearestRaw_fdiv64 r hb, hr] at hout
        cases hout
      · rw [h2, nearestRaw_fdiv64 r hb] at hin
        obtain ⟨e', he', rfl⟩ := List.mem_map.mp hin
        exact absurd (List.lookup_eq_none_iff.mp hl e' he') (by simp)
      · rw [h2, nearestRaw_fdiv64 r hb] at hne
        exact absurd rfl hne

/-- A configuration's degrees of a raw value are a finite number: POSDEG produces no NaN (R98). -/
theorem Config.isFinite_degrees (h : c.fdivWf = true) (r : Int) (hr : fitsSigned r 28 = true) :
    Double.isFinite (c.degrees r) = true := by
  simp only [Config.fdivWf, Bool.and_eq_true, List.all_eq_true] at h
  unfold Config.degrees
  cases hl : c.fdivTable.lookup r with
  | some x =>
    obtain ⟨l₁, l₂, e, -⟩ := List.lookup_eq_some_iff.mp hl
    have := (h.2 (r, x) (by rw [e]; simp)).1.2
    simp only [Double.isDegrees, Bool.and_eq_true] at this
    exact this.1
  | none =>
    rw [fitsSigned_iff] at hr
    exact isFinite_fdiv64 r (by norm_num at hr ⊢; omega)

/-- A configuration's degrees of 0 and of the sentinels (R136). -/
theorem Config.degrees_corners (h : c.fdivWf = true) :
    c.degrees 0 = 0 ∧ c.degrees 108600000 = 0x4066A00000000000 ∧ c.degrees 54600000 = 0x4056C00000000000 := by
  simp only [Config.fdivWf, Bool.and_eq_true] at h
  exact of_decide_eq_true h.1.1.1

/-- Property P-DEG for the longitude (R135). -/
theorem Config.deg2rawLon_degrees (h : c.fdivWf = true) (r : Int) (hr : fitsSigned r 28 = true) :
    c.deg2rawLon (c.degrees r) = r := by
  simp [Config.deg2rawLon, Config.isDegreesOf, c.rawOf_degrees h r hr, hr]

/-- Property P-DEG for the latitude (R135). -/
theorem Config.deg2rawLat_degrees (h : c.fdivWf = true) (r : Int) (hr : fitsSigned r 27 = true) :
    c.deg2rawLat (c.degrees r) = r := by
  simp [Config.deg2rawLat, Config.isDegreesOf, c.rawOf_degrees h r (fitsSigned_mono r 27 28 (by norm_num) hr), hr]

/-! ## Ports (R15, R19) -/

/-- A value of the operand range is held exactly. -/
theorem Config.port_of_fits (v : Int) (ho : 1 ≤ c.opw) (h : fitsSigned v c.opw = true) : c.port v = v := by
  rw [fitsSigned_iff] at h
  obtain ⟨n, hn⟩ : ∃ n, c.opw = n + 1 := ⟨c.opw - 1, by omega⟩
  rw [hn, Nat.add_sub_cancel] at h
  have hp : ((2 ^ (n + 1) : Nat) : Int) = 2 * 2 ^ n := by push_cast; ring
  rw [Config.port, hn]
  exact Int.bmod_eq_of_le (by rw [hp]; omega) (by rw [hp]; omega)

/-- A port holds a value of the operand range. -/
theorem Config.fits_port (v : Int) (ho : 1 ≤ c.opw) : fitsSigned (c.port v) c.opw = true := by
  rw [fitsSigned_iff]
  obtain ⟨n, hn⟩ : ∃ n, c.opw = n + 1 := ⟨c.opw - 1, by omega⟩
  have hp : ((2 ^ (n + 1) : Nat) : Int) = 2 * 2 ^ n := by push_cast; ring
  have hpos : 0 < 2 ^ (n + 1) := by positivity
  have h1 := Int.le_bmod (x := v) hpos
  have h2 := Int.bmod_lt (x := v) hpos
  rw [Config.port, hn, Nat.add_sub_cancel]
  rw [hp] at h1 h2
  omega

/-- A port keeps the low `OPW` bits. -/
theorem Config.dvd_port_sub (v : Int) : (2 : Int) ^ c.opw ∣ c.port v - v := by
  have := Int.dvd_bmod_sub_self (x := v) (m := 2 ^ c.opw)
  exact_mod_cast this

/-! ## The default configuration (R6) -/

/-- Row 18 meets R73. -/
theorem row18_wf : row18.wf defaultConfig = true := by decide

/-- The default configuration is one of this hardware. -/
theorem defaultConfig_wf : defaultConfig.wf = true := by decide

/-- With the default rows, row 18 is the only row that is present (R74, R202). -/
theorem Config.selects_of_rows_nil (h : c.rows = []) (id : Int) : c.selects id = true ↔ id = 18 := by
  constructor
  · intro hs
    rw [Config.selects_iff] at hs
    obtain ⟨h0, -, hp⟩ := hs
    unfold Config.row at hp
    split at hp
    · omega
    · rw [h] at hp
      split at hp <;> cases hp
  · rintro rfl
    rfl

end Sys2Proof
end

