-- ==== Sys2Proof/Laws/Memory.lean ====
section
/-! SUPPORT. The laws of the cell memories: a read after a write, and that writing keeps the canonical form. -/

namespace Sys2Proof.Machine

variable {α : Type}

@[simp] theorem Mem.get?_nil (a : Nat) : Mem.get? ([] : Mem α) a = none := rfl

@[simp] theorem Mem.write_nil (m : Mem α) (a : Nat) : Mem.write m a [] = m := rfl

@[simp] theorem Mem.write_cons (m : Mem α) (a : Nat) (v : α) (vs : List α) :
    Mem.write m a (v :: vs) = Mem.write (Mem.set m a v) (a + 1) vs := rfl

/-- A read after a write to the same cell gives the value written. -/
@[simp] theorem Mem.get?_set_same (m : Mem α) (a : Nat) (v : α) : Mem.get? (Mem.set m a v) a = some v := by
  induction m with
  | nil => simp [Mem.set, Mem.get?]
  | cons c m ih =>
    obtain ⟨b, x⟩ := c
    simp only [Mem.set]
    split
    · simp [Mem.get?]
    · split
      · simp [Mem.get?]
      · rename_i h1 h2
        simp only [Mem.get?]
        rw [if_neg (by omega)]
        exact ih

/-- A write leaves every other cell alone. -/
theorem Mem.get?_set_ne (m : Mem α) {a b : Nat} (v : α) (h : b ≠ a) :
    Mem.get? (Mem.set m a v) b = Mem.get? m b := by
  induction m with
  | nil => simp [Mem.set, Mem.get?, Ne.symm h]
  | cons c m ih =>
    obtain ⟨d, x⟩ := c
    simp only [Mem.set]
    split
    · simp [Mem.get?, Ne.symm h]
    · split
      · rename_i h2
        subst h2
        simp [Mem.get?, Ne.symm h]
      · simp only [Mem.get?]
        split
        · rfl
        · exact ih

/-- The cells of a written sequence hold it. -/
theorem Mem.get?_write_inside (m : Mem α) (a : Nat) (vs : List α) (k : Nat) (h : k < vs.length) :
    Mem.get? (Mem.write m a vs) (a + k) = vs[k]? := by
  induction vs generalizing m a k with
  | nil => simp at h
  | cons v vs ih =>
    cases k with
    | zero =>
      have keep : ∀ (ws : List α) (m' : Mem α) (b : Nat), a < b → Mem.get? (Mem.write m' b ws) a = Mem.get? m' a := by
        intro ws
        induction ws with
        | nil => intros; rfl
        | cons w ws ih2 =>
          intro m' b hb
          rw [Mem.write_cons, ih2 _ _ (by omega), Mem.get?_set_ne _ _ (by omega)]
      simp [keep vs _ (a + 1) (by omega)]
    | succ k =>
      have h' : k < vs.length := by simpa using h
      have := ih (Mem.set m a v) (a + 1) k h'
      rw [Mem.write_cons, show a + (k + 1) = a + 1 + k by omega, this]
      simp

/-- Writing a sequence leaves the cells outside it alone. -/
theorem Mem.get?_write_outside (m : Mem α) (a : Nat) (vs : List α) (b : Nat) (h : b < a ∨ a + vs.length ≤ b) :
    Mem.get? (Mem.write m a vs) b = Mem.get? m b := by
  induction vs generalizing m a with
  | nil => rfl
  | cons v vs ih =>
    simp only [List.length_cons] at h
    rw [Mem.write_cons, ih _ _ (by omega), Mem.get?_set_ne _ _ (by omega)]

theorem Mem.mem_keys_set (m : Mem α) (a : Nat) (v : α) (x : Nat) :
    x ∈ (Mem.set m a v).map Prod.fst → x = a ∨ x ∈ m.map Prod.fst := by
  induction m with
  | nil => simp [Mem.set]
  | cons c m ih =>
    obtain ⟨b, y⟩ := c
    simp only [Mem.set]
    split
    · simp
    · split
      · rename_i h2
        subst h2
        intro h
        simp only [List.map_cons, List.mem_cons] at h ⊢
        tauto
      · intro h
        simp only [List.map_cons, List.mem_cons] at h ⊢
        rcases h with h | h
        · exact .inr (.inl h)
        · rcases ih h with h | h
          · exact .inl h
          · exact .inr (.inr h)

/-- Writing a cell keeps the canonical form. -/
theorem Mem.set_wf (m : Mem α) (a : Nat) (v : α) (h : Mem.wf m) : Mem.wf (Mem.set m a v) := by
  induction m with
  | nil => simp [Mem.set, Mem.wf]
  | cons c m ih =>
    obtain ⟨b, x⟩ := c
    simp only [Mem.wf, List.map_cons, List.pairwise_cons] at h
    simp only [Mem.set]
    split
    · rename_i h1
      simp only [Mem.wf, List.map_cons, List.pairwise_cons, List.mem_cons]
      refine ⟨?_, h⟩
      rintro y (rfl | hy)
      · exact h1
      · exact lt_trans h1 (h.1 y hy)
    · split
      · rename_i h2
        subst h2
        exact List.pairwise_cons.mpr h
      · rename_i h1 h2
        simp only [Mem.wf, List.map_cons, List.pairwise_cons]
        refine ⟨fun y hy => ?_, ih h.2⟩
        rcases Mem.mem_keys_set m a v y hy with rfl | hy
        · omega
        · exact h.1 y hy

/-- Writing a sequence keeps the canonical form. -/
theorem Mem.write_wf (m : Mem α) (a : Nat) (vs : List α) (h : Mem.wf m) : Mem.wf (Mem.write m a vs) := by
  induction vs generalizing m a with
  | nil => exact h
  | cons v vs ih => exact ih _ _ (Mem.set_wf m a v h)

/-- In the canonical form the listed cells decide a memory: equal reads, equal memories. -/
theorem Mem.ext_of_wf (m n : Mem α) (hm : Mem.wf m) (hn : Mem.wf n) (h : ∀ a, Mem.get? m a = Mem.get? n a) : m = n := by
  have absent : ∀ (m : Mem α) (a : Nat), (∀ x ∈ m.map Prod.fst, a < x) → Mem.get? m a = none := by
    intro m a
    induction m with
    | nil => simp
    | cons c m ih =>
      intro hx
      simp only [List.map_cons, List.mem_cons, forall_eq_or_imp] at hx
      simp only [Mem.get?]
      rw [if_neg (by omega), ih hx.2]
  induction m generalizing n with
  | nil =>
    cases n with
    | nil => rfl
    | cons c n => simpa [Mem.get?] using h c.1
  | cons c m ih =>
    cases n with
    | nil => simpa [Mem.get?] using h c.1
    | cons d n =>
      simp only [Mem.wf, List.map_cons, List.pairwise_cons] at hm hn
      have key : c.1 = d.1 := by
        by_contra hne
        rcases Nat.lt_or_gt_of_ne hne with hlt | hlt
        · have := h c.1
          simp only [Mem.get?, if_pos] at this
          rw [if_neg (by omega), absent n c.1 (fun x hx => lt_trans hlt (hn.1 x hx))] at this
          simp at this
        · have := h d.1
          simp only [Mem.get?, if_pos] at this
          rw [if_neg (by omega), absent m d.1 (fun x hx => lt_trans hlt (hm.1 x hx))] at this
          simp at this
      have val : c.2 = d.2 := by
        have := h c.1
        simpa [Mem.get?, key] using this
      have rest : m = n := by
        refine ih n hm.2 hn.2 fun a => ?_
        by_cases ha : c.1 = a
        · subst ha
          rw [absent m c.1 hm.1, absent n c.1 (fun x hx => key ▸ hn.1 x hx)]
        · have := h a
          simpa [Mem.get?, ha, key ▸ ha] using this
      rw [rest, Prod.ext key val]

end Sys2Proof.Machine
end

