-- ==== Sys2Proof/Laws/State.lean ====
section
/-! SUPPORT. What each update of the state leaves in each field: one lemma per field per update, true by `rfl`. -/

namespace Sys2Proof.Machine

variable (s : State)

/-! ## `State.clearMsgOk` -/

@[simp] theorem State.clearMsgOk_cfg : s.clearMsgOk.cfg = s.cfg := (rfl)
@[simp] theorem State.clearMsgOk_rbuf : s.clearMsgOk.rbuf = s.rbuf := (rfl)
@[simp] theorem State.clearMsgOk_rlen : s.clearMsgOk.rlen = s.rlen := (rfl)
@[simp] theorem State.clearMsgOk_rpos : s.clearMsgOk.rpos = s.rpos := (rfl)
@[simp] theorem State.clearMsgOk_wbuf : s.clearMsgOk.wbuf = s.wbuf := (rfl)
@[simp] theorem State.clearMsgOk_wlen : s.clearMsgOk.wlen = s.wlen := (rfl)
@[simp] theorem State.clearMsgOk_wfin : s.clearMsgOk.wfin = s.wfin := (rfl)
@[simp] theorem State.clearMsgOk_arm : s.clearMsgOk.arm = s.arm := (rfl)
@[simp] theorem State.clearMsgOk_armlen : s.clearMsgOk.armlen = s.armlen := (rfl)
@[simp] theorem State.clearMsgOk_fill : s.clearMsgOk.fill = s.fill := (rfl)
@[simp] theorem State.clearMsgOk_posLon : s.clearMsgOk.posLon = s.posLon := (rfl)
@[simp] theorem State.clearMsgOk_posLat : s.clearMsgOk.posLat = s.posLat := (rfl)
@[simp] theorem State.clearMsgOk_fr : s.clearMsgOk.fr = s.fr := (rfl)
@[simp] theorem State.clearMsgOk_msgOk : s.clearMsgOk.msgOk = false := (rfl)
@[simp] theorem State.clearMsgOk_opa : s.clearMsgOk.opa = s.opa := (rfl)
@[simp] theorem State.clearMsgOk_opb : s.clearMsgOk.opb = s.opb := (rfl)
@[simp] theorem State.clearMsgOk_dega : s.clearMsgOk.dega = s.dega := (rfl)
@[simp] theorem State.clearMsgOk_degb : s.clearMsgOk.degb = s.degb := (rfl)
@[simp] theorem State.clearMsgOk_status : s.clearMsgOk.status = s.status := (rfl)
@[simp] theorem State.clearMsgOk_info : s.clearMsgOk.info = s.info := (rfl)
@[simp] theorem State.clearMsgOk_res : s.clearMsgOk.res = s.res := (rfl)
@[simp] theorem State.clearMsgOk_deglon : s.clearMsgOk.deglon = s.deglon := (rfl)
@[simp] theorem State.clearMsgOk_deglat : s.clearMsgOk.deglat = s.deglat := (rfl)
@[simp] theorem State.clearMsgOk_pending : s.clearMsgOk.pending = s.pending := (rfl)
@[simp] theorem State.clearMsgOk_draws : s.clearMsgOk.draws = s.draws := (rfl)
@[simp] theorem State.clearMsgOk_epoch : s.clearMsgOk.epoch = s.epoch := (rfl)

/-! ## `State.setMsgOk` -/

@[simp] theorem State.setMsgOk_cfg : s.setMsgOk.cfg = s.cfg := (rfl)
@[simp] theorem State.setMsgOk_rbuf : s.setMsgOk.rbuf = s.rbuf := (rfl)
@[simp] theorem State.setMsgOk_rlen : s.setMsgOk.rlen = s.rlen := (rfl)
@[simp] theorem State.setMsgOk_rpos : s.setMsgOk.rpos = s.rpos := (rfl)
@[simp] theorem State.setMsgOk_wbuf : s.setMsgOk.wbuf = s.wbuf := (rfl)
@[simp] theorem State.setMsgOk_wlen : s.setMsgOk.wlen = s.wlen := (rfl)
@[simp] theorem State.setMsgOk_wfin : s.setMsgOk.wfin = s.wfin := (rfl)
@[simp] theorem State.setMsgOk_arm : s.setMsgOk.arm = s.arm := (rfl)
@[simp] theorem State.setMsgOk_armlen : s.setMsgOk.armlen = s.armlen := (rfl)
@[simp] theorem State.setMsgOk_fill : s.setMsgOk.fill = s.fill := (rfl)
@[simp] theorem State.setMsgOk_posLon : s.setMsgOk.posLon = s.posLon := (rfl)
@[simp] theorem State.setMsgOk_posLat : s.setMsgOk.posLat = s.posLat := (rfl)
@[simp] theorem State.setMsgOk_fr : s.setMsgOk.fr = s.fr := (rfl)
@[simp] theorem State.setMsgOk_msgOk : s.setMsgOk.msgOk = true := (rfl)
@[simp] theorem State.setMsgOk_opa : s.setMsgOk.opa = s.opa := (rfl)
@[simp] theorem State.setMsgOk_opb : s.setMsgOk.opb = s.opb := (rfl)
@[simp] theorem State.setMsgOk_dega : s.setMsgOk.dega = s.dega := (rfl)
@[simp] theorem State.setMsgOk_degb : s.setMsgOk.degb = s.degb := (rfl)
@[simp] theorem State.setMsgOk_status : s.setMsgOk.status = s.status := (rfl)
@[simp] theorem State.setMsgOk_info : s.setMsgOk.info = s.info := (rfl)
@[simp] theorem State.setMsgOk_res : s.setMsgOk.res = s.res := (rfl)
@[simp] theorem State.setMsgOk_deglon : s.setMsgOk.deglon = s.deglon := (rfl)
@[simp] theorem State.setMsgOk_deglat : s.setMsgOk.deglat = s.deglat := (rfl)
@[simp] theorem State.setMsgOk_pending : s.setMsgOk.pending = s.pending := (rfl)
@[simp] theorem State.setMsgOk_draws : s.setMsgOk.draws = s.draws := (rfl)
@[simp] theorem State.setMsgOk_epoch : s.setMsgOk.epoch = s.epoch := (rfl)

/-! ## `State.setWfin` -/

@[simp] theorem State.setWfin_cfg : s.setWfin.cfg = s.cfg := (rfl)
@[simp] theorem State.setWfin_rbuf : s.setWfin.rbuf = s.rbuf := (rfl)
@[simp] theorem State.setWfin_rlen : s.setWfin.rlen = s.rlen := (rfl)
@[simp] theorem State.setWfin_rpos : s.setWfin.rpos = s.rpos := (rfl)
@[simp] theorem State.setWfin_wbuf : s.setWfin.wbuf = s.wbuf := (rfl)
@[simp] theorem State.setWfin_wlen : s.setWfin.wlen = s.wlen := (rfl)
@[simp] theorem State.setWfin_wfin : s.setWfin.wfin = true := (rfl)
@[simp] theorem State.setWfin_arm : s.setWfin.arm = s.arm := (rfl)
@[simp] theorem State.setWfin_armlen : s.setWfin.armlen = s.armlen := (rfl)
@[simp] theorem State.setWfin_fill : s.setWfin.fill = s.fill := (rfl)
@[simp] theorem State.setWfin_posLon : s.setWfin.posLon = s.posLon := (rfl)
@[simp] theorem State.setWfin_posLat : s.setWfin.posLat = s.posLat := (rfl)
@[simp] theorem State.setWfin_fr : s.setWfin.fr = s.fr := (rfl)
@[simp] theorem State.setWfin_msgOk : s.setWfin.msgOk = s.msgOk := (rfl)
@[simp] theorem State.setWfin_opa : s.setWfin.opa = s.opa := (rfl)
@[simp] theorem State.setWfin_opb : s.setWfin.opb = s.opb := (rfl)
@[simp] theorem State.setWfin_dega : s.setWfin.dega = s.dega := (rfl)
@[simp] theorem State.setWfin_degb : s.setWfin.degb = s.degb := (rfl)
@[simp] theorem State.setWfin_status : s.setWfin.status = s.status := (rfl)
@[simp] theorem State.setWfin_info : s.setWfin.info = s.info := (rfl)
@[simp] theorem State.setWfin_res : s.setWfin.res = s.res := (rfl)
@[simp] theorem State.setWfin_deglon : s.setWfin.deglon = s.deglon := (rfl)
@[simp] theorem State.setWfin_deglat : s.setWfin.deglat = s.deglat := (rfl)
@[simp] theorem State.setWfin_pending : s.setWfin.pending = s.pending := (rfl)
@[simp] theorem State.setWfin_draws : s.setWfin.draws = s.draws := (rfl)
@[simp] theorem State.setWfin_epoch : s.setWfin.epoch = s.epoch := (rfl)

/-! ## `State.writeFr` -/

@[simp] theorem State.writeFr_cfg (i : Nat) (v : Int) : (s.writeFr i v).cfg = s.cfg := (rfl)
@[simp] theorem State.writeFr_rbuf (i : Nat) (v : Int) : (s.writeFr i v).rbuf = s.rbuf := (rfl)
@[simp] theorem State.writeFr_rlen (i : Nat) (v : Int) : (s.writeFr i v).rlen = s.rlen := (rfl)
@[simp] theorem State.writeFr_rpos (i : Nat) (v : Int) : (s.writeFr i v).rpos = s.rpos := (rfl)
@[simp] theorem State.writeFr_wbuf (i : Nat) (v : Int) : (s.writeFr i v).wbuf = s.wbuf := (rfl)
@[simp] theorem State.writeFr_wlen (i : Nat) (v : Int) : (s.writeFr i v).wlen = s.wlen := (rfl)
@[simp] theorem State.writeFr_wfin (i : Nat) (v : Int) : (s.writeFr i v).wfin = s.wfin := (rfl)
@[simp] theorem State.writeFr_arm (i : Nat) (v : Int) : (s.writeFr i v).arm = s.arm := (rfl)
@[simp] theorem State.writeFr_armlen (i : Nat) (v : Int) : (s.writeFr i v).armlen = s.armlen := (rfl)
@[simp] theorem State.writeFr_fill (i : Nat) (v : Int) : (s.writeFr i v).fill = s.fill := (rfl)
@[simp] theorem State.writeFr_posLon (i : Nat) (v : Int) : (s.writeFr i v).posLon = s.posLon := (rfl)
@[simp] theorem State.writeFr_posLat (i : Nat) (v : Int) : (s.writeFr i v).posLat = s.posLat := (rfl)
@[simp] theorem State.writeFr_fr (i : Nat) (v : Int) : (s.writeFr i v).fr = s.fr.set i v := (rfl)
@[simp] theorem State.writeFr_msgOk (i : Nat) (v : Int) : (s.writeFr i v).msgOk = s.msgOk := (rfl)
@[simp] theorem State.writeFr_opa (i : Nat) (v : Int) : (s.writeFr i v).opa = s.opa := (rfl)
@[simp] theorem State.writeFr_opb (i : Nat) (v : Int) : (s.writeFr i v).opb = s.opb := (rfl)
@[simp] theorem State.writeFr_dega (i : Nat) (v : Int) : (s.writeFr i v).dega = s.dega := (rfl)
@[simp] theorem State.writeFr_degb (i : Nat) (v : Int) : (s.writeFr i v).degb = s.degb := (rfl)
@[simp] theorem State.writeFr_status (i : Nat) (v : Int) : (s.writeFr i v).status = s.status := (rfl)
@[simp] theorem State.writeFr_info (i : Nat) (v : Int) : (s.writeFr i v).info = s.info := (rfl)
@[simp] theorem State.writeFr_res (i : Nat) (v : Int) : (s.writeFr i v).res = s.res := (rfl)
@[simp] theorem State.writeFr_deglon (i : Nat) (v : Int) : (s.writeFr i v).deglon = s.deglon := (rfl)
@[simp] theorem State.writeFr_deglat (i : Nat) (v : Int) : (s.writeFr i v).deglat = s.deglat := (rfl)
@[simp] theorem State.writeFr_pending (i : Nat) (v : Int) : (s.writeFr i v).pending = s.pending := (rfl)
@[simp] theorem State.writeFr_draws (i : Nat) (v : Int) : (s.writeFr i v).draws = s.draws := (rfl)
@[simp] theorem State.writeFr_epoch (i : Nat) (v : Int) : (s.writeFr i v).epoch = s.epoch := (rfl)

/-! ## `State.writePos` -/

@[simp] theorem State.writePos_cfg (a b : Int) : (s.writePos a b).cfg = s.cfg := (rfl)
@[simp] theorem State.writePos_rbuf (a b : Int) : (s.writePos a b).rbuf = s.rbuf := (rfl)
@[simp] theorem State.writePos_rlen (a b : Int) : (s.writePos a b).rlen = s.rlen := (rfl)
@[simp] theorem State.writePos_rpos (a b : Int) : (s.writePos a b).rpos = s.rpos := (rfl)
@[simp] theorem State.writePos_wbuf (a b : Int) : (s.writePos a b).wbuf = s.wbuf := (rfl)
@[simp] theorem State.writePos_wlen (a b : Int) : (s.writePos a b).wlen = s.wlen := (rfl)
@[simp] theorem State.writePos_wfin (a b : Int) : (s.writePos a b).wfin = s.wfin := (rfl)
@[simp] theorem State.writePos_arm (a b : Int) : (s.writePos a b).arm = s.arm := (rfl)
@[simp] theorem State.writePos_armlen (a b : Int) : (s.writePos a b).armlen = s.armlen := (rfl)
@[simp] theorem State.writePos_fill (a b : Int) : (s.writePos a b).fill = s.fill := (rfl)
@[simp] theorem State.writePos_posLon (a b : Int) : (s.writePos a b).posLon = BitVec.ofInt 28 a := (rfl)
@[simp] theorem State.writePos_posLat (a b : Int) : (s.writePos a b).posLat = BitVec.ofInt 27 b := (rfl)
@[simp] theorem State.writePos_fr (a b : Int) : (s.writePos a b).fr = s.fr := (rfl)
@[simp] theorem State.writePos_msgOk (a b : Int) : (s.writePos a b).msgOk = s.msgOk := (rfl)
@[simp] theorem State.writePos_opa (a b : Int) : (s.writePos a b).opa = s.opa := (rfl)
@[simp] theorem State.writePos_opb (a b : Int) : (s.writePos a b).opb = s.opb := (rfl)
@[simp] theorem State.writePos_dega (a b : Int) : (s.writePos a b).dega = s.dega := (rfl)
@[simp] theorem State.writePos_degb (a b : Int) : (s.writePos a b).degb = s.degb := (rfl)
@[simp] theorem State.writePos_status (a b : Int) : (s.writePos a b).status = s.status := (rfl)
@[simp] theorem State.writePos_info (a b : Int) : (s.writePos a b).info = s.info := (rfl)
@[simp] theorem State.writePos_res (a b : Int) : (s.writePos a b).res = s.res := (rfl)
@[simp] theorem State.writePos_deglon (a b : Int) : (s.writePos a b).deglon = s.deglon := (rfl)
@[simp] theorem State.writePos_deglat (a b : Int) : (s.writePos a b).deglat = s.deglat := (rfl)
@[simp] theorem State.writePos_pending (a b : Int) : (s.writePos a b).pending = s.pending := (rfl)
@[simp] theorem State.writePos_draws (a b : Int) : (s.writePos a b).draws = s.draws := (rfl)
@[simp] theorem State.writePos_epoch (a b : Int) : (s.writePos a b).epoch = s.epoch := (rfl)

/-! ## `State.raise` -/

@[simp] theorem State.raise_cfg (e : Failure) : (s.raise e).cfg = s.cfg := (rfl)
@[simp] theorem State.raise_rbuf (e : Failure) : (s.raise e).rbuf = s.rbuf := (rfl)
@[simp] theorem State.raise_rlen (e : Failure) : (s.raise e).rlen = s.rlen := (rfl)
@[simp] theorem State.raise_rpos (e : Failure) : (s.raise e).rpos = s.rpos := (rfl)
@[simp] theorem State.raise_wbuf (e : Failure) : (s.raise e).wbuf = s.wbuf := (rfl)
@[simp] theorem State.raise_wlen (e : Failure) : (s.raise e).wlen = s.wlen := (rfl)
@[simp] theorem State.raise_wfin (e : Failure) : (s.raise e).wfin = s.wfin := (rfl)
@[simp] theorem State.raise_arm (e : Failure) : (s.raise e).arm = s.arm := (rfl)
@[simp] theorem State.raise_armlen (e : Failure) : (s.raise e).armlen = s.armlen := (rfl)
@[simp] theorem State.raise_fill (e : Failure) : (s.raise e).fill = s.fill := (rfl)
@[simp] theorem State.raise_posLon (e : Failure) : (s.raise e).posLon = s.posLon := (rfl)
@[simp] theorem State.raise_posLat (e : Failure) : (s.raise e).posLat = s.posLat := (rfl)
@[simp] theorem State.raise_fr (e : Failure) : (s.raise e).fr = s.fr := (rfl)
@[simp] theorem State.raise_msgOk (e : Failure) : (s.raise e).msgOk = s.msgOk := (rfl)
@[simp] theorem State.raise_opa (e : Failure) : (s.raise e).opa = s.opa := (rfl)
@[simp] theorem State.raise_opb (e : Failure) : (s.raise e).opb = s.opb := (rfl)
@[simp] theorem State.raise_dega (e : Failure) : (s.raise e).dega = s.dega := (rfl)
@[simp] theorem State.raise_degb (e : Failure) : (s.raise e).degb = s.degb := (rfl)
@[simp] theorem State.raise_status (e : Failure) : (s.raise e).status = e.code := (rfl)
@[simp] theorem State.raise_info (e : Failure) : (s.raise e).info = e.info := (rfl)
@[simp] theorem State.raise_res (e : Failure) : (s.raise e).res = s.res := (rfl)
@[simp] theorem State.raise_deglon (e : Failure) : (s.raise e).deglon = s.deglon := (rfl)
@[simp] theorem State.raise_deglat (e : Failure) : (s.raise e).deglat = s.deglat := (rfl)
@[simp] theorem State.raise_pending (e : Failure) : (s.raise e).pending = s.pending := (rfl)
@[simp] theorem State.raise_draws (e : Failure) : (s.raise e).draws = s.draws := (rfl)
@[simp] theorem State.raise_epoch (e : Failure) : (s.raise e).epoch = s.epoch := (rfl)

/-! ## `State.done` -/

@[simp] theorem State.done_cfg : s.done.cfg = s.cfg := (rfl)
@[simp] theorem State.done_rbuf : s.done.rbuf = s.rbuf := (rfl)
@[simp] theorem State.done_rlen : s.done.rlen = s.rlen := (rfl)
@[simp] theorem State.done_rpos : s.done.rpos = s.rpos := (rfl)
@[simp] theorem State.done_wbuf : s.done.wbuf = s.wbuf := (rfl)
@[simp] theorem State.done_wlen : s.done.wlen = s.wlen := (rfl)
@[simp] theorem State.done_wfin : s.done.wfin = s.wfin := (rfl)
@[simp] theorem State.done_arm : s.done.arm = s.arm := (rfl)
@[simp] theorem State.done_armlen : s.done.armlen = s.armlen := (rfl)
@[simp] theorem State.done_fill : s.done.fill = s.fill := (rfl)
@[simp] theorem State.done_posLon : s.done.posLon = s.posLon := (rfl)
@[simp] theorem State.done_posLat : s.done.posLat = s.posLat := (rfl)
@[simp] theorem State.done_fr : s.done.fr = s.fr := (rfl)
@[simp] theorem State.done_msgOk : s.done.msgOk = s.msgOk := (rfl)
@[simp] theorem State.done_opa : s.done.opa = s.opa := (rfl)
@[simp] theorem State.done_opb : s.done.opb = s.opb := (rfl)
@[simp] theorem State.done_dega : s.done.dega = s.dega := (rfl)
@[simp] theorem State.done_degb : s.done.degb = s.degb := (rfl)
@[simp] theorem State.done_status : s.done.status = 0 := (rfl)
@[simp] theorem State.done_info : s.done.info = 0 := (rfl)
@[simp] theorem State.done_res : s.done.res = s.res := (rfl)
@[simp] theorem State.done_deglon : s.done.deglon = s.deglon := (rfl)
@[simp] theorem State.done_deglat : s.done.deglat = s.deglat := (rfl)
@[simp] theorem State.done_pending : s.done.pending = s.pending := (rfl)
@[simp] theorem State.done_draws : s.done.draws = s.draws := (rfl)
@[simp] theorem State.done_epoch : s.done.epoch = s.epoch := (rfl)

/-! ## `State.setRes` -/

@[simp] theorem State.setRes_cfg (v : Int) : (s.setRes v).cfg = s.cfg := (rfl)
@[simp] theorem State.setRes_rbuf (v : Int) : (s.setRes v).rbuf = s.rbuf := (rfl)
@[simp] theorem State.setRes_rlen (v : Int) : (s.setRes v).rlen = s.rlen := (rfl)
@[simp] theorem State.setRes_rpos (v : Int) : (s.setRes v).rpos = s.rpos := (rfl)
@[simp] theorem State.setRes_wbuf (v : Int) : (s.setRes v).wbuf = s.wbuf := (rfl)
@[simp] theorem State.setRes_wlen (v : Int) : (s.setRes v).wlen = s.wlen := (rfl)
@[simp] theorem State.setRes_wfin (v : Int) : (s.setRes v).wfin = s.wfin := (rfl)
@[simp] theorem State.setRes_arm (v : Int) : (s.setRes v).arm = s.arm := (rfl)
@[simp] theorem State.setRes_armlen (v : Int) : (s.setRes v).armlen = s.armlen := (rfl)
@[simp] theorem State.setRes_fill (v : Int) : (s.setRes v).fill = s.fill := (rfl)
@[simp] theorem State.setRes_posLon (v : Int) : (s.setRes v).posLon = s.posLon := (rfl)
@[simp] theorem State.setRes_posLat (v : Int) : (s.setRes v).posLat = s.posLat := (rfl)
@[simp] theorem State.setRes_fr (v : Int) : (s.setRes v).fr = s.fr := (rfl)
@[simp] theorem State.setRes_msgOk (v : Int) : (s.setRes v).msgOk = s.msgOk := (rfl)
@[simp] theorem State.setRes_opa (v : Int) : (s.setRes v).opa = s.opa := (rfl)
@[simp] theorem State.setRes_opb (v : Int) : (s.setRes v).opb = s.opb := (rfl)
@[simp] theorem State.setRes_dega (v : Int) : (s.setRes v).dega = s.dega := (rfl)
@[simp] theorem State.setRes_degb (v : Int) : (s.setRes v).degb = s.degb := (rfl)
@[simp] theorem State.setRes_status (v : Int) : (s.setRes v).status = s.status := (rfl)
@[simp] theorem State.setRes_info (v : Int) : (s.setRes v).info = s.info := (rfl)
@[simp] theorem State.setRes_res (v : Int) : (s.setRes v).res = v := (rfl)
@[simp] theorem State.setRes_deglon (v : Int) : (s.setRes v).deglon = s.deglon := (rfl)
@[simp] theorem State.setRes_deglat (v : Int) : (s.setRes v).deglat = s.deglat := (rfl)
@[simp] theorem State.setRes_pending (v : Int) : (s.setRes v).pending = s.pending := (rfl)
@[simp] theorem State.setRes_draws (v : Int) : (s.setRes v).draws = s.draws := (rfl)
@[simp] theorem State.setRes_epoch (v : Int) : (s.setRes v).epoch = s.epoch := (rfl)

/-! ## `State.failDecode` -/

@[simp] theorem State.failDecode_cfg (e : Failure) : (s.failDecode e).cfg = s.cfg := (rfl)
@[simp] theorem State.failDecode_rbuf (e : Failure) : (s.failDecode e).rbuf = s.rbuf := (rfl)
@[simp] theorem State.failDecode_rlen (e : Failure) : (s.failDecode e).rlen = s.rlen := (rfl)
@[simp] theorem State.failDecode_rpos (e : Failure) : (s.failDecode e).rpos = s.rpos := (rfl)
@[simp] theorem State.failDecode_wbuf (e : Failure) : (s.failDecode e).wbuf = s.wbuf := (rfl)
@[simp] theorem State.failDecode_wlen (e : Failure) : (s.failDecode e).wlen = s.wlen := (rfl)
@[simp] theorem State.failDecode_wfin (e : Failure) : (s.failDecode e).wfin = s.wfin := (rfl)
@[simp] theorem State.failDecode_arm (e : Failure) : (s.failDecode e).arm = s.arm := (rfl)
@[simp] theorem State.failDecode_armlen (e : Failure) : (s.failDecode e).armlen = s.armlen := (rfl)
@[simp] theorem State.failDecode_fill (e : Failure) : (s.failDecode e).fill = s.fill := (rfl)
@[simp] theorem State.failDecode_posLon (e : Failure) : (s.failDecode e).posLon = Config.freeLon s.draws := (rfl)
@[simp] theorem State.failDecode_posLat (e : Failure) : (s.failDecode e).posLat = Config.freeLat s.draws := (rfl)
@[simp] theorem State.failDecode_fr (e : Failure) : (s.failDecode e).fr = s.cfg.freeRegisters s.draws := (rfl)
@[simp] theorem State.failDecode_msgOk (e : Failure) : (s.failDecode e).msgOk = false := (rfl)
@[simp] theorem State.failDecode_opa (e : Failure) : (s.failDecode e).opa = s.opa := (rfl)
@[simp] theorem State.failDecode_opb (e : Failure) : (s.failDecode e).opb = s.opb := (rfl)
@[simp] theorem State.failDecode_dega (e : Failure) : (s.failDecode e).dega = s.dega := (rfl)
@[simp] theorem State.failDecode_degb (e : Failure) : (s.failDecode e).degb = s.degb := (rfl)
@[simp] theorem State.failDecode_status (e : Failure) : (s.failDecode e).status = e.code := (rfl)
@[simp] theorem State.failDecode_info (e : Failure) : (s.failDecode e).info = e.info := (rfl)
@[simp] theorem State.failDecode_res (e : Failure) : (s.failDecode e).res = s.res := (rfl)
@[simp] theorem State.failDecode_deglon (e : Failure) : (s.failDecode e).deglon = s.deglon := (rfl)
@[simp] theorem State.failDecode_deglat (e : Failure) : (s.failDecode e).deglat = s.deglat := (rfl)
@[simp] theorem State.failDecode_pending (e : Failure) : (s.failDecode e).pending = s.pending := (rfl)
@[simp] theorem State.failDecode_draws (e : Failure) : (s.failDecode e).draws = s.draws + s.cfg.nInst := (rfl)
@[simp] theorem State.failDecode_epoch (e : Failure) : (s.failDecode e).epoch = s.epoch := (rfl)

/-! ## `State.advance` -/

@[simp] theorem State.advance_cfg (n : Nat) : (s.advance n).cfg = s.cfg := (rfl)
@[simp] theorem State.advance_rbuf (n : Nat) : (s.advance n).rbuf = s.rbuf := (rfl)
@[simp] theorem State.advance_rlen (n : Nat) : (s.advance n).rlen = s.rlen := (rfl)
@[simp] theorem State.advance_rpos (n : Nat) : (s.advance n).rpos = s.rpos + n := (rfl)
@[simp] theorem State.advance_wbuf (n : Nat) : (s.advance n).wbuf = s.wbuf := (rfl)
@[simp] theorem State.advance_wlen (n : Nat) : (s.advance n).wlen = s.wlen := (rfl)
@[simp] theorem State.advance_wfin (n : Nat) : (s.advance n).wfin = s.wfin := (rfl)
@[simp] theorem State.advance_arm (n : Nat) : (s.advance n).arm = s.arm := (rfl)
@[simp] theorem State.advance_armlen (n : Nat) : (s.advance n).armlen = s.armlen := (rfl)
@[simp] theorem State.advance_fill (n : Nat) : (s.advance n).fill = s.fill := (rfl)
@[simp] theorem State.advance_posLon (n : Nat) : (s.advance n).posLon = s.posLon := (rfl)
@[simp] theorem State.advance_posLat (n : Nat) : (s.advance n).posLat = s.posLat := (rfl)
@[simp] theorem State.advance_fr (n : Nat) : (s.advance n).fr = s.fr := (rfl)
@[simp] theorem State.advance_msgOk (n : Nat) : (s.advance n).msgOk = s.msgOk := (rfl)
@[simp] theorem State.advance_opa (n : Nat) : (s.advance n).opa = s.opa := (rfl)
@[simp] theorem State.advance_opb (n : Nat) : (s.advance n).opb = s.opb := (rfl)
@[simp] theorem State.advance_dega (n : Nat) : (s.advance n).dega = s.dega := (rfl)
@[simp] theorem State.advance_degb (n : Nat) : (s.advance n).degb = s.degb := (rfl)
@[simp] theorem State.advance_status (n : Nat) : (s.advance n).status = s.status := (rfl)
@[simp] theorem State.advance_info (n : Nat) : (s.advance n).info = s.info := (rfl)
@[simp] theorem State.advance_res (n : Nat) : (s.advance n).res = s.res := (rfl)
@[simp] theorem State.advance_deglon (n : Nat) : (s.advance n).deglon = s.deglon := (rfl)
@[simp] theorem State.advance_deglat (n : Nat) : (s.advance n).deglat = s.deglat := (rfl)
@[simp] theorem State.advance_pending (n : Nat) : (s.advance n).pending = s.pending := (rfl)
@[simp] theorem State.advance_draws (n : Nat) : (s.advance n).draws = s.draws := (rfl)
@[simp] theorem State.advance_epoch (n : Nat) : (s.advance n).epoch = s.epoch := (rfl)

/-! ## `State.append` -/

@[simp] theorem State.append_cfg (bs : Bits) : (s.append bs).cfg = s.cfg := (rfl)
@[simp] theorem State.append_rbuf (bs : Bits) : (s.append bs).rbuf = s.rbuf := (rfl)
@[simp] theorem State.append_rlen (bs : Bits) : (s.append bs).rlen = s.rlen := (rfl)
@[simp] theorem State.append_rpos (bs : Bits) : (s.append bs).rpos = s.rpos := (rfl)
@[simp] theorem State.append_wbuf (bs : Bits) : (s.append bs).wbuf = Mem.write s.wbuf s.wlen bs := (rfl)
@[simp] theorem State.append_wlen (bs : Bits) : (s.append bs).wlen = s.wlen + bs.length := (rfl)
@[simp] theorem State.append_wfin (bs : Bits) : (s.append bs).wfin = s.wfin := (rfl)
@[simp] theorem State.append_arm (bs : Bits) : (s.append bs).arm = s.arm := (rfl)
@[simp] theorem State.append_armlen (bs : Bits) : (s.append bs).armlen = s.armlen := (rfl)
@[simp] theorem State.append_fill (bs : Bits) : (s.append bs).fill = s.fill := (rfl)
@[simp] theorem State.append_posLon (bs : Bits) : (s.append bs).posLon = s.posLon := (rfl)
@[simp] theorem State.append_posLat (bs : Bits) : (s.append bs).posLat = s.posLat := (rfl)
@[simp] theorem State.append_fr (bs : Bits) : (s.append bs).fr = s.fr := (rfl)
@[simp] theorem State.append_msgOk (bs : Bits) : (s.append bs).msgOk = s.msgOk := (rfl)
@[simp] theorem State.append_opa (bs : Bits) : (s.append bs).opa = s.opa := (rfl)
@[simp] theorem State.append_opb (bs : Bits) : (s.append bs).opb = s.opb := (rfl)
@[simp] theorem State.append_dega (bs : Bits) : (s.append bs).dega = s.dega := (rfl)
@[simp] theorem State.append_degb (bs : Bits) : (s.append bs).degb = s.degb := (rfl)
@[simp] theorem State.append_status (bs : Bits) : (s.append bs).status = s.status := (rfl)
@[simp] theorem State.append_info (bs : Bits) : (s.append bs).info = s.info := (rfl)
@[simp] theorem State.append_res (bs : Bits) : (s.append bs).res = s.res := (rfl)
@[simp] theorem State.append_deglon (bs : Bits) : (s.append bs).deglon = s.deglon := (rfl)
@[simp] theorem State.append_deglat (bs : Bits) : (s.append bs).deglat = s.deglat := (rfl)
@[simp] theorem State.append_pending (bs : Bits) : (s.append bs).pending = s.pending := (rfl)
@[simp] theorem State.append_draws (bs : Bits) : (s.append bs).draws = s.draws := (rfl)
@[simp] theorem State.append_epoch (bs : Bits) : (s.append bs).epoch = s.epoch := (rfl)

/-! ## `State.newWriter` -/

@[simp] theorem State.newWriter_cfg : s.newWriter.cfg = s.cfg := (rfl)
@[simp] theorem State.newWriter_rbuf : s.newWriter.rbuf = s.rbuf := (rfl)
@[simp] theorem State.newWriter_rlen : s.newWriter.rlen = s.rlen := (rfl)
@[simp] theorem State.newWriter_rpos : s.newWriter.rpos = s.rpos := (rfl)
@[simp] theorem State.newWriter_wbuf : s.newWriter.wbuf = s.wbuf := (rfl)
@[simp] theorem State.newWriter_wlen : s.newWriter.wlen = 0 := (rfl)
@[simp] theorem State.newWriter_wfin : s.newWriter.wfin = false := (rfl)
@[simp] theorem State.newWriter_arm : s.newWriter.arm = s.arm := (rfl)
@[simp] theorem State.newWriter_armlen : s.newWriter.armlen = 0 := (rfl)
@[simp] theorem State.newWriter_fill : s.newWriter.fill = 0 := (rfl)
@[simp] theorem State.newWriter_posLon : s.newWriter.posLon = s.posLon := (rfl)
@[simp] theorem State.newWriter_posLat : s.newWriter.posLat = s.posLat := (rfl)
@[simp] theorem State.newWriter_fr : s.newWriter.fr = s.fr := (rfl)
@[simp] theorem State.newWriter_msgOk : s.newWriter.msgOk = s.msgOk := (rfl)
@[simp] theorem State.newWriter_opa : s.newWriter.opa = s.opa := (rfl)
@[simp] theorem State.newWriter_opb : s.newWriter.opb = s.opb := (rfl)
@[simp] theorem State.newWriter_dega : s.newWriter.dega = s.dega := (rfl)
@[simp] theorem State.newWriter_degb : s.newWriter.degb = s.degb := (rfl)
@[simp] theorem State.newWriter_status : s.newWriter.status = s.status := (rfl)
@[simp] theorem State.newWriter_info : s.newWriter.info = s.info := (rfl)
@[simp] theorem State.newWriter_res : s.newWriter.res = s.res := (rfl)
@[simp] theorem State.newWriter_deglon : s.newWriter.deglon = s.deglon := (rfl)
@[simp] theorem State.newWriter_deglat : s.newWriter.deglat = s.deglat := (rfl)
@[simp] theorem State.newWriter_pending : s.newWriter.pending = s.pending := (rfl)
@[simp] theorem State.newWriter_draws : s.newWriter.draws = s.draws := (rfl)
@[simp] theorem State.newWriter_epoch : s.newWriter.epoch = s.epoch := (rfl)

/-! ## `State.finalize` -/

@[simp] theorem State.finalize_cfg : s.finalize.cfg = s.cfg := (rfl)
@[simp] theorem State.finalize_rbuf : s.finalize.rbuf = s.rbuf := (rfl)
@[simp] theorem State.finalize_rlen : s.finalize.rlen = s.rlen := (rfl)
@[simp] theorem State.finalize_rpos : s.finalize.rpos = s.rpos := (rfl)
@[simp] theorem State.finalize_wbuf : s.finalize.wbuf = s.wbuf := (rfl)
@[simp] theorem State.finalize_wlen : s.finalize.wlen = s.wlen := (rfl)
@[simp] theorem State.finalize_wfin : s.finalize.wfin = true := (rfl)
@[simp] theorem State.finalize_arm : s.finalize.arm = Mem.write s.arm 0 s.armorText := (rfl)
@[simp] theorem State.finalize_armlen : s.finalize.armlen = (s.wlen + fillCount s.wlen) / 6 := (rfl)
@[simp] theorem State.finalize_fill : s.finalize.fill = fillCount s.wlen := (rfl)
@[simp] theorem State.finalize_posLon : s.finalize.posLon = s.posLon := (rfl)
@[simp] theorem State.finalize_posLat : s.finalize.posLat = s.posLat := (rfl)
@[simp] theorem State.finalize_fr : s.finalize.fr = s.fr := (rfl)
@[simp] theorem State.finalize_msgOk : s.finalize.msgOk = s.msgOk := (rfl)
@[simp] theorem State.finalize_opa : s.finalize.opa = s.opa := (rfl)
@[simp] theorem State.finalize_opb : s.finalize.opb = s.opb := (rfl)
@[simp] theorem State.finalize_dega : s.finalize.dega = s.dega := (rfl)
@[simp] theorem State.finalize_degb : s.finalize.degb = s.degb := (rfl)
@[simp] theorem State.finalize_status : s.finalize.status = s.status := (rfl)
@[simp] theorem State.finalize_info : s.finalize.info = s.info := (rfl)
@[simp] theorem State.finalize_res : s.finalize.res = s.res := (rfl)
@[simp] theorem State.finalize_deglon : s.finalize.deglon = s.deglon := (rfl)
@[simp] theorem State.finalize_deglat : s.finalize.deglat = s.deglat := (rfl)
@[simp] theorem State.finalize_pending : s.finalize.pending = s.pending := (rfl)
@[simp] theorem State.finalize_draws : s.finalize.draws = s.draws := (rfl)
@[simp] theorem State.finalize_epoch : s.finalize.epoch = s.epoch := (rfl)

/-! ## Equality -/

/-- Two states are equal when every field is (so that `ext` proves an update to be what it is field by field). -/
@[ext] theorem State.ext_fields {s t : State}
    (h_cfg : s.cfg = t.cfg)
    (h_rbuf : s.rbuf = t.rbuf)
    (h_rlen : s.rlen = t.rlen)
    (h_rpos : s.rpos = t.rpos)
    (h_wbuf : s.wbuf = t.wbuf)
    (h_wlen : s.wlen = t.wlen)
    (h_wfin : s.wfin = t.wfin)
    (h_arm : s.arm = t.arm)
    (h_armlen : s.armlen = t.armlen)
    (h_fill : s.fill = t.fill)
    (h_posLon : s.posLon = t.posLon)
    (h_posLat : s.posLat = t.posLat)
    (h_fr : s.fr = t.fr)
    (h_msgOk : s.msgOk = t.msgOk)
    (h_opa : s.opa = t.opa)
    (h_opb : s.opb = t.opb)
    (h_dega : s.dega = t.dega)
    (h_degb : s.degb = t.degb)
    (h_status : s.status = t.status)
    (h_info : s.info = t.info)
    (h_res : s.res = t.res)
    (h_deglon : s.deglon = t.deglon)
    (h_deglat : s.deglat = t.deglat)
    (h_pending : s.pending = t.pending)
    (h_draws : s.draws = t.draws)
    (h_epoch : s.epoch = t.epoch) : s = t := by
  cases s
  cases t
  simp only at *
  simp only [*]

end Sys2Proof.Machine
end

