-- ==== Sys2Proof/Laws/Walk.lean ====
section
/-! SUPPORT. What the header and the walks of the layout sequencer leave unchanged: one lemma per operation and field,
the written registers apart (R151). -/

namespace Sys2Proof.Machine

variable (s : State)

/-! ## `State.readHeader` -/

@[simp] theorem State.readHeader_cfg (p : Nat) : (s.readHeader p).cfg = s.cfg := by simp only [State.readHeader, State.writeFr_cfg]
@[simp] theorem State.readHeader_rbuf (p : Nat) : (s.readHeader p).rbuf = s.rbuf := by simp only [State.readHeader, State.writeFr_rbuf]
@[simp] theorem State.readHeader_rlen (p : Nat) : (s.readHeader p).rlen = s.rlen := by simp only [State.readHeader, State.writeFr_rlen]
@[simp] theorem State.readHeader_rpos (p : Nat) : (s.readHeader p).rpos = s.rpos := by simp only [State.readHeader, State.writeFr_rpos]
@[simp] theorem State.readHeader_wbuf (p : Nat) : (s.readHeader p).wbuf = s.wbuf := by simp only [State.readHeader, State.writeFr_wbuf]
@[simp] theorem State.readHeader_wlen (p : Nat) : (s.readHeader p).wlen = s.wlen := by simp only [State.readHeader, State.writeFr_wlen]
@[simp] theorem State.readHeader_wfin (p : Nat) : (s.readHeader p).wfin = s.wfin := by simp only [State.readHeader, State.writeFr_wfin]
@[simp] theorem State.readHeader_arm (p : Nat) : (s.readHeader p).arm = s.arm := by simp only [State.readHeader, State.writeFr_arm]
@[simp] theorem State.readHeader_armlen (p : Nat) : (s.readHeader p).armlen = s.armlen := by simp only [State.readHeader, State.writeFr_armlen]
@[simp] theorem State.readHeader_fill (p : Nat) : (s.readHeader p).fill = s.fill := by simp only [State.readHeader, State.writeFr_fill]
@[simp] theorem State.readHeader_posLon (p : Nat) : (s.readHeader p).posLon = s.posLon := by simp only [State.readHeader, State.writeFr_posLon]
@[simp] theorem State.readHeader_posLat (p : Nat) : (s.readHeader p).posLat = s.posLat := by simp only [State.readHeader, State.writeFr_posLat]
@[simp] theorem State.readHeader_msgOk (p : Nat) : (s.readHeader p).msgOk = s.msgOk := by simp only [State.readHeader, State.writeFr_msgOk]
@[simp] theorem State.readHeader_opa (p : Nat) : (s.readHeader p).opa = s.opa := by simp only [State.readHeader, State.writeFr_opa]
@[simp] theorem State.readHeader_opb (p : Nat) : (s.readHeader p).opb = s.opb := by simp only [State.readHeader, State.writeFr_opb]
@[simp] theorem State.readHeader_dega (p : Nat) : (s.readHeader p).dega = s.dega := by simp only [State.readHeader, State.writeFr_dega]
@[simp] theorem State.readHeader_degb (p : Nat) : (s.readHeader p).degb = s.degb := by simp only [State.readHeader, State.writeFr_degb]
@[simp] theorem State.readHeader_status (p : Nat) : (s.readHeader p).status = s.status := by simp only [State.readHeader, State.writeFr_status]
@[simp] theorem State.readHeader_info (p : Nat) : (s.readHeader p).info = s.info := by simp only [State.readHeader, State.writeFr_info]
@[simp] theorem State.readHeader_res (p : Nat) : (s.readHeader p).res = s.res := by simp only [State.readHeader, State.writeFr_res]
@[simp] theorem State.readHeader_deglon (p : Nat) : (s.readHeader p).deglon = s.deglon := by simp only [State.readHeader, State.writeFr_deglon]
@[simp] theorem State.readHeader_deglat (p : Nat) : (s.readHeader p).deglat = s.deglat := by simp only [State.readHeader, State.writeFr_deglat]
@[simp] theorem State.readHeader_pending (p : Nat) : (s.readHeader p).pending = s.pending := by simp only [State.readHeader, State.writeFr_pending]
@[simp] theorem State.readHeader_draws (p : Nat) : (s.readHeader p).draws = s.draws := by simp only [State.readHeader, State.writeFr_draws]
@[simp] theorem State.readHeader_epoch (p : Nat) : (s.readHeader p).epoch = s.epoch := by simp only [State.readHeader, State.writeFr_epoch]

/-! ## `State.readPos` -/

@[simp] theorem State.readPos_cfg (p : Nat) : (s.readPos p).cfg = s.cfg := by simp only [State.readPos, State.writePos_cfg]
@[simp] theorem State.readPos_rbuf (p : Nat) : (s.readPos p).rbuf = s.rbuf := by simp only [State.readPos, State.writePos_rbuf]
@[simp] theorem State.readPos_rlen (p : Nat) : (s.readPos p).rlen = s.rlen := by simp only [State.readPos, State.writePos_rlen]
@[simp] theorem State.readPos_rpos (p : Nat) : (s.readPos p).rpos = s.rpos := by simp only [State.readPos, State.writePos_rpos]
@[simp] theorem State.readPos_wbuf (p : Nat) : (s.readPos p).wbuf = s.wbuf := by simp only [State.readPos, State.writePos_wbuf]
@[simp] theorem State.readPos_wlen (p : Nat) : (s.readPos p).wlen = s.wlen := by simp only [State.readPos, State.writePos_wlen]
@[simp] theorem State.readPos_wfin (p : Nat) : (s.readPos p).wfin = s.wfin := by simp only [State.readPos, State.writePos_wfin]
@[simp] theorem State.readPos_arm (p : Nat) : (s.readPos p).arm = s.arm := by simp only [State.readPos, State.writePos_arm]
@[simp] theorem State.readPos_armlen (p : Nat) : (s.readPos p).armlen = s.armlen := by simp only [State.readPos, State.writePos_armlen]
@[simp] theorem State.readPos_fill (p : Nat) : (s.readPos p).fill = s.fill := by simp only [State.readPos, State.writePos_fill]
@[simp] theorem State.readPos_fr (p : Nat) : (s.readPos p).fr = s.fr := by simp only [State.readPos, State.writePos_fr]
@[simp] theorem State.readPos_msgOk (p : Nat) : (s.readPos p).msgOk = s.msgOk := by simp only [State.readPos, State.writePos_msgOk]
@[simp] theorem State.readPos_opa (p : Nat) : (s.readPos p).opa = s.opa := by simp only [State.readPos, State.writePos_opa]
@[simp] theorem State.readPos_opb (p : Nat) : (s.readPos p).opb = s.opb := by simp only [State.readPos, State.writePos_opb]
@[simp] theorem State.readPos_dega (p : Nat) : (s.readPos p).dega = s.dega := by simp only [State.readPos, State.writePos_dega]
@[simp] theorem State.readPos_degb (p : Nat) : (s.readPos p).degb = s.degb := by simp only [State.readPos, State.writePos_degb]
@[simp] theorem State.readPos_status (p : Nat) : (s.readPos p).status = s.status := by simp only [State.readPos, State.writePos_status]
@[simp] theorem State.readPos_info (p : Nat) : (s.readPos p).info = s.info := by simp only [State.readPos, State.writePos_info]
@[simp] theorem State.readPos_res (p : Nat) : (s.readPos p).res = s.res := by simp only [State.readPos, State.writePos_res]
@[simp] theorem State.readPos_deglon (p : Nat) : (s.readPos p).deglon = s.deglon := by simp only [State.readPos, State.writePos_deglon]
@[simp] theorem State.readPos_deglat (p : Nat) : (s.readPos p).deglat = s.deglat := by simp only [State.readPos, State.writePos_deglat]
@[simp] theorem State.readPos_pending (p : Nat) : (s.readPos p).pending = s.pending := by simp only [State.readPos, State.writePos_pending]
@[simp] theorem State.readPos_draws (p : Nat) : (s.readPos p).draws = s.draws := by simp only [State.readPos, State.writePos_draws]
@[simp] theorem State.readPos_epoch (p : Nat) : (s.readPos p).epoch = s.epoch := by simp only [State.readPos, State.writePos_epoch]

/-! ## `State.readEntry` -/

@[simp] theorem State.readEntry_cfg (p : Nat) (e : Entry) : (s.readEntry p e).cfg = s.cfg := by
  cases e <;> simp only [State.readEntry, State.writeFr_cfg, State.readPos_cfg]
@[simp] theorem State.readEntry_rbuf (p : Nat) (e : Entry) : (s.readEntry p e).rbuf = s.rbuf := by
  cases e <;> simp only [State.readEntry, State.writeFr_rbuf, State.readPos_rbuf]
@[simp] theorem State.readEntry_rlen (p : Nat) (e : Entry) : (s.readEntry p e).rlen = s.rlen := by
  cases e <;> simp only [State.readEntry, State.writeFr_rlen, State.readPos_rlen]
@[simp] theorem State.readEntry_rpos (p : Nat) (e : Entry) : (s.readEntry p e).rpos = s.rpos := by
  cases e <;> simp only [State.readEntry, State.writeFr_rpos, State.readPos_rpos]
@[simp] theorem State.readEntry_wbuf (p : Nat) (e : Entry) : (s.readEntry p e).wbuf = s.wbuf := by
  cases e <;> simp only [State.readEntry, State.writeFr_wbuf, State.readPos_wbuf]
@[simp] theorem State.readEntry_wlen (p : Nat) (e : Entry) : (s.readEntry p e).wlen = s.wlen := by
  cases e <;> simp only [State.readEntry, State.writeFr_wlen, State.readPos_wlen]
@[simp] theorem State.readEntry_wfin (p : Nat) (e : Entry) : (s.readEntry p e).wfin = s.wfin := by
  cases e <;> simp only [State.readEntry, State.writeFr_wfin, State.readPos_wfin]
@[simp] theorem State.readEntry_arm (p : Nat) (e : Entry) : (s.readEntry p e).arm = s.arm := by
  cases e <;> simp only [State.readEntry, State.writeFr_arm, State.readPos_arm]
@[simp] theorem State.readEntry_armlen (p : Nat) (e : Entry) : (s.readEntry p e).armlen = s.armlen := by
  cases e <;> simp only [State.readEntry, State.writeFr_armlen, State.readPos_armlen]
@[simp] theorem State.readEntry_fill (p : Nat) (e : Entry) : (s.readEntry p e).fill = s.fill := by
  cases e <;> simp only [State.readEntry, State.writeFr_fill, State.readPos_fill]
@[simp] theorem State.readEntry_msgOk (p : Nat) (e : Entry) : (s.readEntry p e).msgOk = s.msgOk := by
  cases e <;> simp only [State.readEntry, State.writeFr_msgOk, State.readPos_msgOk]
@[simp] theorem State.readEntry_opa (p : Nat) (e : Entry) : (s.readEntry p e).opa = s.opa := by
  cases e <;> simp only [State.readEntry, State.writeFr_opa, State.readPos_opa]
@[simp] theorem State.readEntry_opb (p : Nat) (e : Entry) : (s.readEntry p e).opb = s.opb := by
  cases e <;> simp only [State.readEntry, State.writeFr_opb, State.readPos_opb]
@[simp] theorem State.readEntry_dega (p : Nat) (e : Entry) : (s.readEntry p e).dega = s.dega := by
  cases e <;> simp only [State.readEntry, State.writeFr_dega, State.readPos_dega]
@[simp] theorem State.readEntry_degb (p : Nat) (e : Entry) : (s.readEntry p e).degb = s.degb := by
  cases e <;> simp only [State.readEntry, State.writeFr_degb, State.readPos_degb]
@[simp] theorem State.readEntry_status (p : Nat) (e : Entry) : (s.readEntry p e).status = s.status := by
  cases e <;> simp only [State.readEntry, State.writeFr_status, State.readPos_status]
@[simp] theorem State.readEntry_info (p : Nat) (e : Entry) : (s.readEntry p e).info = s.info := by
  cases e <;> simp only [State.readEntry, State.writeFr_info, State.readPos_info]
@[simp] theorem State.readEntry_res (p : Nat) (e : Entry) : (s.readEntry p e).res = s.res := by
  cases e <;> simp only [State.readEntry, State.writeFr_res, State.readPos_res]
@[simp] theorem State.readEntry_deglon (p : Nat) (e : Entry) : (s.readEntry p e).deglon = s.deglon := by
  cases e <;> simp only [State.readEntry, State.writeFr_deglon, State.readPos_deglon]
@[simp] theorem State.readEntry_deglat (p : Nat) (e : Entry) : (s.readEntry p e).deglat = s.deglat := by
  cases e <;> simp only [State.readEntry, State.writeFr_deglat, State.readPos_deglat]
@[simp] theorem State.readEntry_pending (p : Nat) (e : Entry) : (s.readEntry p e).pending = s.pending := by
  cases e <;> simp only [State.readEntry, State.writeFr_pending, State.readPos_pending]
@[simp] theorem State.readEntry_draws (p : Nat) (e : Entry) : (s.readEntry p e).draws = s.draws := by
  cases e <;> simp only [State.readEntry, State.writeFr_draws, State.readPos_draws]
@[simp] theorem State.readEntry_epoch (p : Nat) (e : Entry) : (s.readEntry p e).epoch = s.epoch := by
  cases e <;> simp only [State.readEntry, State.writeFr_epoch, State.readPos_epoch]

/-! ## `State.walkDec` -/

@[simp] theorem State.walkDec_cfg (p : Nat) (es : List Entry) : (s.walkDec p es).cfg = s.cfg := by
  induction es generalizing s p with
  | nil => rfl
  | cons e es ih => simp only [State.walkDec, ih, State.readEntry_cfg]
@[simp] theorem State.walkDec_rbuf (p : Nat) (es : List Entry) : (s.walkDec p es).rbuf = s.rbuf := by
  induction es generalizing s p with
  | nil => rfl
  | cons e es ih => simp only [State.walkDec, ih, State.readEntry_rbuf]
@[simp] theorem State.walkDec_rlen (p : Nat) (es : List Entry) : (s.walkDec p es).rlen = s.rlen := by
  induction es generalizing s p with
  | nil => rfl
  | cons e es ih => simp only [State.walkDec, ih, State.readEntry_rlen]
@[simp] theorem State.walkDec_rpos (p : Nat) (es : List Entry) : (s.walkDec p es).rpos = s.rpos := by
  induction es generalizing s p with
  | nil => rfl
  | cons e es ih => simp only [State.walkDec, ih, State.readEntry_rpos]
@[simp] theorem State.walkDec_wbuf (p : Nat) (es : List Entry) : (s.walkDec p es).wbuf = s.wbuf := by
  induction es generalizing s p with
  | nil => rfl
  | cons e es ih => simp only [State.walkDec, ih, State.readEntry_wbuf]
@[simp] theorem State.walkDec_wlen (p : Nat) (es : List Entry) : (s.walkDec p es).wlen = s.wlen := by
  induction es generalizing s p with
  | nil => rfl
  | cons e es ih => simp only [State.walkDec, ih, State.readEntry_wlen]
@[simp] theorem State.walkDec_wfin (p : Nat) (es : List Entry) : (s.walkDec p es).wfin = s.wfin := by
  induction es generalizing s p with
  | nil => rfl
  | cons e es ih => simp only [State.walkDec, ih, State.readEntry_wfin]
@[simp] theorem State.walkDec_arm (p : Nat) (es : List Entry) : (s.walkDec p es).arm = s.arm := by
  induction es generalizing s p with
  | nil => rfl
  | cons e es ih => simp only [State.walkDec, ih, State.readEntry_arm]
@[simp] theorem State.walkDec_armlen (p : Nat) (es : List Entry) : (s.walkDec p es).armlen = s.armlen := by
  induction es generalizing s p with
  | nil => rfl
  | cons e es ih => simp only [State.walkDec, ih, State.readEntry_armlen]
@[simp] theorem State.walkDec_fill (p : Nat) (es : List Entry) : (s.walkDec p es).fill = s.fill := by
  induction es generalizing s p with
  | nil => rfl
  | cons e es ih => simp only [State.walkDec, ih, State.readEntry_fill]
@[simp] theorem State.walkDec_msgOk (p : Nat) (es : List Entry) : (s.walkDec p es).msgOk = s.msgOk := by
  induction es generalizing s p with
  | nil => rfl
  | cons e es ih => simp only [State.walkDec, ih, State.readEntry_msgOk]
@[simp] theorem State.walkDec_opa (p : Nat) (es : List Entry) : (s.walkDec p es).opa = s.opa := by
  induction es generalizing s p with
  | nil => rfl
  | cons e es ih => simp only [State.walkDec, ih, State.readEntry_opa]
@[simp] theorem State.walkDec_opb (p : Nat) (es : List Entry) : (s.walkDec p es).opb = s.opb := by
  induction es generalizing s p with
  | nil => rfl
  | cons e es ih => simp only [State.walkDec, ih, State.readEntry_opb]
@[simp] theorem State.walkDec_dega (p : Nat) (es : List Entry) : (s.walkDec p es).dega = s.dega := by
  induction es generalizing s p with
  | nil => rfl
  | cons e es ih => simp only [State.walkDec, ih, State.readEntry_dega]
@[simp] theorem State.walkDec_degb (p : Nat) (es : List Entry) : (s.walkDec p es).degb = s.degb := by
  induction es generalizing s p with
  | nil => rfl
  | cons e es ih => simp only [State.walkDec, ih, State.readEntry_degb]
@[simp] theorem State.walkDec_status (p : Nat) (es : List Entry) : (s.walkDec p es).status = s.status := by
  induction es generalizing s p with
  | nil => rfl
  | cons e es ih => simp only [State.walkDec, ih, State.readEntry_status]
@[simp] theorem State.walkDec_info (p : Nat) (es : List Entry) : (s.walkDec p es).info = s.info := by
  induction es generalizing s p with
  | nil => rfl
  | cons e es ih => simp only [State.walkDec, ih, State.readEntry_info]
@[simp] theorem State.walkDec_res (p : Nat) (es : List Entry) : (s.walkDec p es).res = s.res := by
  induction es generalizing s p with
  | nil => rfl
  | cons e es ih => simp only [State.walkDec, ih, State.readEntry_res]
@[simp] theorem State.walkDec_deglon (p : Nat) (es : List Entry) : (s.walkDec p es).deglon = s.deglon := by
  induction es generalizing s p with
  | nil => rfl
  | cons e es ih => simp only [State.walkDec, ih, State.readEntry_deglon]
@[simp] theorem State.walkDec_deglat (p : Nat) (es : List Entry) : (s.walkDec p es).deglat = s.deglat := by
  induction es generalizing s p with
  | nil => rfl
  | cons e es ih => simp only [State.walkDec, ih, State.readEntry_deglat]
@[simp] theorem State.walkDec_pending (p : Nat) (es : List Entry) : (s.walkDec p es).pending = s.pending := by
  induction es generalizing s p with
  | nil => rfl
  | cons e es ih => simp only [State.walkDec, ih, State.readEntry_pending]
@[simp] theorem State.walkDec_draws (p : Nat) (es : List Entry) : (s.walkDec p es).draws = s.draws := by
  induction es generalizing s p with
  | nil => rfl
  | cons e es ih => simp only [State.walkDec, ih, State.readEntry_draws]
@[simp] theorem State.walkDec_epoch (p : Nat) (es : List Entry) : (s.walkDec p es).epoch = s.epoch := by
  induction es generalizing s p with
  | nil => rfl
  | cons e es ih => simp only [State.walkDec, ih, State.readEntry_epoch]

end Sys2Proof.Machine
end

