-- ==== Sys2Proof/Laws/Ops.lean ====
section
/-! SUPPORT. What each shared operation does, said once: reading fields, registers, how a command ends, the writer, the
walks, the dispatch. -/

namespace Sys2Proof.Machine

variable (s t : State)

/-! ## Reading fields (R41, R93) -/

@[simp] theorem State.readRbuf_zero (p : Nat) : s.readRbuf p 0 = [] := rfl

theorem State.readRbuf_succ (p w : Nat) : s.readRbuf p (w + 1) = s.rbufBit p :: s.readRbuf (p + 1) w := rfl

@[simp] theorem State.readRbuf_length (p w : Nat) : (s.readRbuf p w).length = w := by
  induction w generalizing p with
  | zero => rfl
  | succ w ih => simp [State.readRbuf_succ, ih]

/-- Bit `k` of a field is the cell `p + k` (R41). -/
theorem State.readRbuf_getElem? (p w k : Nat) (h : k < w) : (s.readRbuf p w)[k]? = some (s.rbufBit (p + k)) := by
  induction w generalizing p k with
  | zero => omega
  | succ w ih =>
    cases k with
    | zero => simp [State.readRbuf_succ]
    | succ k =>
      rw [State.readRbuf_succ, List.getElem?_cons_succ, ih _ _ (by omega)]
      congr 2
      omega

/-- Fields follow one another (R41, R95 a). -/
theorem State.readRbuf_add (p a b : Nat) : s.readRbuf p (a + b) = s.readRbuf p a ++ s.readRbuf (p + a) b := by
  induction a generalizing p with
  | zero => simp
  | succ a ih =>
    rw [Nat.add_right_comm, State.readRbuf_succ, State.readRbuf_succ, ih, List.cons_append, Nat.add_assoc, Nat.add_comm 1 a]

/-- A field depends on its cells only. -/
theorem State.readRbuf_congr (p q w : Nat) (h : ∀ k, k < w → s.rbufBit (p + k) = t.rbufBit (q + k)) :
    s.readRbuf p w = t.readRbuf q w := by
  apply List.ext_getElem?
  intro k
  by_cases hk : k < w
  · rw [State.readRbuf_getElem? _ _ _ _ hk, State.readRbuf_getElem? _ _ _ _ hk, h k hk]
  · rw [List.getElem?_eq_none (by simpa using hk), List.getElem?_eq_none (by simpa using hk)]

theorem State.fieldU_lt (p w : Nat) : s.fieldU p w < 2 ^ w := by
  have := beUint_lt (s.readRbuf p w)
  rwa [State.readRbuf_length] at this

theorem State.fitsUnsigned_fieldU (p w : Nat) : fitsUnsigned (s.fieldU p w) w = true := by
  rw [fitsUnsigned_iff]
  exact ⟨by positivity, by exact_mod_cast s.fieldU_lt p w⟩

theorem State.fitsSigned_fieldS (p w : Nat) (hw : 1 ≤ w) : fitsSigned (s.fieldS p w) w = true :=
  fitsSigned_sext w _ hw (s.fieldU_lt p w)

/-- The bits of an unsigned field are the pattern of its value (R119 d). -/
@[simp] theorem State.unsignedBits_fieldU (p w : Nat) : unsignedBits (s.fieldU p w) w = s.readRbuf p w := by
  have := unsignedBits_beUint (s.readRbuf p w)
  rwa [State.readRbuf_length] at this

/-- The bits of a two's-complement field are the pattern of its value (R119 d). -/
@[simp] theorem State.signedBits_fieldS (p w : Nat) : signedBits (s.fieldS p w) w = s.readRbuf p w := by
  have := signedBits_sext (s.readRbuf p w)
  rwa [State.readRbuf_length] at this

/-! ## Registers (R15, R18) -/

theorem toInt_ofInt_28 (v : Int) (h : fitsSigned v 28 = true) : (BitVec.ofInt 28 v).toInt = v := by
  rw [fitsSigned_iff] at h
  rw [BitVec.toInt_ofInt]
  exact Int.bmod_eq_of_le (by norm_num at h ⊢; omega) (by norm_num at h ⊢; omega)

theorem toInt_ofInt_27 (v : Int) (h : fitsSigned v 27 = true) : (BitVec.ofInt 27 v).toInt = v := by
  rw [fitsSigned_iff] at h
  rw [BitVec.toInt_ofInt]
  exact Int.bmod_eq_of_le (by norm_num at h ⊢; omega) (by norm_num at h ⊢; omega)

theorem State.readFr_writeFr_same (i : Nat) (v : Int) (h : i < s.fr.length) : (s.writeFr i v).readFr i = v := by
  simp [State.readFr, h]

theorem State.readFr_writeFr_ne (i j : Nat) (v : Int) (h : j ≠ i) : (s.writeFr i v).readFr j = s.readFr j := by
  simp [State.readFr, List.getElem?_set_ne (Ne.symm h)]

@[simp] theorem State.writeFr_fr_length (i : Nat) (v : Int) : (s.writeFr i v).fr.length = s.fr.length := by simp

theorem State.readFr_congr (h : s.fr = t.fr) (i : Nat) : s.readFr i = t.readFr i := by
  rw [State.readFr, h, State.readFr]

/-- A register that exists, as an entry of the list of them. -/
theorem State.getElem?_eq_readFr (i : Nat) (h : i < s.fr.length) : s.fr[i]? = some (s.readFr i) := by
  simp [State.readFr, h]

/-! ## How a command ends (R8, R224) -/

@[simp] theorem State.complete_ok : s.complete (.ok t) = t.done := rfl

@[simp] theorem State.complete_error (e : Failure) : s.complete (.error e) = s.raise e := rfl

/-- A code is never 0: `STATUS` tells a failure from a success (R22). -/
theorem Failure.code_ne_zero (e : Failure) : e.code ≠ 0 := by cases e <;> simp [Failure.code]

theorem Failure.code_le (e : Failure) : e.code.toNat ≤ 6 := by cases e <;> simp [Failure.code]

/-- `INFO` is 0 but for UnsupportedMessageType (R22, R221). -/
theorem Failure.info_zero (e : Failure) (h : e.code ≠ 3) : e.info = 0 := by
  cases e <;> first | rfl | exact absurd rfl h

/-! ## The cursor and the writer (R93, R113) -/

theorem legalWidth_iff (c : Config) (w : BitVec 6) : legalWidth c w = true ↔ 1 ≤ w.toNat ∧ w.toNat ≤ c.wMax := by
  simp [legalWidth]

theorem State.extracting_cases (need : Nat) (t : State) :
    (s.rlen < s.rpos + need ∧ s.extracting need t = .error .truncatedPayload) ∨
      (s.rpos + need ≤ s.rlen ∧ s.extracting need t = .ok t) := by
  unfold State.extracting State.truncated
  by_cases h : s.rlen < s.rpos + need
  · exact .inl ⟨h, by simp [h]⟩
  · exact .inr ⟨by omega, by simp [h]⟩

theorem State.appending_cases (fits : Bool) (bs : Bits) :
    (s.wfin = true ∧ s.appending fits bs = .error .writerFinalized) ∨
      (s.wfin = false ∧ fits = false ∧ s.appending fits bs = .error .fieldOverflow) ∨
      (s.wfin = false ∧ fits = true ∧ s.appending fits bs = .ok (s.append bs)) := by
  unfold State.appending
  cases s.wfin <;> cases fits <;> simp

/-- The cells an append writes (R112). -/
theorem State.append_get?_inside (bs : Bits) (k : Nat) (h : k < bs.length) :
    Mem.get? (s.append bs).wbuf (s.wlen + k) = bs[k]? := Mem.get?_write_inside _ _ _ _ h

/-- The cells an append leaves alone. -/
theorem State.append_get?_outside (bs : Bits) (a : Nat) (h : a < s.wlen ∨ s.wlen + bs.length ≤ a) :
    Mem.get? (s.append bs).wbuf a = Mem.get? s.wbuf a := Mem.get?_write_outside _ _ _ _ h

theorem fillCount_le (n : Nat) : fillCount n ≤ 5 := by unfold fillCount; omega

theorem armlen_eq (n : Nat) : (n + fillCount n) / 6 = (n + 5) / 6 := by unfold fillCount; omega

@[simp] theorem State.armorText_length : s.armorText.length = (s.wlen + fillCount s.wlen) / 6 := by
  simp [State.armorText]

/-- The unsigned field as the sum of R41. -/
theorem State.fieldU_eq_sum (p w : Nat) :
    s.fieldU p w = ∑ k ∈ Finset.range w, (s.rbufBit (p + k)).toNat * 2 ^ (w - 1 - k) := by
  rw [State.fieldU, beUint_eq_sum, State.readRbuf_length]
  apply Finset.sum_congr rfl
  intro k hk
  rw [List.getD_eq_getElem?_getD, State.readRbuf_getElem? _ _ _ _ (Finset.mem_range.mp hk), Option.getD_some]

/-- The group of six bits as the sum of R42, R115. -/
theorem State.group_eq_sum (i : Nat) :
    s.group i = ∑ k ∈ Finset.range 6,
      (if 6 * i + k < s.wlen then s.wbufBit (6 * i + k) else false).toNat * 2 ^ (6 - 1 - k) := by
  rw [State.group, beUint_eq_sum, List.length_map, List.length_range]
  apply Finset.sum_congr rfl
  intro k hk
  have := Finset.mem_range.mp hk
  simp [this]

/-- The cells an append of a value that fits writes, as bits of the value (R112). -/
theorem State.append_unsigned (v : Int) (w k : Nat) (hk : k < w) (h : fitsUnsigned v w = true) :
    Mem.get? (s.append (unsignedBits v w)).wbuf (s.wlen + k) = some (decide (v / 2 ^ (w - 1 - k) % 2 = 1)) := by
  rw [s.append_get?_inside _ _ (by simpa using hk), unsignedBits_getElem? v w k hk h]

/-- The cells a signed append writes, as bits of the value (R114). -/
theorem State.append_signed (v : Int) (w k : Nat) (hk : k < w) :
    Mem.get? (s.append (signedBits v w)).wbuf (s.wlen + k) = some (decide (v / 2 ^ (w - 1 - k) % 2 = 1)) := by
  rw [s.append_get?_inside _ _ (by simpa using hk), signedBits_getElem? v w k hk]

/-! ## The walks (R151) -/

@[simp] theorem State.walkDec_nil (p : Nat) : s.walkDec p [] = s := rfl

theorem State.walkDec_cons (p : Nat) (e : Entry) (es : List Entry) :
    s.walkDec p (e :: es) = (s.readEntry p e).walkDec (p + e.width) es := rfl

@[simp] theorem State.readEntry_fr_length (p : Nat) (e : Entry) : (s.readEntry p e).fr.length = s.fr.length := by
  cases e <;> simp [State.readEntry]

@[simp] theorem State.walkDec_fr_length (p : Nat) (es : List Entry) : (s.walkDec p es).fr.length = s.fr.length := by
  induction es generalizing s p with
  | nil => rfl
  | cons e es ih => rw [State.walkDec_cons, ih, State.readEntry_fr_length]

theorem State.readEntry_readFr_ne (p : Nat) (e : Entry) (i : Nat) (h : e.dest? ≠ some i) :
    (s.readEntry p e).readFr i = s.readFr i := by
  cases e with
  | u d w => exact s.readFr_writeFr_ne d i _ (fun e => h (by simp [Entry.dest?, e]))
  | s d w => exact s.readFr_writeFr_ne d i _ (fun e => h (by simp [Entry.dest?, e]))
  | pos => exact State.readFr_congr _ _ (by simp only [State.readEntry, State.readPos_fr]) i

/-- A walk leaves the registers it does not name alone (R203). -/
theorem State.walkDec_readFr_of_notMem (p : Nat) (es : List Entry) (i : Nat) (h : i ∉ es.filterMap Entry.dest?) :
    (s.walkDec p es).readFr i = s.readFr i := by
  induction es generalizing s p with
  | nil => rfl
  | cons e es ih =>
    rw [State.walkDec_cons, ih, State.readEntry_readFr_ne]
    · intro he
      exact h (List.mem_filterMap.mpr ⟨e, by simp, he⟩)
    · intro hm
      obtain ⟨x, hx, hd⟩ := List.mem_filterMap.mp hm
      exact h (List.mem_filterMap.mpr ⟨x, by simp [hx], hd⟩)

@[simp] theorem State.entryBits_length (e : Entry) : (s.entryBits e).length = e.width := by
  cases e <;> simp [State.entryBits, State.posBits, Entry.width]

@[simp] theorem tailbits_nil : tailbits [] = 0 := rfl

@[simp] theorem tailbits_cons (e : Entry) (es : List Entry) : tailbits (e :: es) = e.width + tailbits es := by
  simp [tailbits]

@[simp] theorem State.walkEncBits_nil : s.walkEncBits [] = [] := rfl

@[simp] theorem State.walkEncBits_cons (e : Entry) (es : List Entry) :
    s.walkEncBits (e :: es) = s.entryBits e ++ s.walkEncBits es := by simp [State.walkEncBits]

@[simp] theorem State.walkEncBits_length (es : List Entry) : (s.walkEncBits es).length = tailbits es := by
  induction es with
  | nil => rfl
  | cons e es ih => simp [ih]

@[simp] theorem State.headerBits_length : s.headerBits.length = 38 := by simp [State.headerBits]

@[simp] theorem State.posBits_length : s.posBits.length = 55 := by simp [State.posBits]

/-- The bits of an entry depend on its own register only. -/
theorem State.entryBits_congr (e : Entry) (hf : ∀ d, e.dest? = some d → s.readFr d = t.readFr d)
    (hp : e = .pos → s.posLon = t.posLon ∧ s.posLat = t.posLat) : s.entryBits e = t.entryBits e := by
  cases e with
  | u d w => simp [State.entryBits, hf d rfl]
  | s d w => simp [State.entryBits, hf d rfl]
  | pos => simp [State.entryBits, State.posBits, hp rfl]

/-- Reading an entry into a register that exists and writing it again gives its bits back (R119 d, R151). -/
theorem State.entryBits_readEntry (p : Nat) (e : Entry) (h : ∀ d, e.dest? = some d → d < s.fr.length) :
    (s.readEntry p e).entryBits e = s.readRbuf p e.width := by
  cases e with
  | u d w =>
    simp only [State.entryBits, State.readEntry, Entry.width, s.readFr_writeFr_same d _ (h d rfl),
      State.unsignedBits_fieldU]
  | s d w =>
    simp only [State.entryBits, State.readEntry, Entry.width, s.readFr_writeFr_same d _ (h d rfl),
      State.signedBits_fieldS]
  | pos =>
    have h1 := toInt_ofInt_28 _ (s.fitsSigned_fieldS p 28 (by norm_num))
    have h2 := toInt_ofInt_27 _ (s.fitsSigned_fieldS (p + 28) 27 (by norm_num))
    simp only [State.entryBits, State.readEntry, State.posBits, State.readPos, State.writePos_posLon,
      State.writePos_posLat, h1, h2, State.signedBits_fieldS, Entry.width]
    rw [← State.readRbuf_add]

/-- What an entry reads fits its width (R97 a, R151). -/
theorem State.entryFits_readEntry (c : Config) (p : Nat) (e : Entry) (hw : e.wf c = true)
    (h : ∀ d, e.dest? = some d → d < s.fr.length) : (s.readEntry p e).entryFits e = true := by
  cases e with
  | u d w =>
    simp only [State.entryFits, State.readEntry, s.readFr_writeFr_same d _ (h d rfl)]
    exact s.fitsUnsigned_fieldU p w
  | s d w =>
    have hw : 1 ≤ w ∧ w ≤ c.wMax := of_decide_eq_true hw
    simp only [State.entryFits, State.readEntry, s.readFr_writeFr_same d _ (h d rfl)]
    exact s.fitsSigned_fieldS p w hw.1
  | pos => rfl

/-! ## The dispatch (R202) -/

theorem State.selectRow_cases (id : Int) :
    (s.cfg.selects id = true ∧ s.selectRow id = .ok (s.cfg.row id.toNat)) ∨
      (s.cfg.selects id = false ∧ s.selectRow id = .error (.unsupportedMessageType (idMod64 id))) := by
  unfold State.selectRow
  cases h : s.cfg.selects id <;> simp

end Sys2Proof.Machine
end

