-- ==== Sys2Proof/Laws/Commands.lean ====
section
/-! SUPPORT. Every command's ends, said once: the tests in their order, and the state each end leaves (R224, R230). -/

namespace Sys2Proof.Machine

variable (s : State)

/-! ## Reader unit -/

theorem exec_rbind_cases :
    (0 ≤ s.opa ∧ s.opa ≤ s.cfg.rbufBits ∧
        exec .rbind s = .next { s with rlen := s.opa.toNat, rpos := 0 }.done) ∨
      (¬ (0 ≤ s.opa ∧ s.opa ≤ s.cfg.rbufBits) ∧ exec .rbind s = .next (s.raise .illegalCommand)) := by
  simp only [exec, execRbind]
  by_cases h : 0 ≤ s.opa ∧ s.opa ≤ (s.cfg.rbufBits : Int)
  · rw [if_pos h]
    exact .inl ⟨h.1, h.2, rfl⟩
  · rw [if_neg h]
    exact .inr ⟨h, rfl⟩

theorem exec_extu_cases (w : BitVec 6) (hw : legalWidth s.cfg w = true) :
    (s.rlen < s.rpos + w.toNat ∧ exec (.extu w) s = .next (s.raise .truncatedPayload)) ∨
      (s.rpos + w.toNat ≤ s.rlen ∧
        exec (.extu w) s = .next ((s.setRes (s.fieldU s.rpos w.toNat)).advance w.toNat).done) := by
  simp only [exec, execExtu, hw, if_true]
  rcases s.extracting_cases w.toNat ((s.setRes (s.fieldU s.rpos w.toNat)).advance w.toNat) with ⟨h, e⟩ | ⟨h, e⟩
  · exact .inl ⟨h, by rw [e, State.complete_error]⟩
  · exact .inr ⟨h, by rw [e, State.complete_ok]⟩

theorem exec_exts_cases (w : BitVec 6) (hw : legalWidth s.cfg w = true) :
    (s.rlen < s.rpos + w.toNat ∧ exec (.exts w) s = .next (s.raise .truncatedPayload)) ∨
      (s.rpos + w.toNat ≤ s.rlen ∧
        exec (.exts w) s = .next ((s.setRes (s.fieldS s.rpos w.toNat)).advance w.toNat).done) := by
  simp only [exec, execExts, hw, if_true]
  rcases s.extracting_cases w.toNat ((s.setRes (s.fieldS s.rpos w.toNat)).advance w.toNat) with ⟨h, e⟩ | ⟨h, e⟩
  · exact .inl ⟨h, by rw [e, State.complete_error]⟩
  · exact .inr ⟨h, by rw [e, State.complete_ok]⟩

/-- An illegal width in exec (log 12). -/
theorem exec_illegal_width (w : BitVec 6) (hw : legalWidth s.cfg w = false) (i : Instr)
    (hi : i = .extu w ∨ i = .exts w ∨ i = .appu w ∨ i = .apps w) : exec i s = .next (s.raise .illegalCommand) := by
  rcases hi with rfl | rfl | rfl | rfl <;> simp [exec, execExtu, execExts, execAppu, execApps, hw]

/-! ## Writer unit -/

/-- The ends of a command that is one appending operation. -/
theorem State.complete_appending_cases (fits : Bool) (bs : Bits) :
    (s.wfin = true ∧ s.complete (s.appending fits bs) = s.raise .writerFinalized) ∨
      (s.wfin = false ∧ fits = false ∧ s.complete (s.appending fits bs) = s.raise .fieldOverflow) ∨
      (s.wfin = false ∧ fits = true ∧ s.complete (s.appending fits bs) = (s.append bs).done) := by
  rcases s.appending_cases fits bs with ⟨h, e⟩ | ⟨h, h', e⟩ | ⟨h, h', e⟩
  · exact .inl ⟨h, by rw [e, State.complete_error]⟩
  · exact .inr (.inl ⟨h, h', by rw [e, State.complete_error]⟩)
  · exact .inr (.inr ⟨h, h', by rw [e, State.complete_ok]⟩)

theorem exec_wnew_eq : exec .wnew s = .next s.newWriter.done := rfl

theorem exec_appu_eq (w : BitVec 6) (hw : legalWidth s.cfg w = true) : exec (.appu w) s =
    .next (s.complete (s.appending (fitsUnsigned s.opa w.toNat) (unsignedBits s.opa w.toNat))) := by
  simp [exec, execAppu, hw]

theorem exec_apps_eq (w : BitVec 6) (hw : legalWidth s.cfg w = true) : exec (.apps w) s =
    .next (s.complete (s.appending (fitsSigned s.opa w.toNat) (signedBits s.opa w.toNat))) := by
  simp [exec, execApps, hw]

theorem exec_fin_cases :
    (s.wfin = true ∧ exec .fin s = .next s.done) ∨ (s.wfin = false ∧ exec .fin s = .next s.finalize.done) := by
  cases h : s.wfin <;> simp [exec, execFin, h]

theorem exec_posenc_eq : exec .posenc s = .next (s.complete (s.appending true s.posBits)) := rfl

theorem exec_hdrenc_eq : exec .hdrenc s = .next (s.complete (s.appending s.headerFits s.headerBits)) := rfl

/-! ## Position unit -/

theorem exec_posdec_cases :
    (s.rlen < s.rpos + 55 ∧ exec .posdec s = .next (s.raise .truncatedPayload)) ∨
      (s.rpos + 55 ≤ s.rlen ∧ exec .posdec s = .next ((s.readPos s.rpos).advance 55).clearMsgOk.done) := by
  simp only [exec, execPosdec]
  rcases s.extracting_cases 55 ((s.readPos s.rpos).advance 55).clearMsgOk with ⟨h, e⟩ | ⟨h, e⟩
  · exact .inl ⟨h, by rw [e, State.complete_error]⟩
  · exact .inr ⟨h, by rw [e, State.complete_ok]⟩

/-- The ends of POSSETR and POSSETD. -/
theorem State.complete_setPosition_cases (lon lat : Int) :
    (fitsSigned lon 28 = true ∧ fitsSigned lat 27 = true ∧
        s.complete (s.setPosition lon lat) = (s.writePos lon lat).clearMsgOk.done) ∨
      ((fitsSigned lon 28 && fitsSigned lat 27) = false ∧
        s.complete (s.setPosition lon lat) = s.raise .fieldOverflow) := by
  unfold State.setPosition
  cases h1 : fitsSigned lon 28 <;> cases h2 : fitsSigned lat 27 <;> simp

theorem exec_possetr_eq : exec .possetr s = .next (s.complete (s.setPosition s.opa s.opb)) := rfl

theorem exec_possetd_eq :
    exec .possetd s = .next (s.complete (s.setPosition (s.cfg.deg2rawLon s.dega) (s.cfg.deg2rawLat s.degb))) := rfl

/-! ## Layout unit -/

theorem exec_hdrdec_cases :
    (s.rlen < s.rpos + 38 ∧ exec .hdrdec s = .next (s.raise .truncatedPayload)) ∨
      (s.rpos + 38 ≤ s.rlen ∧ exec .hdrdec s = .next ((s.readHeader s.rpos).advance 38).clearMsgOk.done) := by
  simp only [exec, execHdrdec]
  rcases s.extracting_cases 38 ((s.readHeader s.rpos).advance 38).clearMsgOk with ⟨h, e⟩ | ⟨h, e⟩
  · exact .inl ⟨h, by rw [e, State.complete_error]⟩
  · exact .inr ⟨h, by rw [e, State.complete_ok]⟩

theorem tailbits_row18 : tailbits row18.entries = 130 := rfl

/-- TAILDEC's ends, for the row `FR[0]` selects (R158). -/
theorem exec_taildec_cases (r : Row) (hr : s.cfg.row (s.readFr 0).toNat = r) :
    (s.cfg.selects (s.readFr 0) = false ∧
        exec .taildec s = .next (s.raise (.unsupportedMessageType (idMod64 (s.readFr 0))))) ∨
      (s.cfg.selects (s.readFr 0) = true ∧ s.rlen ≠ r.explen ∧
        exec .taildec s = .next (s.raise .wrongPayloadLength)) ∨
      (s.cfg.selects (s.readFr 0) = true ∧ s.rlen = r.explen ∧ s.rlen < s.rpos + tailbits r.entries ∧
        exec .taildec s = .next (s.raise .truncatedPayload)) ∨
      (s.cfg.selects (s.readFr 0) = true ∧ s.rlen = r.explen ∧ s.rpos + tailbits r.entries ≤ s.rlen ∧
        exec .taildec s =
          .next ((s.walkDec s.rpos r.entries).advance (tailbits r.entries)).clearMsgOk.done) := by
  subst hr
  generalize hr : s.cfg.row (s.readFr 0).toNat = r
  simp only [exec, execTaildec]
  rcases s.selectRow_cases (s.readFr 0) with ⟨h, e⟩ | ⟨h, e⟩ <;> rw [e]
  · rw [hr]
    simp only [Except.bind, State.decodeTail]
    by_cases hl : s.rlen = r.explen
    · rw [if_neg (not_not_intro hl)]
      rcases s.extracting_cases (tailbits r.entries)
        ((s.walkDec s.rpos r.entries).advance (tailbits r.entries)).clearMsgOk with ⟨h', e⟩ | ⟨h', e⟩
      · exact .inr (.inr (.inl ⟨h, hl, h', by rw [e, State.complete_error]⟩))
      · exact .inr (.inr (.inr ⟨h, hl, h', by rw [e, State.complete_ok]⟩))
    · rw [if_pos hl]
      exact .inr (.inl ⟨h, hl, rfl⟩)
  · exact .inl ⟨h, rfl⟩

/-- TAILENC's ends, for the row `FR[0]` selects (R159). -/
theorem exec_tailenc_cases (r : Row) (hr : s.cfg.row (s.readFr 0).toNat = r) :
    (s.wfin = true ∧ exec .tailenc s = .next (s.raise .writerFinalized)) ∨
      (s.wfin = false ∧ s.cfg.selects (s.readFr 0) = false ∧
        exec .tailenc s = .next (s.raise (.unsupportedMessageType (idMod64 (s.readFr 0))))) ∨
      (s.wfin = false ∧ s.cfg.selects (s.readFr 0) = true ∧ r.entries.all s.entryFits = false ∧
        exec .tailenc s = .next (s.raise .fieldOverflow)) ∨
      (s.wfin = false ∧ s.cfg.selects (s.readFr 0) = true ∧ r.entries.all s.entryFits = true ∧
        exec .tailenc s = .next (s.append (s.walkEncBits r.entries)).done) := by
  simp only [exec, execTailenc, State.encodeTail]
  cases hf : s.wfin
  · rw [if_neg Bool.false_ne_true]
    rcases s.selectRow_cases (s.readFr 0) with ⟨h, e⟩ | ⟨h, e⟩ <;> rw [e]
    · rw [hr]
      simp only [Except.bind]
      rcases s.appending_cases (r.entries.all s.entryFits) (s.walkEncBits r.entries) with
        ⟨h', _⟩ | ⟨_, h', e⟩ | ⟨_, h', e⟩
      · rw [hf] at h'
        cases h'
      · exact .inr (.inr (.inl ⟨trivial, h, h', by rw [e, State.complete_error]⟩))
      · exact .inr (.inr (.inr ⟨trivial, h, h', by rw [e, State.complete_ok]⟩))
    · exact .inr (.inl ⟨rfl, h, rfl⟩)
  · exact .inl ⟨rfl, rfl⟩

/-! ## Dispatch unit -/

/-- The state a DECODE of row `r` that succeeds leaves (R203). -/
def State.decoded (s : State) (r : Row) : State :=
  State.setMsgOk { (s.readHeader 0).walkDec 38 r.entries with rpos := 38 + tailbits r.entries }

/-- What a DECODE that succeeds writes, and that it writes nothing else. -/
theorem State.decoded_eq (r : Row) : s.decoded r =
    { s with fr := (s.decoded r).fr, posLon := (s.decoded r).posLon, posLat := (s.decoded r).posLat,
             rpos := 38 + tailbits r.entries, msgOk := true } := by
  ext1 <;> simp [State.decoded]

theorem State.decoded_fr (r : Row) : (s.decoded r).fr = ((s.readHeader 0).walkDec 38 r.entries).fr := by
  simp only [State.decoded, State.setMsgOk_fr]

theorem State.decoded_posLon (r : Row) : (s.decoded r).posLon = ((s.readHeader 0).walkDec 38 r.entries).posLon := by
  simp only [State.decoded, State.setMsgOk_posLon]

theorem State.decoded_posLat (r : Row) : (s.decoded r).posLat = ((s.readHeader 0).walkDec 38 r.entries).posLat := by
  simp only [State.decoded, State.setMsgOk_posLat]

/-- DECODE's ends, for the row the identifier selects (R204). -/
theorem exec_decode_cases (r : Row) (hr : s.cfg.row (s.fieldU 0 6) = r) :
    (s.rlen < 38 ∧ exec .decode s = .next (State.failDecode { s with rpos := 0 } .truncatedPayload)) ∨
      (38 ≤ s.rlen ∧ s.cfg.selects (s.fieldU 0 6) = false ∧ exec .decode s =
        .next (State.failDecode { s with rpos := 0 } (.unsupportedMessageType (idMod64 (s.fieldU 0 6))))) ∨
      (38 ≤ s.rlen ∧ s.cfg.selects (s.fieldU 0 6) = true ∧ s.rlen ≠ r.explen ∧
        exec .decode s = .next (State.failDecode { s with rpos := 0 } .wrongPayloadLength)) ∨
      (38 ≤ s.rlen ∧ s.cfg.selects (s.fieldU 0 6) = true ∧ s.rlen = r.explen ∧
        exec .decode s = .next (s.decoded r).done) := by
  simp only [exec, execDecode, State.decodeMessage]
  by_cases h : s.rlen < 38
  · rw [if_pos h]
    exact .inl ⟨h, rfl⟩
  · rw [if_neg h]
    rcases s.selectRow_cases (s.fieldU 0 6) with ⟨hi, e⟩ | ⟨hi, e⟩ <;> rw [e]
    · rw [Int.toNat_natCast, hr]
      simp only [Except.bind]
      by_cases hl : s.rlen = r.explen
      · rw [if_neg (not_not_intro hl)]
        exact .inr (.inr (.inr ⟨by omega, hi, hl, rfl⟩))
      · rw [if_pos hl]
        exact .inr (.inr (.inl ⟨by omega, hi, hl, rfl⟩))
    · exact .inr (.inl ⟨by omega, hi, rfl⟩)

/-- The bits of a message of row `r` (R205). -/
def State.messageBits (s : State) (r : Row) : Bits := s.headerBits ++ s.walkEncBits r.entries

@[simp] theorem State.messageBits_length (r : Row) : (s.messageBits r).length = 38 + tailbits r.entries := by
  simp [State.messageBits]

/-- ENCODE's ends, for the row `FR[0]` selects (R205). -/
theorem exec_encode_cases (r : Row) (hr : s.cfg.row (s.readFr 0).toNat = r) :
    ((s.readFr 0 < 0 ∨ 63 < s.readFr 0) ∧ exec .encode s = .next (s.raise .fieldOverflow)) ∨
      (0 ≤ s.readFr 0 ∧ s.readFr 0 ≤ 63 ∧ s.cfg.selects (s.readFr 0) = false ∧
        exec .encode s = .next (s.raise (.unsupportedMessageType (idMod64 (s.readFr 0))))) ∨
      (s.cfg.selects (s.readFr 0) = true ∧ (s.headerRestFits && r.entries.all s.entryFits) = false ∧
        exec .encode s = .next (s.raise .fieldOverflow)) ∨
      (s.cfg.selects (s.readFr 0) = true ∧ s.headerRestFits = true ∧ r.entries.all s.entryFits = true ∧
        exec .encode s = .next (s.newWriter.append (s.messageBits r)).finalize.done) := by
  simp only [exec, execEncode, State.encodeMessage]
  by_cases h : 0 ≤ s.readFr 0 ∧ s.readFr 0 ≤ 63
  · rw [if_neg (by simp [isIdentifier, h])]
    rcases s.selectRow_cases (s.readFr 0) with ⟨hi, e⟩ | ⟨hi, e⟩ <;> rw [e]
    · rw [hr]
      simp only [Except.bind]
      cases h1 : s.headerRestFits <;> cases h2 : r.entries.all s.entryFits <;>
        simp [hi, State.messageBits]
    · exact .inr (.inl ⟨h.1, h.2, hi, rfl⟩)
  · rw [if_pos (by simp [isIdentifier]; omega)]
    exact .inl ⟨by omega, rfl⟩

end Sys2Proof.Machine
end

