-- ==== Sys2Proof/Laws/Effects.lean ====
section
/-! SUPPORT. Every command ends in one of three ways: a failure it can raise with no other effect, a failed DECODE, or
its effect, said whole (R221, R224). -/

namespace Sys2Proof.Machine

/-- The states a command that succeeds can leave, before `done()`: its guard and what it writes. -/
def Effect (i : Instr) (s u : State) : Prop :=
  match i with
  | .rbind => 0 ≤ s.opa ∧ s.opa ≤ s.cfg.rbufBits ∧ u = { s with rlen := s.opa.toNat, rpos := 0 }
  | .extu w => legalWidth s.cfg w = true ∧ s.rpos + w.toNat ≤ s.rlen ∧
      u = (s.setRes (s.fieldU s.rpos w.toNat)).advance w.toNat
  | .exts w => legalWidth s.cfg w = true ∧ s.rpos + w.toNat ≤ s.rlen ∧
      u = (s.setRes (s.fieldS s.rpos w.toNat)).advance w.toNat
  | .wnew => u = s.newWriter
  | .appu w => s.wfin = false ∧ fitsUnsigned s.opa w.toNat = true ∧ u = s.append (unsignedBits s.opa w.toNat)
  | .apps w => s.wfin = false ∧ fitsSigned s.opa w.toNat = true ∧ u = s.append (signedBits s.opa w.toNat)
  | .fin => (s.wfin = true ∧ u = s) ∨ (s.wfin = false ∧ u = s.finalize)
  | .posdec => s.rpos + 55 ≤ s.rlen ∧ u = ((s.readPos s.rpos).advance 55).clearMsgOk
  | .posenc => s.wfin = false ∧ u = s.append s.posBits
  | .posavl => u = s.setRes s.posAvailable
  | .possetr => fitsSigned s.opa 28 = true ∧ fitsSigned s.opb 27 = true ∧ u = (s.writePos s.opa s.opb).clearMsgOk
  | .possetd => fitsSigned (s.cfg.deg2rawLon s.dega) 28 = true ∧ fitsSigned (s.cfg.deg2rawLat s.degb) 27 = true ∧
      u = (s.writePos (s.cfg.deg2rawLon s.dega) (s.cfg.deg2rawLat s.degb)).clearMsgOk
  | .posdeg => u = { s with deglon := s.cfg.degrees s.posLon.toInt, deglat := s.cfg.degrees s.posLat.toInt }
  | .hdrdec => s.rpos + 38 ≤ s.rlen ∧ u = ((s.readHeader s.rpos).advance 38).clearMsgOk
  | .hdrenc => s.wfin = false ∧ s.headerFits = true ∧ u = s.append s.headerBits
  | .taildec => ∃ r, s.cfg.selects (s.readFr 0) = true ∧ s.cfg.row (s.readFr 0).toNat = r ∧ s.rlen = r.explen ∧
      s.rpos + tailbits r.entries ≤ s.rlen ∧
      u = ((s.walkDec s.rpos r.entries).advance (tailbits r.entries)).clearMsgOk
  | .tailenc => ∃ r, s.wfin = false ∧ s.cfg.selects (s.readFr 0) = true ∧ s.cfg.row (s.readFr 0).toNat = r ∧
      r.entries.all s.entryFits = true ∧ u = s.append (s.walkEncBits r.entries)
  | .sogv => u = s.setRes (if s.readFr 4 < 1023 then 1 else 0)
  | .cogv => u = s.setRes (if s.readFr 6 < 3600 then 1 else 0)
  | .hdgv => u = s.setRes (if s.readFr 7 < 360 then 1 else 0)
  | .posv => u = s.setRes s.posAvailable
  | .utcst => u = s.setRes (utcStatus (s.readFr 8))
  | .decode => ∃ r, s.cfg.selects (s.fieldU 0 6) = true ∧ s.cfg.row (s.fieldU 0 6) = r ∧ s.rlen = r.explen ∧
      u = s.decoded r
  | .encode => ∃ r, s.cfg.selects (s.readFr 0) = true ∧ s.cfg.row (s.readFr 0).toNat = r ∧ s.headerRestFits = true ∧
      r.entries.all s.entryFits = true ∧ u = (s.newWriter.append (s.messageBits r)).finalize

/-- The failures a command other than DECODE can raise (R221). -/
def CanFail (c : Config) (i : Instr) (e : Failure) : Prop :=
  match i with
  | .rbind => e = .illegalCommand
  | .extu _ => e = .truncatedPayload ∨ (e = .illegalCommand ∧ i.wf c = false)
  | .exts _ => e = .truncatedPayload ∨ (e = .illegalCommand ∧ i.wf c = false)
  | .appu _ => e = .writerFinalized ∨ e = .fieldOverflow ∨ (e = .illegalCommand ∧ i.wf c = false)
  | .apps _ => e = .writerFinalized ∨ e = .fieldOverflow ∨ (e = .illegalCommand ∧ i.wf c = false)
  | .posdec => e = .truncatedPayload
  | .posenc => e = .writerFinalized
  | .possetr => e = .fieldOverflow
  | .possetd => e = .fieldOverflow
  | .hdrdec => e = .truncatedPayload
  | .hdrenc => e = .writerFinalized ∨ e = .fieldOverflow
  | .taildec => e = .truncatedPayload ∨ e = .wrongPayloadLength ∨ ∃ n, e = .unsupportedMessageType n
  | .tailenc => e = .writerFinalized ∨ e = .fieldOverflow ∨ ∃ n, e = .unsupportedMessageType n
  | .encode => e = .fieldOverflow ∨ ∃ n, e = .unsupportedMessageType n
  | .wnew => False
  | .fin => False
  | .posavl => False
  | .posdeg => False
  | .sogv => False
  | .cogv => False
  | .hdgv => False
  | .posv => False
  | .utcst => False
  | .decode => False

/-- The ends of a command that is one append. -/
theorem appending_ends (i : Instr) (s t : State) (f : Bool) (bs : Bits)
    (hi : ∀ u, s.wfin = false ∧ f = true ∧ u = s.append bs → Effect i s u)
    (hF : CanFail s.cfg i .writerFinalized) (hG : f = false → CanFail s.cfg i .fieldOverflow)
    (h : s.complete (s.appending f bs) = t) : (∃ e, CanFail s.cfg i e ∧ t = s.raise e) ∨ ∃ u, Effect i s u ∧ t = u.done := by
  rcases s.complete_appending_cases f bs with ⟨h1, e⟩ | ⟨h1, h', e⟩ | ⟨h1, h', e⟩
  · exact .inl ⟨_, hF, h.symm.trans e⟩
  · exact .inl ⟨_, hG h', h.symm.trans e⟩
  · exact .inr ⟨_, hi _ ⟨h1, h', rfl⟩, h.symm.trans e⟩

theorem next_inj {a b : State} : (Host.Outcome.next a : Result) = .next b ↔ a = b := by simp

/-- Every command's end. -/
theorem exec_ends (i : Instr) (s t : State) (h : exec i s = .next t) :
    (i ≠ .decode ∧ ∃ e, CanFail s.cfg i e ∧ t = s.raise e) ∨
      (i = .decode ∧ ∃ e, (e = .truncatedPayload ∨ e = .wrongPayloadLength ∨ ∃ n, e = .unsupportedMessageType n) ∧
        t = State.failDecode { s with rpos := 0 } e) ∨
      ∃ u, Effect i s u ∧ t = u.done := by
  by_cases hd : i = .decode
  · subst hd
    rcases exec_decode_cases s _ rfl with ⟨h1, e⟩ | ⟨h1, h2, e⟩ | ⟨h1, h2, h3, e⟩ | ⟨h1, h2, h3, e⟩ <;> rw [e, next_inj] at h
    · exact .inr (.inl ⟨rfl, _, .inl rfl, h.symm⟩)
    · exact .inr (.inl ⟨rfl, _, .inr (.inr ⟨_, rfl⟩), h.symm⟩)
    · exact .inr (.inl ⟨rfl, _, .inr (.inl rfl), h.symm⟩)
    · exact .inr (.inr ⟨_, ⟨_, h2, rfl, h3, rfl⟩, h.symm⟩)
  · suffices (∃ e, CanFail s.cfg i e ∧ t = s.raise e) ∨ ∃ u, Effect i s u ∧ t = u.done from this.imp (⟨hd, ·⟩) .inr
    cases i with
    | decode => exact absurd rfl hd
    | rbind =>
      rcases exec_rbind_cases s with ⟨h1, h2, e⟩ | ⟨h1, e⟩ <;> rw [e, next_inj] at h
      · exact .inr ⟨_, ⟨h1, h2, rfl⟩, h.symm⟩
      · exact .inl ⟨_, rfl, h.symm⟩
    | extu w =>
      by_cases hw : legalWidth s.cfg w = true
      · rcases exec_extu_cases s w hw with ⟨h1, e⟩ | ⟨h1, e⟩ <;> rw [e, next_inj] at h
        · exact .inl ⟨_, .inl rfl, h.symm⟩
        · exact .inr ⟨_, ⟨hw, h1, rfl⟩, h.symm⟩
      · rw [exec_illegal_width s w (by simpa using hw) _ (.inl rfl), next_inj] at h
        exact .inl ⟨_, .inr ⟨rfl, by simpa [Instr.wf] using hw⟩, h.symm⟩
    | exts w =>
      by_cases hw : legalWidth s.cfg w = true
      · rcases exec_exts_cases s w hw with ⟨h1, e⟩ | ⟨h1, e⟩ <;> rw [e, next_inj] at h
        · exact .inl ⟨_, .inl rfl, h.symm⟩
        · exact .inr ⟨_, ⟨hw, h1, rfl⟩, h.symm⟩
      · rw [exec_illegal_width s w (by simpa using hw) _ (.inr (.inl rfl)), next_inj] at h
        exact .inl ⟨_, .inr ⟨rfl, by simpa [Instr.wf] using hw⟩, h.symm⟩
    | appu w =>
      by_cases hw : legalWidth s.cfg w = true
      · rw [exec_appu_eq s w hw, next_inj] at h
        exact appending_ends _ s t _ _ (fun _ => id) (.inl rfl) (fun _ => .inr (.inl rfl)) h
      · rw [exec_illegal_width s w (by simpa using hw) _ (.inr (.inr (.inl rfl))), next_inj] at h
        exact .inl ⟨_, .inr (.inr ⟨rfl, by simpa [Instr.wf] using hw⟩), h.symm⟩
    | apps w =>
      by_cases hw : legalWidth s.cfg w = true
      · rw [exec_apps_eq s w hw, next_inj] at h
        exact appending_ends _ s t _ _ (fun _ => id) (.inl rfl) (fun _ => .inr (.inl rfl)) h
      · rw [exec_illegal_width s w (by simpa using hw) _ (.inr (.inr (.inr rfl))), next_inj] at h
        exact .inl ⟨_, .inr (.inr ⟨rfl, by simpa [Instr.wf] using hw⟩), h.symm⟩
    | wnew => exact .inr ⟨_, rfl, (next_inj.1 h).symm⟩
    | fin =>
      rcases exec_fin_cases s with ⟨h1, e⟩ | ⟨h1, e⟩ <;> rw [e, next_inj] at h
      · exact .inr ⟨_, .inl ⟨h1, rfl⟩, h.symm⟩
      · exact .inr ⟨_, .inr ⟨h1, rfl⟩, h.symm⟩
    | posdec =>
      rcases exec_posdec_cases s with ⟨h1, e⟩ | ⟨h1, e⟩ <;> rw [e, next_inj] at h
      · exact .inl ⟨_, rfl, h.symm⟩
      · exact .inr ⟨_, ⟨h1, rfl⟩, h.symm⟩
    | posenc =>
      rw [exec_posenc_eq, next_inj] at h
      exact appending_ends _ s t true _ (fun _ h => ⟨h.1, h.2.2⟩) rfl (fun h => nomatch h) h
    | possetr =>
      rw [exec_possetr_eq, next_inj] at h
      rcases s.complete_setPosition_cases s.opa s.opb with ⟨h1, h2, e⟩ | ⟨_, e⟩
      · exact .inr ⟨_, ⟨h1, h2, rfl⟩, h.symm.trans e⟩
      · exact .inl ⟨_, rfl, h.symm.trans e⟩
    | possetd =>
      rw [exec_possetd_eq, next_inj] at h
      rcases s.complete_setPosition_cases (s.cfg.deg2rawLon s.dega) (s.cfg.deg2rawLat s.degb) with ⟨h1, h2, e⟩ | ⟨_, e⟩
      · exact .inr ⟨_, ⟨h1, h2, rfl⟩, h.symm.trans e⟩
      · exact .inl ⟨_, rfl, h.symm.trans e⟩
    | posdeg => exact .inr ⟨_, rfl, (next_inj.1 h).symm⟩
    | posavl => exact .inr ⟨_, rfl, (next_inj.1 h).symm⟩
    | sogv => exact .inr ⟨_, rfl, (next_inj.1 h).symm⟩
    | cogv => exact .inr ⟨_, rfl, (next_inj.1 h).symm⟩
    | hdgv => exact .inr ⟨_, rfl, (next_inj.1 h).symm⟩
    | posv => exact .inr ⟨_, rfl, (next_inj.1 h).symm⟩
    | utcst => exact .inr ⟨_, rfl, (next_inj.1 h).symm⟩
    | hdrdec =>
      rcases exec_hdrdec_cases s with ⟨h1, e⟩ | ⟨h1, e⟩ <;> rw [e, next_inj] at h
      · exact .inl ⟨_, rfl, h.symm⟩
      · exact .inr ⟨_, ⟨h1, rfl⟩, h.symm⟩
    | hdrenc =>
      rw [exec_hdrenc_eq, next_inj] at h
      exact appending_ends _ s t _ _ (fun _ => id) (.inl rfl) (fun _ => .inr rfl) h
    | taildec =>
      rcases exec_taildec_cases s _ rfl with ⟨_, e⟩ | ⟨_, _, e⟩ | ⟨_, _, h1, e⟩ | ⟨h0, hl, h1, e⟩ <;> rw [e, next_inj] at h
      · exact .inl ⟨_, .inr (.inr ⟨_, rfl⟩), h.symm⟩
      · exact .inl ⟨_, .inr (.inl rfl), h.symm⟩
      · exact .inl ⟨_, .inl rfl, h.symm⟩
      · exact .inr ⟨_, ⟨_, h0, rfl, hl, h1, rfl⟩, h.symm⟩
    | tailenc =>
      rcases exec_tailenc_cases s _ rfl with ⟨_, e⟩ | ⟨_, _, e⟩ | ⟨_, _, h1, e⟩ | ⟨h0, h2, h1, e⟩ <;> rw [e, next_inj] at h
      · exact .inl ⟨_, .inl rfl, h.symm⟩
      · exact .inl ⟨_, .inr (.inr ⟨_, rfl⟩), h.symm⟩
      · exact .inl ⟨_, .inr (.inl rfl), h.symm⟩
      · exact .inr ⟨_, ⟨_, h0, h2, rfl, h1, rfl⟩, h.symm⟩
    | encode =>
      rcases exec_encode_cases s _ rfl with ⟨_, e⟩ | ⟨_, _, _, e⟩ | ⟨_, h1, e⟩ | ⟨h0, h2, h1, e⟩ <;> rw [e, next_inj] at h
      · exact .inl ⟨_, .inl rfl, h.symm⟩
      · exact .inl ⟨_, .inr ⟨_, rfl⟩, h.symm⟩
      · exact .inl ⟨_, .inl rfl, h.symm⟩
      · exact .inr ⟨_, ⟨_, h0, rfl, h2, h1, rfl⟩, h.symm⟩

end Sys2Proof.Machine
end

