-- ==== Sys2Proof/Laws/PerInstr.lean ====
section
/-! SUPPORT. A fact of each command as syntax: its word carries its operation code and its low byte (R61). -/

namespace Sys2Proof.Laws.EncodeFields

/-- The word of a command carries its operation code in bits 15:8 and its low byte in bits 7:0 (R61). -/
def Statement (i : Instr) : Prop := opField (encode i) = i.op ∧ z8Field (encode i) = i.lowByte

theorem fields_append (a b : BitVec 8) : opField (a ++ b) = a ∧ z8Field (a ++ b) = b := by
  have bit (k : Nat) : (show CommandWord from a ++ b).getLsbD k = if k < 8 then b.getLsbD k else a.getLsbD (k - 8) :=
    BitVec.getLsbD_append
  constructor
  · unfold opField
    ext k hk
    rw [BitVec.getElem_extractLsb', bit, if_neg (by omega), Nat.add_sub_cancel_left, BitVec.getLsbD_eq_getElem hk]
  · unfold z8Field
    ext k hk
    rw [BitVec.getElem_extractLsb', bit, Nat.zero_add, if_pos hk, BitVec.getLsbD_eq_getElem hk]

theorem of_any (i : Instr) : Statement i := fields_append i.op i.lowByte

theorem rbind : Statement .rbind := of_any _
theorem extu (w : BitVec 6) : Statement (.extu w) := of_any _
theorem exts (w : BitVec 6) : Statement (.exts w) := of_any _
theorem wnew : Statement .wnew := of_any _
theorem appu (w : BitVec 6) : Statement (.appu w) := of_any _
theorem apps (w : BitVec 6) : Statement (.apps w) := of_any _
theorem fin : Statement .fin := of_any _
theorem posdec : Statement .posdec := of_any _
theorem posenc : Statement .posenc := of_any _
theorem posavl : Statement .posavl := of_any _
theorem possetr : Statement .possetr := of_any _
theorem possetd : Statement .possetd := of_any _
theorem posdeg : Statement .posdeg := of_any _
theorem hdrdec : Statement .hdrdec := of_any _
theorem hdrenc : Statement .hdrenc := of_any _
theorem taildec : Statement .taildec := of_any _
theorem tailenc : Statement .tailenc := of_any _
theorem sogv : Statement .sogv := of_any _
theorem cogv : Statement .cogv := of_any _
theorem hdgv : Statement .hdgv := of_any _
theorem posv : Statement .posv := of_any _
theorem utcst : Statement .utcst := of_any _
theorem decode : Statement .decode := of_any _
theorem encode : Statement .encode := of_any _

end Sys2Proof.Laws.EncodeFields
end

