-- ==== Sys2Proof/Laws/Rows.lean ====
section
/-! SUPPORT. The layout sequencer and the header: what the walks of a row read and write, entry by entry (R151, R155). -/

namespace Sys2Proof.Machine

variable (s t : State)

/-- A walk over entries that follow one another (R151). -/
theorem State.walkDec_append (p : Nat) (as bs : List Entry) :
    s.walkDec p (as ++ bs) = (s.walkDec p as).walkDec (p + tailbits as) bs := by
  induction as generalizing s p with
  | nil => rfl
  | cons e es ih => rw [List.cons_append, State.walkDec_cons, State.walkDec_cons, ih, tailbits_cons, Nat.add_assoc]

theorem State.walkEncBits_append (as bs : List Entry) :
    s.walkEncBits (as ++ bs) = s.walkEncBits as ++ s.walkEncBits bs := by simp [State.walkEncBits]

/-- Where the bits of an entry stand in what the encoding walk writes (R151). -/
theorem State.walkEncBits_getElem? (as bs : List Entry) (e : Entry) (k : Nat) (hk : k < e.width) :
    (s.walkEncBits (as ++ e :: bs))[tailbits as + k]? = (s.entryBits e)[k]? := by
  rw [State.walkEncBits_append, State.walkEncBits_cons, List.getElem?_append_right (by simp),
    List.getElem?_append_left (by simp [hk])]
  congr 1
  simp

/-- A walk reads the bits its state had before it. -/
theorem State.walkDec_fieldU (p : Nat) (es : List Entry) (q w : Nat) : (s.walkDec p es).fieldU q w = s.fieldU q w := by
  rw [State.fieldU, State.fieldU]
  exact congrArg _ (State.readRbuf_congr _ _ _ _ _ fun k _ => by simp [State.rbufBit])

theorem State.walkDec_fieldS (p : Nat) (es : List Entry) (q w : Nat) : (s.walkDec p es).fieldS q w = s.fieldS q w := by
  rw [State.fieldS, State.fieldS, State.walkDec_fieldU]

/-- A walk that names no position leaves the position alone. -/
theorem State.walkDec_pos_of_notMem (p : Nat) (es : List Entry) (h : .pos ∉ es) :
    (s.walkDec p es).posLon = s.posLon ∧ (s.walkDec p es).posLat = s.posLat := by
  induction es generalizing s p with
  | nil => exact ⟨rfl, rfl⟩
  | cons e es ih =>
    rw [State.walkDec_cons]
    have h' := ih (s.readEntry p e) (p + e.width) (fun hm => h (List.mem_cons_of_mem _ hm))
    rw [h'.1, h'.2]
    cases e with
    | u d w => exact ⟨rfl, rfl⟩
    | s d w => exact ⟨rfl, rfl⟩
    | pos => exact absurd (List.mem_cons_self) h

/-- An entry that no entry after it overwrites reads as it was written. -/
theorem State.walkDec_entryBits (p : Nat) (e : Entry) (es : List Entry)
    (hd : ∀ d, e.dest? = some d → d ∉ es.filterMap Entry.dest?) (hp : e = .pos → .pos ∉ es) :
    (s.walkDec p es).entryBits e = s.entryBits e := by
  refine State.entryBits_congr _ _ e (fun d h => s.walkDec_readFr_of_notMem p es d (hd d h)) (fun h => ?_)
  exact s.walkDec_pos_of_notMem p es (hp h)

theorem State.entryFits_congr (e : Entry) (hf : ∀ d, e.dest? = some d → s.readFr d = t.readFr d) :
    s.entryFits e = t.entryFits e := by
  cases e with
  | u d w => simp only [State.entryFits, hf d rfl]
  | s d w => simp only [State.entryFits, hf d rfl]
  | pos => rfl

/-- What a `U` entry of a walk leaves in its register, if no entry after it names the register (R151). -/
theorem State.walkDec_readFr_u (p : Nat) (as bs : List Entry) (d w : Nat) (hl : d < s.fr.length)
    (hd : d ∉ bs.filterMap Entry.dest?) :
    (s.walkDec p (as ++ .u d w :: bs)).readFr d = s.fieldU (p + tailbits as) w := by
  rw [State.walkDec_append, State.walkDec_cons, State.walkDec_readFr_of_notMem _ _ _ _ hd]
  simp only [State.readEntry]
  rw [State.readFr_writeFr_same _ _ _ (by rwa [State.walkDec_fr_length]), State.walkDec_fieldU]

/-- What a `S` entry of a walk leaves in its register, if no entry after it names the register (R151). -/
theorem State.walkDec_readFr_s (p : Nat) (as bs : List Entry) (d w : Nat) (hl : d < s.fr.length)
    (hd : d ∉ bs.filterMap Entry.dest?) :
    (s.walkDec p (as ++ .s d w :: bs)).readFr d = s.fieldS (p + tailbits as) w := by
  rw [State.walkDec_append, State.walkDec_cons, State.walkDec_readFr_of_notMem _ _ _ _ hd]
  simp only [State.readEntry]
  rw [State.readFr_writeFr_same _ _ _ (by rwa [State.walkDec_fr_length]), State.walkDec_fieldS]

theorem State.readPos_toInt (p : Nat) :
    (s.readPos p).posLon.toInt = s.fieldS p 28 ∧ (s.readPos p).posLat.toInt = s.fieldS (p + 28) 27 := by
  simp only [State.readPos, State.writePos_posLon, State.writePos_posLat]
  exact ⟨toInt_ofInt_28 _ (s.fitsSigned_fieldS p 28 (by norm_num)),
    toInt_ofInt_27 _ (s.fitsSigned_fieldS (p + 28) 27 (by norm_num))⟩

/-- What the position entry of a walk leaves in the position registers (R151). -/
theorem State.walkDec_pos (p : Nat) (as bs : List Entry) (h : .pos ∉ bs) :
    (s.walkDec p (as ++ .pos :: bs)).posLon.toInt = s.fieldS (p + tailbits as) 28 ∧
      (s.walkDec p (as ++ .pos :: bs)).posLat.toInt = s.fieldS (p + tailbits as + 28) 27 := by
  rw [State.walkDec_append, State.walkDec_cons]
  obtain ⟨e1, e2⟩ := State.walkDec_pos_of_notMem
    ((s.walkDec p as).readEntry (p + tailbits as) .pos) (p + tailbits as + Entry.pos.width) bs h
  rw [e1, e2, ← State.walkDec_fieldS s p as, ← State.walkDec_fieldS s p as]
  exact State.readPos_toInt _ _

@[simp] theorem State.readHeader_fr_length (p : Nat) : (s.readHeader p).fr.length = s.fr.length := by
  simp only [State.readHeader, State.writeFr_fr_length]

/-- The header registers after the header is read (R155). -/
theorem State.readHeader_readFr (p : Nat) (hl : 3 ≤ s.fr.length) :
    (s.readHeader p).readFr 0 = s.fieldU p 6 ∧ (s.readHeader p).readFr 1 = s.fieldU (p + 6) 2 ∧
      (s.readHeader p).readFr 2 = s.fieldU (p + 8) 30 ∧
      ∀ i, 3 ≤ i → (s.readHeader p).readFr i = s.readFr i := by
  refine ⟨?_, ?_, ?_, fun i hi => ?_⟩ <;> unfold State.readHeader
  · rw [State.readFr_writeFr_ne _ _ _ _ (by omega), State.readFr_writeFr_ne _ _ _ _ (by omega),
      State.readFr_writeFr_same _ _ _ (by omega)]
  · rw [State.readFr_writeFr_ne _ _ _ _ (by omega), State.readFr_writeFr_same _ _ _ (by rw [State.writeFr_fr_length]; omega)]
  · rw [State.readFr_writeFr_same _ _ _ (by rw [State.writeFr_fr_length, State.writeFr_fr_length]; omega)]
  · rw [State.readFr_writeFr_ne _ _ _ _ (by omega), State.readFr_writeFr_ne _ _ _ _ (by omega),
      State.readFr_writeFr_ne _ _ _ _ (by omega)]

theorem State.readHeader_fieldU (p q w : Nat) : (s.readHeader p).fieldU q w = s.fieldU q w := by
  rw [State.fieldU, State.fieldU]
  exact congrArg _ (State.readRbuf_congr _ _ _ _ _ fun k _ => by simp [State.rbufBit])

theorem State.readHeader_fieldS (p q w : Nat) : (s.readHeader p).fieldS q w = s.fieldS q w := by
  rw [State.fieldS, State.fieldS, State.readHeader_fieldU]

/-- Reading the header writes field registers only. -/
theorem State.readHeader_eq (p : Nat) : s.readHeader p = { s with fr := (s.readHeader p).fr } := by
  ext1 <;> simp only [State.readHeader_cfg, State.readHeader_rbuf, State.readHeader_rlen, State.readHeader_rpos, State.readHeader_wbuf,
    State.readHeader_wlen, State.readHeader_wfin, State.readHeader_arm, State.readHeader_armlen,
    State.readHeader_fill, State.readHeader_posLon, State.readHeader_posLat, State.readHeader_msgOk,
    State.readHeader_opa, State.readHeader_opb, State.readHeader_dega, State.readHeader_degb,
    State.readHeader_status, State.readHeader_info, State.readHeader_res, State.readHeader_deglon,
    State.readHeader_deglat, State.readHeader_pending, State.readHeader_draws, State.readHeader_epoch]

/-- A walk writes field registers and the position only. -/
theorem State.walkDec_eq (p : Nat) (es : List Entry) : s.walkDec p es =
    { s with fr := (s.walkDec p es).fr, posLon := (s.walkDec p es).posLon, posLat := (s.walkDec p es).posLat } := by
  ext1 <;> simp only [State.walkDec_cfg, State.walkDec_rbuf, State.walkDec_rlen, State.walkDec_rpos, State.walkDec_wbuf,
    State.walkDec_wlen, State.walkDec_wfin, State.walkDec_arm, State.walkDec_armlen, State.walkDec_fill,
    State.walkDec_msgOk, State.walkDec_opa, State.walkDec_opb, State.walkDec_dega, State.walkDec_degb,
    State.walkDec_status, State.walkDec_info, State.walkDec_res, State.walkDec_deglon, State.walkDec_deglat,
    State.walkDec_pending, State.walkDec_draws, State.walkDec_epoch]

/-- A field whose cells hold an unsigned pattern reads as the value (R119 a). -/
theorem State.fieldU_of_bits (p w : Nat) (v : Int) (hf : fitsUnsigned v w = true)
    (h : s.readRbuf p w = unsignedBits v w) : (s.fieldU p w : Int) = v := by
  rw [State.fieldU, h, beUint_unsignedBits v w hf]

/-- A field whose cells hold a two's-complement pattern reads as the value (R119 a). -/
theorem State.fieldS_of_bits (p w : Nat) (v : Int) (hw : 1 ≤ w) (hf : fitsSigned v w = true)
    (h : s.readRbuf p w = signedBits v w) : s.fieldS p w = v := by
  rw [State.fieldS, State.fieldU, h, sext_signedBits v w hw hf]

/-- Consecutive fields of known bits. -/
theorem State.readRbuf_split (p a b : Nat) (x y : Bits) (hx : x.length = a) (h : s.readRbuf p (a + b) = x ++ y) :
    s.readRbuf p a = x ∧ s.readRbuf (p + a) b = y := by
  rw [State.readRbuf_add] at h
  exact List.append_inj h (by simp [hx])

theorem State.fits_posLon : fitsSigned s.posLon.toInt 28 = true := by
  rw [fitsSigned_iff]
  exact ⟨BitVec.le_toInt s.posLon, BitVec.toInt_lt⟩

theorem State.fits_posLat : fitsSigned s.posLat.toInt 27 = true := by
  rw [fitsSigned_iff]
  exact ⟨BitVec.le_toInt s.posLat, BitVec.toInt_lt⟩

end Sys2Proof.Machine
end

