-- ==== Sys2Proof/Tests/Slice0.lean ====
section
/-! SUPPORT. Tests: ill-formed terms refused, words decoded, one step per command with the results of
`spec/95_test_vectors.md` (V1 to V18, P1 to P6: worked out there by hand or from the source's own numbers), and a witness
that the hypotheses of each statement can be met. -/

namespace Sys2Proof.Tests

open Sys2Proof Sys2Proof.Machine Sys2Proof.Claims

/-! ## Helpers -/

/-- A memory whose cells from `a` on hold the bits given. -/
def cellsFrom (a : Nat) : Bits → Mem Bool
  | [] => []
  | b :: bs => (a, b) :: cellsFrom (a + 1) bs

/-- A memory whose cells from 0 on hold `bs`. -/
def cellsOf (bs : Bits) : Mem Bool := cellsFrom 0 bs

/-- Every register that reset leaves with a free value holds 0. -/
def base : State :=
  { State.reset with
    posLon := 0, posLat := 0, fr := List.replicate 32 0, opa := 0, opb := 0, dega := 0, degb := 0, res := 0
    deglon := 0, deglat := 0 }

/-- A sequence loaded and bound, the cursor at `p`. -/
def bound (bs : Bits) (p : Nat) : State := { base with rbuf := cellsOf bs, rlen := bs.length, rpos := p }

/-- A writer that holds `bs`, finalized or not. -/
def writer (bs : Bits) (fin : Bool) : State := { base with wbuf := cellsOf bs, wlen := bs.length, wfin := fin }

/-- A host write to a field register. -/
def withFr (s : State) (i : Nat) (v : Int) : State := s.writeFr i v

/-- The state after a command, and whether there is one. -/
def run (i : Instr) (s : State) : Option State :=
  match exec i s with
  | .next t => some t
  | .fault _ => none
  | .refused _ => none

/-- What a test looks at after a command. -/
def seen {α : Type} (i : Instr) (s : State) (f : State → α) : Option α := (run i s).map f

/-- The payload of V1. -/
def v1 : Bits := beBits 0x481D6F34540000B3C8D603412140E10FFF800E0006 168

/-- The payload of V3. -/
def v3 : Bits := beBits 0x48509B38BC00016ACECB89747A6431CFFE25DE0006 168

/-- Sequence A of V9. -/
def seqA : Bits := [false, true, false, false, true, false, true]

/-- Sequence B of V9. -/
def seqB : Bits := beBits 0x80000000FF 40

/-- The registers of V1 (the table of V1). -/
def v1Regs : List Int := [18, 0, 123456789, 0, 0, 1, 3600, 511, 60, 0, 0, 0, 0, 0, 0, 0, 0, 1, 393222]

/-- The registers of V3 (the table of V3). -/
def v3Regs : List Int := [18, 0, 338087471, 0, 1, 0, 796, 511, 49, 0, 1, 0, 1, 1, 1, 0, 1, 1, 393222]

/-- A state that holds the message of given registers and position. -/
def message (regs : List Int) (lon lat : Int) : State :=
  { base with
    fr := (List.range 32).map fun i => regs.getD i 0
    posLon := BitVec.ofInt 28 lon
    posLat := BitVec.ofInt 27 lat }

/-- V1 as a message. -/
def m1 : State := message v1Regs 108600000 54600000

/-- V3 as a message. -/
def m3 : State := message v3Regs (-44443279) 24410724

/-- `FR[0 .. 18]`. -/
def regsOf (t : State) : List Int := t.fr.take 19

/-- The character codes of the armored text. -/
def textOf (t : State) : List Nat := t.arm.map fun c => c.2.toNat

/-- A configuration other than the default: a 40-bit `W_MAX`, 40 field registers, a row for identifier 5 with an unsigned, a
signed and a position entry, the armor table reversed, and one degree quotient one unit in the last place too large. -/
def wide : Config :=
  { defaultConfig with
    wMax := 40, opw := 41, nfr := 40, rbufBits := 256, armor := armorTable.reverse
    rows := [(5, { present := true, explen := 142, entries := [.u 35 40, .s 20 9, .pos] })]
    fdivTable := [(600000, 0x3FF0000000000001)] }

/-- `base` in the configuration `wide`. -/
def wideBase : State := { base with cfg := wide, fr := List.replicate 40 0 }

/-- A message of the row of `wide`: identifier 5, repeat 1, source 7, then 2^39 + 1, -3 and the position (1, -1). -/
def wideBits : Bits :=
  beBits (((((5 * 4 + 1) * 2 ^ 30 + 7) * 2 ^ 40 + (2 ^ 39 + 1)) * 2 ^ 9 + 509) * 2 ^ 55 + 2 ^ 27 + (2 ^ 27 - 1)) 142

/-- That message in the registers. -/
def wideMessage : State :=
  { wideBase with
    fr := (((((wideBase.fr.set 0 5).set 1 1).set 2 7).set 35 (2 ^ 39 + 1)).set 20 (-3))
    posLon := 1, posLat := -1 }

/-! ## WellFormed refuses each ill-formed term (R63, R73, R152) -/

theorem test_wf_width_zero : Instr.wf defaultConfig (.extu 0) = false ∧ Instr.wf defaultConfig (.exts 0) = false ∧ Instr.wf defaultConfig (.appu 0) = false ∧
    Instr.wf defaultConfig (.apps 0) = false := by decide
theorem test_wf_width_33 : Instr.wf defaultConfig (.extu 33) = false ∧ Instr.wf defaultConfig (.exts 33) = false ∧ Instr.wf defaultConfig (.appu 33) = false ∧
    Instr.wf defaultConfig (.apps 63) = false := by decide
theorem test_wf_width_limits : Instr.wf defaultConfig (.extu 1) = true ∧ Instr.wf defaultConfig (.apps 32) = true ∧ Instr.wf defaultConfig .fin = true := by decide

/-- R73 (a): `explen` is not 38 plus the entry widths. -/
theorem test_row_explen : Row.wf defaultConfig { row18 with explen := 167 } = false := by decide
/-- R73 (b): longer than the memories. -/
theorem test_row_too_long :
    Row.wf defaultConfig { present := true, explen := 38 + 32 * 31, entries := List.replicate 31 (.u 3 32) } = false := by decide
/-- R73 (c): an entry in a header register, or two entries in one register. -/
theorem test_row_dest : Row.wf defaultConfig { present := true, explen := 46, entries := [.u 2 8] } = false ∧
    Row.wf defaultConfig { present := true, explen := 54, entries := [.u 3 8, .s 3 8] } = false := by decide
/-- R73 (d): a width outside 1 to `W_MAX`. -/
theorem test_row_width : Row.wf defaultConfig { present := true, explen := 38, entries := [.u 3 0] } = false ∧
    Row.wf defaultConfig { present := true, explen := 71, entries := [.s 3 33] } = false := by decide
/-- R73 (e): two positions. -/
theorem test_row_two_positions : Row.wf defaultConfig { present := true, explen := 148, entries := [.pos, .pos] } = false := by decide
/-- R73 (c): an entry in a register the configuration does not have. -/
theorem test_row_no_register : Row.wf defaultConfig { present := true, explen := 39, entries := [.u 32 1] } = false := by decide
/-- R152: a row outside identifiers 1 to 27, another row 18, and a row that breaks R73. -/
theorem test_rom_refused : Config.romWf { defaultConfig with rows := [(28, row18)] } = false ∧
    Config.romWf { defaultConfig with rows := [(18, row18)] } = false ∧
    Config.romWf { defaultConfig with rows := [(5, { row18 with explen := 167 })] } = false := by decide
/-- R118: an alphabet that is too short, not injective, or not printable. -/
theorem test_armor_refused : armorWf (armorTable.take 63) = false ∧ armorWf (armorTable.set 1 48) = false ∧
    armorWf (armorTable.set 0 127) = false := by decide
/-- Quotients that give two raw values the same degrees (1.0 is those of 600000). -/
theorem test_fdiv_refused : Config.fdivWf { defaultConfig with fdivTable := [(1, 0x3FF0000000000000)] } = false := by
  decide +kernel
/-- A supplied quotient that is the default's of an integer past the 28-bit range only: no two raw values share it (R135). -/
theorem test_fdiv_accepted : Config.fdivWf { defaultConfig with fdivTable := [(5, fdiv64 (2 ^ 28) degDiv)] } = true := by
  decide +kernel
/-- R98, R136: a NaN, an infinity or -0.0 as a quotient, and another quotient for 0 or for a sentinel. -/
theorem test_fdiv_corners_refused : ∀ e ∈ [((0 : Int), (0x7FF8000000000000 : Double)), (7, 0x7FF8000000000000),
    (7, 0x7FF0000000000000), (7, 0x8000000000000000), (0, 1), (108600000, 0x4066A00000000001),
    (54600000, 0x4056C00000000001)], Config.fdivWf { defaultConfig with fdivTable := [e] } = false := by decide +kernel
/-- Sizes that do not agree: a width field of 6 bits, a port narrower than a result, a text memory too small. -/
theorem test_sizes_refused : Config.sizesWf { defaultConfig with wMax := 64, opw := 65 } = false ∧
    Config.sizesWf { defaultConfig with opw := 32 } = false ∧ Config.sizesWf { defaultConfig with armChars := 170 } = false := by
  decide
theorem test_wide_wf : wide.wf = true := by decide +kernel
/-- A record that is no configuration is refused at configuration time (U10). -/
theorem test_instances : instancesReset { defaultConfig with opw := 32 } = none ∧
    (instancesReset { defaultConfig with nInst := 2 }).map List.length = some 2 := by decide
/-- Instances and their later draws have different numbers (log 11). -/
theorem test_instances_draws : (instancesReset { defaultConfig with nInst := 2 }).map
    (List.map fun s => (s.epoch, s.draws)) = some [(0, 2), (1, 3)] := by decide

/-! ## Words written out from R61 and R62: `op` in bits 15:8, then `z`, `w` or `z8` -/

theorem test_decode_c0 :
    decode defaultConfig 0b0000000100000000 = .ok .rbind ∧ decode defaultConfig 0b0001000000000000 = .ok .wnew ∧
    decode defaultConfig 0b0001001100000000 = .ok .fin ∧ decode defaultConfig 0b0010000000000000 = .ok .posdec ∧
    decode defaultConfig 0b0010000100000000 = .ok .posenc ∧ decode defaultConfig 0b0010001000000000 = .ok .posavl ∧
    decode defaultConfig 0b0010001100000000 = .ok .possetr ∧ decode defaultConfig 0b0010010000000000 = .ok .possetd ∧
    decode defaultConfig 0b0010010100000000 = .ok .posdeg ∧ decode defaultConfig 0b0011000000000000 = .ok .hdrdec ∧
    decode defaultConfig 0b0011000100000000 = .ok .hdrenc ∧ decode defaultConfig 0b0011001000000000 = .ok .taildec ∧
    decode defaultConfig 0b0011001100000000 = .ok .tailenc ∧ decode defaultConfig 0b0011100000000000 = .ok .sogv ∧
    decode defaultConfig 0b0011100100000000 = .ok .cogv ∧ decode defaultConfig 0b0011101000000000 = .ok .hdgv ∧
    decode defaultConfig 0b0011101100000000 = .ok .posv ∧ decode defaultConfig 0b0011110000000000 = .ok .utcst ∧
    decode defaultConfig 0b0100000000000000 = .ok .decode ∧ decode defaultConfig 0b0100000100000000 = .ok .encode := by decide

theorem test_decode_cw :
    decode defaultConfig 0b0000001000000110 = .ok (.extu 6) ∧ decode defaultConfig 0b0000001000100000 = .ok (.extu 32) ∧
    decode defaultConfig 0b0000001100011100 = .ok (.exts 28) ∧ decode defaultConfig 0b0000001100000001 = .ok (.exts 1) ∧
    decode defaultConfig 0b0001000100010011 = .ok (.appu 19) ∧ decode defaultConfig 0b0001001000100000 = .ok (.apps 32) := by decide

/-- V18: the illegal words. -/
theorem test_decode_illegal :
    decode defaultConfig 0x0200 = .error .widthOutOfRange ∧ decode defaultConfig 0x0221 = .error .widthOutOfRange ∧
    decode defaultConfig 0x023F = .error .widthOutOfRange ∧ decode defaultConfig 0x0246 = .error .nonzeroZ ∧ decode defaultConfig 0x0286 = .error .nonzeroZ ∧
    decode defaultConfig 0x1301 = .error .nonzeroZ8 ∧ decode defaultConfig 0x4020 = .error .nonzeroZ8 ∧ decode defaultConfig 0x0000 = .error .unassignedOp ∧
    decode defaultConfig 0xFFFF = .error .unassignedOp ∧ decode defaultConfig 0x0400 = .error .unassignedOp ∧
    decode defaultConfig 0x1400 = .error .unassignedOp ∧ decode defaultConfig 0x2600 = .error .unassignedOp ∧
    decode defaultConfig 0x3400 = .error .unassignedOp ∧ decode defaultConfig 0x3700 = .error .unassignedOp ∧
    decode defaultConfig 0x3D00 = .error .unassignedOp ∧ decode defaultConfig 0x4200 = .error .unassignedOp := by decide

theorem test_encode_words : encode (.extu 6) = 0x0206 ∧ encode (.apps 28) = 0x121C ∧ encode .encode = 0x4100 := by decide
theorem test_decodeTableWord : decodeTableWord 16 0x1113 = some (.appu 19) ∧ decodeTableWord 16 0x1301 = none := by decide

/-- A width is legal up to the configured `W_MAX`. -/
theorem test_decode_wide : decode wide 0x0228 = .ok (.extu 40) ∧ decode wide 0x0229 = .error .widthOutOfRange ∧
    decode defaultConfig 0x0228 = .error .widthOutOfRange := by decide

/-- R72: the words of row 18, as R72 lists them. -/
theorem test_row18_words : rowHeaderWord row18 = 0x80A80011 ∧ row18.entries.map entryWord =
    [0x0803, 0x0A04, 0x0105, 0x8000, 0x0C06, 0x0907, 0x0608, 0x0209, 0x010A, 0x010B, 0x010C, 0x010D, 0x010E, 0x010F,
     0x0110, 0x0111, 0x1312] := by decide
/-- V18: a hypothetical signed entry, and words that are no entry (R71). -/
theorem test_entry_words : entryWord (.s 20 9) = 0x4914 ∧ readEntryWord defaultConfig 0xC000 = none ∧ readEntryWord defaultConfig 0x0823 = none := by
  decide

/-! ## The step and the host -/

theorem test_step_runs : (match step ((bound seqA 0).withFetchWord 16 0x0206) with
    | .next t => some t.res | .fault _ => none | .refused _ => none) = some 18 := by decide
/-- V18: an illegal word on an unbound reader is 6, not 1. -/
theorem test_step_illegal : (match step (base.withFetchWord 16 0x0200) with
    | .next t => some t.status | .fault _ => none | .refused _ => none) = some 6 := by decide
/-- V10: a load-port write unbinds. -/
theorem test_load_unbinds : (match perform (.load 1023 true) (bound seqA 6) with
    | .next t => some (t.rlen, t.rpos, Mem.get? t.rbuf 1023) | .fault _ => none | .refused _ => none) =
    some (0, 0, some true) := by decide
theorem test_load_outside : perform (.load 1024 true) base = .fault (.loadPortIndex 1024) := rfl
theorem test_writeFr_outside : perform (.writeFr 32 0) base = .fault (.fieldRegisterIndex 32) := rfl
theorem test_writeFr_clears : (match perform (.writeFr 31 5) { base with msgOk := true } with
    | .next t => some (t.fr[31]?, t.msgOk) | .fault _ => none | .refused _ => none) = some (some 5, false) := by decide
/-- A port of 33 bits holds the low 33 bits, two's complement. -/
theorem test_port : defaultConfig.port 4294967295 = 4294967295 ∧ defaultConfig.port 4294967296 = -4294967296 ∧
    defaultConfig.port (-4294967296) = -4294967296 := by decide
theorem test_mem_canonical : Mem.set (Mem.set (Mem.set ([] : Mem Bool) 5 true) 2 false) 5 false = [(2, false), (5, false)] := by
  decide

/-! ## Reader unit -/

/-- V10. -/
theorem test_rbind_limit : seen .rbind { base with opa := 1024 } (fun t => (t.status, t.rlen)) = some (0, 1024) := by decide
/-- V10. -/
theorem test_rbind_rejects :
    seen .rbind { bound seqA 6 with opa := 1025 } (fun t => (t.status, t.rlen, t.rpos)) = some (6, 7, 6) ∧
    seen .rbind { bound seqA 6 with opa := -1 } (fun t => (t.status, t.rlen, t.rpos)) = some (6, 7, 6) := by decide
/-- V9. -/
theorem test_extu_32 : seen (.extu 32) (bound seqB 0) (fun t => (t.status, t.res, t.rpos)) =
    some (0, 2147483648, 32) := by decide
/-- V9: one bit too few, nothing moves. -/
theorem test_extu_truncated : seen (.extu 32) (bound seqB 9) (fun t => (t.status, t.res, t.rpos)) = some (1, 0, 9) := by
  decide
/-- V9. -/
theorem test_exts_negative : seen (.exts 6) (bound seqA 1) (fun t => (t.status, t.res, t.rpos)) = some (0, -27, 7) := by
  decide
/-- V9. -/
theorem test_exts_32 : seen (.exts 32) (bound seqB 0) (fun t => (t.status, t.res)) = some (0, -2147483648) := by decide

/-! ## Writer unit -/

/-- P2 step 8. -/
theorem test_wnew : seen .wnew (writer [true, false] true) (fun t => (t.wlen, t.wfin, t.armlen, t.fill)) =
    some (0, false, 0, 0) := by decide
/-- V11: `APPU 12 {OPA=3600}` writes `111000010000`. -/
theorem test_appu : seen (.appu 12) { base with opa := 3600 } (fun t => (t.status, t.wlen, t.wbuf)) =
    some (0, 12, cellsOf [true, true, true, false, false, false, false, true, false, false, false, false]) := by decide
/-- V11, V12: too wide; and the lock is tested before the range. -/
theorem test_appu_rejects : seen (.appu 1) { base with opa := 2 } (fun t => (t.status, t.wlen)) = some (4, 0) ∧
    seen (.appu 1) { writer [true] true with opa := 2 } (fun t => (t.status, t.wlen)) = some (5, 1) := by decide
/-- V11. -/
theorem test_apps : seen (.apps 6) { base with opa := -27 } (fun t => (t.status, t.wbuf)) =
    some (0, cellsOf [true, false, false, true, false, true]) := by decide
/-- V11. -/
theorem test_apps_rejects : seen (.apps 1) { base with opa := 1 } (fun t => (t.status, t.wlen)) = some (4, 0) := by decide
/-- P2 step 5. -/
theorem test_fin : seen .fin (writer (beBits 0b0100101110101 13) false) (fun t => (textOf t, t.armlen, t.fill, t.wfin, t.wlen)) =
    some ([66, 114, 80], 3, 5, true, 13) := by decide
/-- P2 step 7: a second FIN replays. -/
theorem test_fin_again : seen .fin { writer [true] true with armlen := 9, fill := 4 } (fun t => (t.status, t.armlen, t.fill)) =
    some (0, 9, 4) := by decide

/-! ## Position unit -/

/-- V3: a negative longitude. -/
theorem test_posdec : seen .posdec (bound v3 57) (fun t => (t.posLon.toInt, t.posLat.toInt, t.rpos)) =
    some (-44443279, 24410724, 112) := by decide +kernel
/-- V10: 54 bits remain. -/
theorem test_posdec_truncated : seen .posdec { base with rlen := 55, rpos := 1 } (fun t => (t.status, t.rpos)) = some (1, 1) := by
  decide
/-- P5 step 4. -/
theorem test_posenc : seen .posenc m1 (fun t => (t.wlen, beUint (t.wbuf.map Prod.snd))) =
    some (55, 0x6791AC0 * 2 ^ 27 + 0x3412140) := by decide +kernel
/-- V12. -/
theorem test_posenc_locked : seen .posenc (writer [] true) (fun t => (t.status, t.wlen)) = some (5, 0) := by decide
/-- V13: both sentinels, and one of them. -/
theorem test_posavl : seen .posavl m1 (fun t => t.res) = some 0 ∧
    seen .posavl { m1 with posLat := 0 } (fun t => t.res) = some 1 := by decide
/-- V13. -/
theorem test_possetr : seen .possetr { base with opa := -134217728, opb := -67108864, msgOk := true }
    (fun t => (t.status, t.posLon.toInt, t.posLat.toInt, t.msgOk)) = some (0, -134217728, -67108864, false) := by decide
/-- V13: the latitude out of range, the longitude not written. -/
theorem test_possetr_rejects : seen .possetr { base with opa := 1, opb := 67108864 } (fun t => (t.status, t.posLon)) =
    some (4, 0) := by decide
/-- V13: degrees -74.07213166666666 and 40.68454. -/
theorem test_possetd : seen .possetd { base with dega := 0xC052849DCE2355B7, degb := 0x4044579F01B866E4 }
    (fun t => (t.status, t.posLon.toInt, t.posLat.toInt)) = some (0, -44443279, 24410724) := by decide +kernel
/-- V4: the sentinels are 181.0 and 91.0. -/
theorem test_posdeg_sentinels : seen .posdeg m1 (fun t => (t.deglon, t.deglat)) =
    some (0x4066A00000000000, 0x4056C00000000000) := by decide +kernel
/-- V13: 600000 and -600000 are 1.0 and -1.0. -/
theorem test_posdeg : seen .posdeg (message [] 600000 (-600000)) (fun t => (t.deglon, t.deglat)) =
    some (0x3FF0000000000000, 0xBFF0000000000000) := by decide +kernel

/-- The quotient a configuration supplies, and its inverse. -/
theorem test_degrees_supplied : seen .posdeg { wideBase with posLon := 600000 } (fun t => (t.deglon, t.deglat)) =
      some (0x3FF0000000000001, 0) ∧
    seen .possetd { wideBase with dega := 0x3FF0000000000001 } (fun t => (t.status, t.posLon.toInt)) = some (0, 600000) := by
  decide +kernel

/-! ## Layout unit -/

/-- V14 step 1. -/
theorem test_hdrdec : seen .hdrdec (bound v1 0) (fun t => ((regsOf t).take 3, t.rpos)) = some ([18, 0, 123456789], 38) := by
  decide +kernel
/-- V14: misaligned by one bit. -/
theorem test_hdrdec_misaligned : seen .hdrdec (bound v1 1) (fun t => ((regsOf t).take 3, t.rpos)) =
    some ([36, 0, 246913578], 39) := by decide +kernel
/-- V14: 38 ones. -/
theorem test_hdrenc : seen .hdrenc (message [63, 3, 1073741823] 0 0) (fun t => (t.status, t.wlen, beUint (t.wbuf.map Prod.snd))) =
    some (0, 38, 2 ^ 38 - 1) := by decide +kernel
/-- V14. -/
theorem test_hdrenc_rejects : seen .hdrenc (message [18, 4] 0 0) (fun t => (t.status, t.wlen)) = some (4, 0) := by decide
/-- V14 step 2. -/
theorem test_taildec : seen .taildec (withFr (bound v1 38) 0 18)
    (fun t => ((regsOf t).drop 3, t.posLon.toInt, t.posLat.toInt, t.rpos)) =
    some (v1Regs.drop 3, 108600000, 54600000, 168) := by decide +kernel
/-- V14: the identifier, modulo 64. -/
theorem test_taildec_rejects : seen .taildec (withFr (bound v1 38) 0 (-1)) (fun t => (t.status, t.info)) = some (3, 63) ∧
    seen .taildec (withFr (bound v1 39) 0 18) (fun t => (t.status, t.info)) = some (1, 0) := by decide +kernel
/-- P6 way (b), step 3. -/
theorem test_tailenc : seen .tailenc { m3 with wlen := 38 } (fun t => (t.wlen, beUint (t.wbuf.map Prod.snd))) =
    some (168, 0x48509B38BC00016ACECB89747A6431CFFE25DE0006 % 2 ^ 130) := by decide +kernel
/-- V12, V14: the lock before the row; an absent row. -/
theorem test_tailenc_rejects : seen .tailenc (writer [] true) (fun t => t.status) = some 5 ∧
    seen .tailenc (message [5] 0 0) (fun t => (t.status, t.info)) = some (3, 5) := by decide
/-- V2. -/
theorem test_sogv : seen .sogv (withFr base 4 1022) (fun t => t.res) = some 1 ∧
    seen .sogv (withFr base 4 1023) (fun t => t.res) = some 0 := by decide
/-- V2. -/
theorem test_cogv : seen .cogv (withFr base 6 3599) (fun t => t.res) = some 1 ∧
    seen .cogv (withFr base 6 3600) (fun t => t.res) = some 0 := by decide
/-- V2. -/
theorem test_hdgv : seen .hdgv (withFr base 7 359) (fun t => t.res) = some 1 ∧
    seen .hdgv (withFr base 7 360) (fun t => t.res) = some 0 := by decide
/-- V1, V3. -/
theorem test_posv : seen .posv m1 (fun t => t.res) = some 0 ∧ seen .posv m3 (fun t => t.res) = some 1 := by decide
/-- V17. -/
theorem test_utcst : [0, 59, 60, 61, 62, 63, 64, -1].map (fun v => seen .utcst (withFr base 8 v) (fun t => t.res)) =
    [some 0, some 0, some 1, some 2, some 3, some 4, some 5, some 5] := by decide

/-! ## Dispatch unit -/

/-- V3. -/
theorem test_decode_v3 : seen .decode (bound v3 5)
    (fun t => (t.status, t.msgOk, t.rpos, regsOf t, t.posLon.toInt, t.posLat.toInt)) =
    some (0, true, 168, v3Regs, -44443279, 24410724) := by decide +kernel
/-- V5, V6, V16: the order of the tests. -/
theorem test_decode_rejects :
    seen .decode { bound v1 9 with rlen := 167, msgOk := true } (fun t => (t.status, t.info, t.msgOk, t.rpos)) =
      some (2, 0, false, 0) ∧
    seen .decode { bound v1 0 with rlen := 37 } (fun t => (t.status, t.info)) = some (1, 0) ∧
    seen .decode { bound (beBits 5 6) 0 with rlen := 38 } (fun t => (t.status, t.info)) = some (3, 5) := by decide +kernel
/-- V1, P3 step 9: the bits; the text is `test_encode_text`. -/
theorem test_encode_v1 : seen .encode { m1 with wfin := true } (fun t => (beUint (t.wbuf.map Prod.snd), t.wlen, t.fill, t.wfin)) =
    some (0x481D6F34540000B3C8D603412140E10FFF800E0006, 168, 0, true) := by decide +kernel
/-- V1, P3 step 9: the text of the 168 bits. -/
theorem test_encode_text : (writer v1 false).armorText.map BitVec.toNat =
    [66, 49, 109, 103, 61, 53, 64, 48, 48, 59, 63, 56, 109, 80, 61, 49, 56, 68, 51, 81, 51, 119, 118, 48, 51, 80, 48, 54] := by
  decide +kernel
/-- A row a configuration supplies is executed as row 18 is (R152). -/
theorem test_decode_supplied : seen .decode { wideBase with rbuf := cellsOf wideBits, rlen := 142 }
    (fun t => (t.status, t.rpos, t.fr, t.posLon, t.posLat)) = some (0, 142, wideMessage.fr, 1, -1) := by decide +kernel
theorem test_encode_supplied : seen .encode wideMessage (fun t => (t.status, t.wlen, t.armlen, t.fill, t.wbuf.map Prod.snd)) =
    some (0, 142, 24, 2, wideBits) := by decide +kernel
/-- The reversed alphabet: the group of six zero bits is `w`. -/
theorem test_fin_supplied : seen .fin { wideBase with wbuf := cellsOf [false], wlen := 1 } (fun t => (textOf t, t.fill)) =
    some ([119], 5) := by decide
/-- V15. -/
theorem test_encode_rejects : seen .encode (withFr m1 0 64) (fun t => (t.status, t.info)) = some (4, 0) ∧
    seen .encode (withFr (withFr m1 4 1024) 0 19) (fun t => (t.status, t.info)) = some (3, 19) ∧
    seen .encode (withFr m1 4 1024) (fun t => (t.status, t.wlen, t.wfin)) = some (4, 0, false) := by decide +kernel

/-! ## Witnesses: the hypotheses of each statement can be met, clause by clause, at the ends of the ranges -/

/-- The state a run ends in. -/
theorem exec_of_run (i : Instr) (s : State) : ∃ t, exec i s = .next t := by cases i <;> exact ⟨_, rfl⟩

theorem legal_limits : isLegal defaultConfig 1 ∧ isLegal defaultConfig 32 ∧ ¬ isLegal defaultConfig 0 ∧
    ¬ isLegal defaultConfig 33 ∧ ¬ isLegal defaultConfig 63 := by unfold isLegal; decide

/-- A state of the default configuration with its 32 registers. -/
theorem configured (s : State) (hc : s.cfg = defaultConfig) (hl : s.fr.length = 32) : s.isConfigured :=
  ⟨hc ▸ defaultConfig_wf, hc ▸ hl⟩

theorem base_configured : base.isConfigured := configured _ rfl rfl

theorem m1_configured : m1.isConfigured := configured _ rfl rfl

theorem wide_configured : wideMessage.isConfigured := ⟨test_wide_wf, rfl⟩

theorem unsupported_of_selects (s : State) (id : Int) (h : s.cfg.selects id = false) : unsupported s id := by
  rintro ⟨r, h1, h2, rfl, h4⟩
  rw [(Config.selects_iff _ _).mpr ⟨h1, h2, h4⟩] at h
  cases h

theorem entriesFit_of_all (s : State) (es : List Entry) (h : es.all s.entryFits = true) : entriesFit s es := by
  intro e he
  have := List.all_eq_true.mp h e he
  cases e with
  | u d w => exact (fitsUnsigned_iff _ _).mp this
  | s d w => exact (fitsSigned_iff _ _).mp this
  | pos => trivial

/-- Row 18 is selected by 18, in every configuration. -/
theorem selected_18 (s : State) : selected s 18 row18 := ⟨by norm_num, by norm_num, rfl, rfl⟩

/-- The row of `wide`. -/
def wideRow : Row := { present := true, explen := 142, entries := [.u 35 40, .s 20 9, .pos] }

theorem selected_wide : selected wideMessage (reg wideMessage 0) wideRow := ⟨by decide, by decide, rfl, rfl⟩

theorem witness_DecodeInvertsEncode : decode defaultConfig 0x0220 = .ok (.extu 32) ∧
    Instr.wf defaultConfig (.apps 1) = true ∧ encode (.apps 1) = 0x1201 := by decide

theorem witness_IllegalWordChangesOnlyStatus :
    (∀ c, { base with pending := [.command c] }.pending = .command c :: []) ∧ ¬ isCommandWord defaultConfig 0x0200 ∧
    ¬ isCommandWord defaultConfig 0x0221 ∧ ¬ isCommandWord defaultConfig 0x0246 ∧ ¬ isCommandWord defaultConfig 0x1301 ∧ ¬ isCommandWord defaultConfig 0xFFFF :=
  ⟨fun _ => rfl, by simp [isCommandWord, defaultConfig], by simp [isCommandWord, defaultConfig], by simp [isCommandWord, defaultConfig], by simp [isCommandWord, defaultConfig],
    by simp [isCommandWord, defaultConfig]⟩

theorem witness_IllegalWidthIsIllegalCommand : ¬ isLegal defaultConfig 0 ∧ ¬ isLegal defaultConfig 33 := ⟨legal_limits.2.2.1, legal_limits.2.2.2.1⟩

theorem witness_StepRunsDecodedCommand :
    (base.withFetchWord 16 0x1120).pending = .command 0x1120 :: [] ∧ decode defaultConfig 0x1120 = .ok (.appu 32) := by decide

theorem witness_IdleInstanceWaits : base.pending = [] := rfl

theorem witness_LoadPortWriteUnbinds : { base with pending := [.load 1023 true] }.pending = .load 1023 true :: [] ∧
    { base with pending := [.load 0 false] }.pending = .load 0 false :: [] ∧ 1023 < base.cfg.rbufBits ∧ isLegal defaultConfig 1 ∧
    isLegal defaultConfig 32 ∧ ∃ t, exec .wnew base = .next t := ⟨rfl, rfl, by decide, legal_limits.1, legal_limits.2.1, exec_of_run _ _⟩

theorem witness_HostRegisterWrites : base.isConfigured ∧ 31 < base.cfg.nfr ∧
    ∀ a ∈ [HostAction.writeFr 0 1, .writeFr 31 (-1), .writeOpa 5, .writeOpb 5, .writeDega 5, .writeDegb 5],
      { base with pending := [a] }.pending = a :: [] := ⟨base_configured, by decide, by decide⟩

theorem witness_OnlyAbsentCellsStopAStep : (∃ t, step { base with pending := [.load 1023 true] } = .next t) ∧
    { base with pending := [.writeFr 32 0] }.pending = .writeFr 32 0 :: [] := ⟨⟨_, rfl⟩, rfl⟩

theorem witness_ResetStateAndResetInput : { base with pending := [.reset, .load 0 true] }.pending = .reset :: [.load 0 true] := rfl

/-- A state in the middle of a payload, with a command to do. -/
def midway : State := { base with rlen := 168, rpos := 38, pending := [.command 0x1000] }

theorem witness_EveryStepKeepsInvariant : midway.Inv ∧ ∃ t, step midway = .next t := by
  refine ⟨?_, ⟨_, rfl⟩⟩
  constructor
  case configured => exact configured _ rfl rfl
  case operands => unfold State.operandsInRange; decide
  all_goals simp [midway, base, State.reset, State.resetAt, State.wbufFilled, Mem.wf, defaultConfig]

theorem witness_InvariantHoldsAtReset : defaultConfig.wf = true ∧ wide.wf = true := ⟨defaultConfig_wf, test_wide_wf⟩

theorem witness_ExtuReturnsUnsignedField : isLegal defaultConfig 1 ∧ isLegal defaultConfig 32 ∧ base.rlen < base.rpos + (1 : BitVec 6).toNat ∧
    (bound seqB 8).rpos + (32 : BitVec 6).toNat ≤ (bound seqB 8).rlen :=
  ⟨legal_limits.1, legal_limits.2.1, by decide, by decide⟩

theorem witness_ExtsReturnsSignedField : isLegal defaultConfig 1 ∧ isLegal defaultConfig 32 ∧
    (bound seqB 9).rlen < (bound seqB 9).rpos + (32 : BitVec 6).toNat ∧
    (bound seqB 39).rpos + (1 : BitVec 6).toNat ≤ (bound seqB 39).rlen :=
  ⟨legal_limits.1, legal_limits.2.1, by decide, by decide⟩

theorem witness_TooFewBitsChangesOnlyStatus : isLegal defaultConfig 1 ∧ (bound seqA 7).rlen < (bound seqA 7).rpos + (1 : BitVec 6).toNat ∧
    { base with rlen := 55, rpos := 1 }.rlen < { base with rlen := 55, rpos := 1 }.rpos + 55 ∧
    { base with rlen := 38, rpos := 1 }.rlen < { base with rlen := 38, rpos := 1 }.rpos + 38 ∧
    reg { m1 with rlen := 168, rpos := 39 } 0 = 18 ∧ { m1 with rlen := 168, rpos := 39 }.rlen = 168 ∧
    { m1 with rlen := 168, rpos := 39 }.rlen < { m1 with rlen := 168, rpos := 39 }.rpos + 130 :=
  ⟨legal_limits.1, by decide, by decide, by decide, by decide, by decide, by decide⟩

theorem witness_ExtractionSplits : isLegal defaultConfig 1 ∧ isLegal defaultConfig 31 ∧ isLegal defaultConfig 32 ∧
    (1 : BitVec 6).toNat + (31 : BitVec 6).toNat = (32 : BitVec 6).toNat ∧
    (bound seqB 8).rpos + (32 : BitVec 6).toNat ≤ (bound seqB 8).rlen :=
  ⟨legal_limits.1, by unfold isLegal; decide, legal_limits.2.1, by decide, by decide⟩

theorem witness_SignedAndUnsignedAgreeModWidth : isLegal defaultConfig 32 ∧ (bound seqB 0).rpos + (32 : BitVec 6).toNat ≤ (bound seqB 0).rlen :=
  ⟨legal_limits.2.1, by decide⟩

theorem witness_CursorNeverRewinds : ∃ t, perform (.load 0 true) (bound seqA 6) = .next t ∧ t.rpos < (bound seqA 6).rpos :=
  ⟨_, rfl, by decide⟩

theorem witness_AppuAppendsUnsignedField : isLegal defaultConfig 1 ∧ isLegal defaultConfig 32 ∧ base.wfin = false ∧ (writer [] true).wfin = true ∧
    2 ^ (1 : BitVec 6).toNat ≤ { base with opa := 2 }.opa ∧ { base with opa := -1 }.opa < 0 ∧
    (0 ≤ { base with opa := 4294967295, wlen := 992 }.opa ∧
      { base with opa := 4294967295, wlen := 992 }.opa < 2 ^ (32 : BitVec 6).toNat ∧
      { base with opa := 4294967295, wlen := 992 }.wlen + (32 : BitVec 6).toNat ≤ 1024) :=
  ⟨legal_limits.1, legal_limits.2.1, rfl, rfl, by decide, by decide, by decide⟩

theorem witness_AppsAppendsSignedField : isLegal defaultConfig 1 ∧ isLegal defaultConfig 32 ∧ base.wfin = false ∧ (writer [] true).wfin = true ∧
    2 ^ ((1 : BitVec 6).toNat - 1) ≤ { base with opa := 1 }.opa ∧
    { base with opa := -2147483649 }.opa < -(2 ^ ((32 : BitVec 6).toNat - 1)) ∧
    (-(2 ^ ((32 : BitVec 6).toNat - 1)) ≤ { base with opa := -2147483648 }.opa ∧
      { base with opa := -2147483648 }.opa < 2 ^ ((32 : BitVec 6).toNat - 1) ∧ base.wlen + 32 ≤ 1024) :=
  ⟨legal_limits.1, legal_limits.2.1, rfl, rfl, by decide, by decide, by decide⟩

theorem witness_FinalizedWriterIsLocked : isLegal defaultConfig 1 ∧ (writer seqA true).wfin = true ∧
    (∃ t, perform (.command 0x1000) (writer seqA true) = .next t ∧ t.wfin = false ∧ t.wlen ≠ (writer seqA true).wlen) :=
  ⟨legal_limits.1, rfl, _, rfl, rfl, by decide⟩

theorem witness_FinPadsArmorsFinalizes : (writer seqA false).wfin = false ∧ (writer seqA true).wfin = true := ⟨rfl, rfl⟩

theorem witness_FillCountAccountsForText : (writer seqA false).wfin = false ∧ ∃ t, exec .fin (writer seqA false) = .next t :=
  ⟨rfl, exec_of_run _ _⟩

theorem witness_AppendsPastNominalCapacity : isLegal defaultConfig 32 ∧ { m1 with wlen := 1024 }.wfin = false ∧
    (0 ≤ m1.opa ∧ m1.opa < 2 ^ (32 : BitVec 6).toNat) ∧
    (-(2 ^ ((32 : BitVec 6).toNat - 1)) ≤ m1.opa ∧ m1.opa < 2 ^ ((32 : BitVec 6).toNat - 1)) ∧
    fieldsFit m1 headerFields ∧ selected m1 (reg m1 0) row18 ∧ entriesFit m1 row18.entries ∧
    selected wideMessage (reg wideMessage 0) wideRow ∧ entriesFit wideMessage wideRow.entries :=
  ⟨legal_limits.2.1, rfl, by decide, by decide, by unfold fieldsFit; decide, selected_18 _,
    entriesFit_of_all _ _ (by decide), selected_wide, entriesFit_of_all _ _ (by decide)⟩

/-- Two fields of P2: `APPU 6 {OPA=18}`, `APPS 3 {OPA=-1}`. -/
def twoFields : List Field := [⟨false, 6, 18⟩, ⟨true, 3, -1⟩]

theorem witness_WriterReaderRoundTrip : (∀ f ∈ twoFields, f.fits base.cfg) ∧ base.wfin = false ∧
    ∃ t, appendAll twoFields base = some t ∧ (bound (beBits 0b010010111 9) 0).cfg = base.cfg ∧
      (bound (beBits 0b010010111 9) 0).rpos + totalWidth twoFields ≤ (bound (beBits 0b010010111 9) 0).rlen ∧
      ∀ k, k < totalWidth twoFields →
        some ((bound (beBits 0b010010111 9) 0).rbufBit (0 + k)) = Mem.get? t.wbuf (base.wlen + k) := by
  refine ⟨by unfold Field.fits isLegal; decide, rfl, _, rfl, rfl, by decide, by decide +kernel⟩

theorem witness_PosdecReadsPosition : { base with rlen := 54 }.rlen < { base with rlen := 54 }.rpos + 55 ∧
    { base with rlen := 55 }.rpos + 55 ≤ { base with rlen := 55 }.rlen := by decide

theorem witness_PosencAppendsPosition : (writer [] true).wfin = true ∧ { base with wlen := 969 }.wfin = false ∧
    { base with wlen := 969 }.wlen + 55 ≤ 1024 := by decide

theorem witness_PossetrReplacesPosition :
    (134217728 ≤ { base with opa := 134217728 }.opa) ∧ ({ base with opb := -67108865 }.opb < -67108864) ∧
    (-134217728 ≤ { base with opa := -134217728, opb := 67108863 }.opa ∧
      { base with opa := -134217728, opb := 67108863 }.opa < 134217728 ∧
      -67108864 ≤ { base with opa := -134217728, opb := 67108863 }.opb ∧
      { base with opa := -134217728, opb := 67108863 }.opb < 67108864) := by decide

/-- The operand registers hold the degrees of a raw pair. -/
def degreesOf (c : Config) (lon : BitVec 28) (lat : BitVec 27) : State :=
  { base with cfg := c, dega := c.degrees lon.toInt, degb := c.degrees lat.toInt }

theorem witness_PossetdInvertsDegrees : defaultConfig.wf = true ∧ wide.wf = true ∧
    ∀ c ∈ [defaultConfig, wide], ∀ lon ∈ [(0x8000000 : BitVec 28), 600000, 0x7FFFFFF],
      ∀ lat ∈ [(0x4000000 : BitVec 27), 600000, 0x3FFFFFF],
      (degreesOf c lon lat).dega = (degreesOf c lon lat).cfg.degrees lon.toInt ∧
        (degreesOf c lon lat).degb = (degreesOf c lon lat).cfg.degrees lat.toInt :=
  ⟨defaultConfig_wf, test_wide_wf, fun _ _ _ _ _ _ => ⟨rfl, rfl⟩⟩

theorem witness_PosdegRoundsToNearest : base.posLon.toInt = 0 ∧ base.posLat.toInt = 0 ∧ m1.posLon.toInt = 108600000 ∧
    m1.posLat.toInt = 54600000 ∧ m1.cfg.fdivTable.lookup 108600000 = none ∧
    wideBase.cfg.fdivTable.lookup 600000 = some 0x3FF0000000000001 ∧ base.cfg.wf = true ∧ m1.cfg.wf = true ∧
    wideBase.cfg.wf = true :=
  ⟨by decide, by decide, by decide, by decide, by decide, by decide, defaultConfig_wf, defaultConfig_wf, test_wide_wf⟩

theorem witness_PositionRoundTrips : base.wfin = false ∧ ∃ t, exec .posenc base = .next t ∧
    (bound (List.replicate 55 false) 0).rpos + 55 ≤ (bound (List.replicate 55 false) 0).rlen ∧
    ∀ k, k < 55 → some ((bound (List.replicate 55 false) 0).rbufBit (0 + k)) = Mem.get? t.wbuf (base.wlen + k) :=
  ⟨rfl, _, rfl, by decide, by decide +kernel⟩

/-- The length of the payload of V1. -/
theorem v1_length (p : Nat) : (bound v1 p).rlen = 168 := beBits_length _ _

theorem witness_PosdecIsTwoSignedExtractions : (bound v1 57).cfg.wf = true ∧ (bound v1 57).rpos + 55 ≤ (bound v1 57).rlen := by
  rw [v1_length]
  exact ⟨defaultConfig_wf, by decide⟩

theorem witness_HdrdecReadsHeader : { base with rlen := 37 }.rlen < { base with rlen := 37 }.rpos + 38 ∧
    { base with rlen := 38 }.isConfigured ∧ { base with rlen := 38 }.rpos + 38 ≤ { base with rlen := 38 }.rlen :=
  ⟨by decide, configured _ rfl rfl, by decide⟩

theorem witness_HdrencAppendsHeader : (writer [] true).wfin = true ∧ m1.wfin = false ∧
    ¬ fieldsFit (withFr m1 0 64) headerFields ∧ ¬ fieldsFit (withFr m1 1 (-1)) headerFields ∧
    fieldsFit (message [63, 3, 1073741823] 0 0) headerFields ∧ { m1 with wlen := 986 }.wlen + 38 ≤ 1024 := by
  unfold fieldsFit; decide

theorem witness_TaildecReadsTail : unsupported (withFr m1 0 19) (reg (withFr m1 0 19) 0) ∧
    unsupported (withFr m1 0 (-1)) (reg (withFr m1 0 (-1)) 0) ∧
    (m1.cfg.rows = [] ∧ reg (withFr m1 0 19) 0 ≠ 18) ∧ selected m1 (reg m1 0) row18 ∧
    selected wideMessage (reg wideMessage 0) wideRow ∧
    { m1 with rlen := 167 }.rlen ≠ row18.explen ∧ { m1 with rlen := 168, rpos := 39 }.rlen = row18.explen ∧
    168 < { m1 with rlen := 168, rpos := 39 }.rpos + tailbits row18.entries ∧ m1.isConfigured ∧ reg m1 0 = 18 ∧
    { m1 with rlen := 168, rpos := 38 }.rpos + 130 ≤ 168 :=
  ⟨unsupported_of_selects _ _ rfl, unsupported_of_selects _ _ rfl, ⟨rfl, by decide⟩, selected_18 _, selected_wide, by decide,
    by decide, by decide, m1_configured, by decide, by decide⟩

theorem witness_TailencAppendsTail : (writer [] true).wfin = true ∧ m1.wfin = false ∧
    unsupported (withFr m1 0 19) (reg (withFr m1 0 19) 0) ∧
    (selected wideMessage (reg wideMessage 0) wideRow ∧ ¬ entriesFit (withFr wideMessage 20 256) wideRow.entries) ∧
    reg m1 0 = 18 ∧ ¬ fieldsFit (withFr m1 4 1024) tailFields ∧
    fieldsFit (withFr m1 4 1023) tailFields ∧ { m1 with wlen := 894 }.wlen + 130 ≤ m1.cfg.wbufBits :=
  ⟨rfl, rfl, unsupported_of_selects _ _ rfl, ⟨selected_wide, by simp [entriesFit, wideRow]; decide⟩, by decide,
    by unfold fieldsFit; decide, by unfold fieldsFit; decide, by decide⟩

theorem witness_UtcSecondStatus : reg (withFr m1 8 (-1)) 8 < 0 ∧ 63 < reg (withFr m1 8 64) 8 ∧
    (0 ≤ reg (withFr m1 8 59) 8 ∧ reg (withFr m1 8 59) 8 ≤ 59) ∧
    (60 ≤ reg m1 8 ∧ reg m1 8 ≤ 63) := by decide

/-- A row with a signed entry and the position. -/
def someRow : List Entry := [.u 3 8, .pos, .s 20 9]

/-- The state an ENCODE of V1's message leaves, and the bits it wrote. -/
theorem m1_encoded : exec .encode m1 = .next (m1.newWriter.append (m1.messageBits row18)).finalize.done := by
  rcases exec_encode_cases m1 row18 rfl with ⟨h, _⟩ | ⟨_, _, h, _⟩ | ⟨_, h, _⟩ | ⟨_, _, _, h⟩
  · exact absurd h (by decide)
  · exact absurd h (by decide)
  · exact absurd h (by decide)
  · exact h

/-- A reader bound to what that ENCODE wrote. -/
def m1Reader : State := { base with rbuf := Mem.write m1.wbuf 0 (m1.messageBits row18), rlen := 168 }

theorem m1Reader_bits : ∃ t, exec .encode m1 = .next t ∧ t.status = 0 ∧ m1Reader.rlen = t.wlen ∧
    ∀ a, a < 168 → some (m1Reader.rbufBit a) = Mem.get? t.wbuf a := by
  refine ⟨_, m1_encoded, rfl, ?_, fun a ha => ?_⟩
  · simp [m1Reader, tailbits_row18]
  · have hl : (m1.messageBits row18).length = 168 := by rw [State.messageBits_length, tailbits_row18]
    have h := Mem.get?_write_inside m1.wbuf 0 (m1.messageBits row18) a (by omega)
    rw [Nat.zero_add, List.getElem?_eq_getElem (by omega)] at h
    simp only [State.rbufBit, m1Reader, State.done_wbuf, State.finalize_wbuf, State.append_wbuf, State.newWriter_wbuf,
      State.newWriter_wlen, h, Option.getD_some]

/-- The identifier of the bound sequence (R16). -/
theorem v1_identifier : fieldValue (bound v1 0).rbufBit 0 6 = 18 := by decide +kernel

theorem v1_configured : (bound v1 0).isConfigured := configured _ rfl rfl

theorem v1_selected : selected (bound v1 0) (fieldValue (bound v1 0).rbufBit 0 6) row18 := by
  rw [v1_identifier]
  exact selected_18 _

theorem witness_AnyRowRoundTrips : (base.isConfigured ∧ entriesWf base.cfg someRow = true ∧ someRow.all base.entryFits = true ∧
      (bound (List.replicate 72 false) 0).readRbuf 0 (tailbits someRow) = base.walkEncBits someRow ∧ .pos ∈ someRow) ∧
    ((bound v1 0).isConfigured ∧ 38 ≤ (bound v1 0).rlen ∧
      selected (bound v1 0) (fieldValue (bound v1 0).rbufBit 0 6) row18 ∧ (bound v1 0).rlen = row18.explen) ∧
    m1Reader.isConfigured ∧ m1Reader.cfg = m1.cfg ∧ selected m1 (reg m1 0) row18 ∧
    ∃ t, exec .encode m1 = .next t ∧ t.status = 0 ∧ m1Reader.rlen = t.wlen ∧
      ∀ a, a < 168 → some (m1Reader.rbufBit a) = Mem.get? t.wbuf a :=
  ⟨⟨base_configured, by decide, by decide, by decide, by decide⟩,
    ⟨v1_configured, by rw [v1_length]; decide, v1_selected, v1_length 0⟩,
    configured _ rfl rfl, rfl, selected_18 _, m1Reader_bits⟩

theorem witness_RowFormatRoundTrips : wide.wf = true ∧ wideRow.present = true ∧ wideRow.wf wide = true ∧ wideRow.explen ≤ 2047 ∧
    wideRow.entries.length ≤ 63 ∧ row18.present = true ∧ row18.wf wide = true ∧ row18.explen ≤ 2047 ∧
    row18.entries.length ≤ 63 ∧ ∀ i, names row18.entries i → i < 32 := by
  refine ⟨test_wide_wf, rfl, by decide, by decide, by decide, rfl, by decide, by decide, by decide, ?_⟩
  rintro i ⟨w, h⟩
  simp [row18] at h
  omega

theorem witness_ConfiguredRowsAreExecuted : wideMessage.isConfigured ∧ selected wideMessage (reg wideMessage 0) wideRow ∧
    { wideMessage with rlen := 142, rpos := 38 }.rlen = wideRow.explen ∧ 38 + tailbits wideRow.entries ≤ 142 ∧
    wideMessage.wfin = false ∧ entriesFit wideMessage wideRow.entries ∧ fieldsFit wideMessage headerFields ∧
    { wideMessage with wlen := 920 }.wlen + tailbits wideRow.entries ≤ wideMessage.cfg.wbufBits ∧
    fieldValue { wideMessage with rbuf := cellsOf wideBits }.rbufBit 0 6 = 5 :=
  ⟨wide_configured, selected_wide, rfl, by decide, rfl, entriesFit_of_all _ _ (by decide), by unfold fieldsFit; decide, by decide,
    by decide +kernel⟩

theorem witness_DecodeReadsType18Message : (bound v1 0).isConfigured ∧ (bound v1 0).rlen = 168 ∧
    fieldValue (bound v1 0).rbufBit 0 6 = 18 := ⟨v1_configured, v1_length 0, v1_identifier⟩

theorem witness_DecodeChecksInOrder : { bound v1 0 with rlen := 37 }.rlen < 38 ∧
    (38 ≤ { bound (List.replicate 38 false) 0 with rlen := 38 }.rlen ∧ base.cfg.rows = [] ∧
      unsupported (bound (List.replicate 38 false) 0) (fieldValue (bound (List.replicate 38 false) 0).rbufBit 0 6) ∧
      fieldValue (bound (List.replicate 38 false) 0).rbufBit 0 6 ≠ 18) ∧
    (selected (bound v1 0) (fieldValue (bound v1 0).rbufBit 0 6) row18 ∧
      38 ≤ { bound v1 0 with rlen := 167 }.rlen ∧ { bound v1 0 with rlen := 167 }.rlen ≠ row18.explen ∧
      (bound v1 0).rlen = row18.explen) :=
  ⟨by decide, ⟨by decide, rfl, unsupported_of_selects _ _ (by decide +kernel), by decide +kernel⟩, v1_selected, by decide,
    by decide, v1_length 0⟩

theorem witness_EncodeWritesType18Message : reg m1 0 = 18 ∧ fieldsFit m1 headerFields ∧ fieldsFit m1 tailFields := by
  unfold fieldsFit; decide

theorem witness_EncodeRejectsInOrder : 63 < reg (withFr m1 0 64) 0 ∧ reg (withFr m1 0 (-1)) 0 < 0 ∧
    (0 ≤ reg (withFr m1 0 63) 0 ∧ reg (withFr m1 0 63) 0 ≤ 63 ∧ unsupported (withFr m1 0 63) (reg (withFr m1 0 63) 0)) ∧
    (m1.cfg.rows = [] ∧ reg (withFr m1 0 63) 0 ≠ 18) ∧
    (selected wideMessage (reg wideMessage 0) wideRow ∧
      ¬ (fieldsFit (withFr wideMessage 1 4) headerFields ∧ entriesFit (withFr wideMessage 1 4) wideRow.entries)) ∧
    reg (withFr m1 18 524288) 0 = 18 ∧
    ¬ (fieldsFit (withFr m1 18 524288) headerFields ∧ fieldsFit (withFr m1 18 524288) tailFields) :=
  ⟨by decide, by decide, ⟨by decide, by decide, unsupported_of_selects _ _ rfl⟩, ⟨rfl, by decide⟩,
    ⟨selected_wide, fun h => absurd h.1 (by unfold fieldsFit; decide)⟩, by decide, by unfold fieldsFit; decide⟩

theorem witness_Type18RoundTrips :
    ((bound v1 0).isConfigured ∧ (bound v1 0).rlen = 168 ∧ fieldValue (bound v1 0).rbufBit 0 6 = 18) ∧
    m1Reader.isConfigured ∧ reg m1 0 = 18 ∧ m1Reader.rlen = 168 ∧
    ∃ t, exec .encode m1 = .next t ∧ t.status = 0 ∧ m1Reader.rlen = t.wlen ∧
      ∀ a, a < 168 → some (m1Reader.rbufBit a) = Mem.get? t.wbuf a :=
  ⟨⟨v1_configured, v1_length 0, v1_identifier⟩, configured _ rfl rfl, by decide, rfl, m1Reader_bits⟩

theorem witness_DecodeIsHeaderThenTail : (bound v1 0).isConfigured ∧ (bound v1 0).rpos = 0 ∧
    selected (bound v1 0) (fieldValue (bound v1 0).rbufBit 0 6) row18 ∧ (bound v1 0).rlen = row18.explen :=
  ⟨v1_configured, rfl, v1_selected, v1_length 0⟩

theorem witness_EncodeIsHeaderThenTailThenFin : ∃ u, exec .encode m1 = .next u ∧ u.status = 0 :=
  ⟨_, m1_encoded, rfl⟩

theorem witness_MessagesAreIndependent :
    ((bound v1 0).isConfigured ∧ { bound v1 0 with wfin := true }.isConfigured ∧
      (bound v1 0).cfg = { bound v1 0 with wfin := true }.cfg ∧ (bound v1 0).rlen = { bound v1 0 with wfin := true }.rlen ∧
      ∀ a, a < (bound v1 0).rlen → (bound v1 0).rbufBit a = { bound v1 0 with wfin := true }.rbufBit a) ∧
    selected (bound v1 0) (fieldValue (bound v1 0).rbufBit 0 6) row18 ∧
    m1.cfg = { m1 with wlen := 9 }.cfg ∧ m1.fr = { m1 with wlen := 9 }.fr ∧ m1.posLon = { m1 with wlen := 9 }.posLon ∧
    m1.posLat = { m1 with wlen := 9 }.posLat :=
  ⟨⟨v1_configured, configured _ rfl rfl, rfl, rfl, fun _ _ => rfl⟩, v1_selected, rfl, rfl, rfl, rfl⟩

theorem witness_FailuresArePrecise : (∃ t, exec (.extu 1) base = .next t ∧ t.status ≠ 0) ∧
    ∃ t, exec .decode base = .next t ∧ t.status ≠ 0 := ⟨⟨_, rfl, by decide⟩, _, rfl, by decide⟩

theorem witness_FailureKindsByCommand : Instr.wf defaultConfig (.extu 1) = true ∧
    seen (.extu 1) base (fun t => t.status) = some 1 ∧
    seen .taildec (message [18] 0 0) (fun t => t.status) = some 2 ∧
    seen .taildec (message [19] 0 0) (fun t => t.status) = some 3 ∧
    seen .hdrenc (message [64] 0 0) (fun t => t.status) = some 4 ∧
    seen .hdrenc (writer [] true) (fun t => t.status) = some 5 ∧
    seen .rbind { base with opa := -1 } (fun t => t.status) = some 6 := by decide

theorem witness_StoredFlagsFollowTheRule : (∃ t, exec .fin base = .next t) ∧ (∃ t, perform (.writeFr 31 0) base = .next t) ∧
    ∃ t, perform .reset base = .next t := ⟨exec_of_run _ _, ⟨_, rfl⟩, _, rfl⟩

theorem witness_OnlyNamedCommandsWrite :
    seen .rbind { base with opa := 7 } (fun t => t.rlen) ≠ some base.rlen ∧
    seen (.extu 1) (bound seqA 1) (fun t => (t.rpos, t.res)) = some (2, 1) ∧
    seen (.appu 1) base (fun t => t.wlen) = some 1 ∧
    seen .fin (writer [true] false) (fun t => (t.wfin, t.armlen, t.fill)) = some (true, 1, 5) := by decide

theorem witness_InstancesDoNotInterfere : (∃ t, step ([base, midway][(1 : Fin 2)]) = .next t) ∧
    step ([base, { base with pending := [.load 1024 true] }][(1 : Fin 2)]) = .fault (.loadPortIndex 1024) ∧
    wide.wf = true := ⟨⟨_, rfl⟩, rfl, test_wide_wf⟩

theorem witness_ArmoredTextDeterminesBits : wide.wf = true ∧ base.cfg.wf = true ∧
    (writer seqA false).cfg = { writer seqA false with rpos := 0, status := 3 }.cfg ∧ (writer seqA false).wfin = false ∧
    ∃ t1 t2, exec .fin (writer seqA false) = .next t1 ∧
      exec .fin { writer seqA false with rpos := 0, status := 3 } = .next t2 ∧ t1.armlen = t2.armlen ∧ t1.fill = t2.fill ∧
      ∀ i, Mem.get? t1.arm i = Mem.get? t2.arm i :=
  ⟨test_wide_wf, defaultConfig_wf, rfl, rfl, _, _, rfl, rfl, rfl, rfl, fun _ => rfl⟩

end Sys2Proof.Tests
end

