-- ==== Sys2Proof/Proofs/CommandWords.lean ====
section
/-! PROOFS. The command word read and written (R61 to R64). -/

namespace Sys2Proof

section Words

variable {cfg : Config} {c : CommandWord} {i j : Instr} {f : BitVec 6 → Instr} {w : BitVec 6}

/-! ## The fields of a word (R61) -/

/-- A word is its operation code and its low byte. -/
theorem opField_append_z8Field (c : CommandWord) : opField c ++ z8Field c = c :=
  BitVec.extractLsb'_append_extractLsb' (w := 8) (len := 8)

/-- The low byte of a word is the two format-CW fields. -/
theorem zField_append_wField (c : CommandWord) : zField c ++ wField c = z8Field c :=
  BitVec.extractLsb'_append_extractLsb'_eq_extractLsb' (by rfl)

theorem z8Field_eq_zero_append_iff : z8Field c = (0 : BitVec 2) ++ w ↔ zField c = 0 ∧ wField c = w := by
  rw [← zField_append_wField]
  constructor
  · intro h
    constructor
    · simpa only [BitVec.extractLsb'_append_eq_left] using congrArg (BitVec.extractLsb' 6 2) h
    · simpa only [BitVec.extractLsb'_append_eq_right] using congrArg (BitVec.extractLsb' 0 6) h
  · rintro ⟨hz, rfl⟩
    rw [hz]

/-- The encoding of a command is the word of its two bytes. -/
theorem encode_eq_iff : encode i = c ↔ opField c = i.op ∧ z8Field c = i.lowByte := by
  constructor
  · rintro rfl
    exact Laws.EncodeFields.of_any i
  · rintro ⟨hop, hlow⟩
    rw [encode, ← hop, ← hlow, opField_append_z8Field]

/-! ## The two formats (R61, R63, R64) -/

theorem decodeC0_eq_ok_iff : decodeC0 c j = .ok i ↔ z8Field c = 0 ∧ j = i := by
  unfold decodeC0
  split <;> simp_all

theorem decodeCW_eq_ok_iff : decodeCW cfg c f = .ok i ↔
    ∃ w, legalWidth cfg w = true ∧ z8Field c = (0 : BitVec 2) ++ w ∧ f w = i := by
  simp only [z8Field_eq_zero_append_iff]
  unfold decodeCW
  split
  · simp_all
  · split <;> simp_all

/-! ## Decode and encode -/

/-- A format-C0 arm of the decoder answers only a well-formed command, for its own word. -/
theorem encodes_of_decodeC0 (h : decodeC0 c j = .ok i) (hop : (opField c).toNat = j.op.toNat)
    (hlow : j.lowByte = 0) (hwf : j.wf cfg = true) : i.wf cfg = true ∧ encode i = c := by
  obtain ⟨hz, rfl⟩ := decodeC0_eq_ok_iff.mp h
  exact ⟨hwf, encode_eq_iff.mpr ⟨BitVec.eq_of_toNat_eq hop, hz.trans hlow.symm⟩⟩

/-- A format-CW arm of the decoder answers only a well-formed command, for its own word. -/
theorem encodes_of_decodeCW (h : decodeCW cfg c f = .ok i) (hop : ∀ w, (opField c).toNat = (f w).op.toNat)
    (hlow : ∀ w, (f w).lowByte = (0 : BitVec 2) ++ w) (hwf : ∀ w, (f w).wf cfg = legalWidth cfg w) :
    i.wf cfg = true ∧ encode i = c := by
  obtain ⟨w, hw, hz, rfl⟩ := decodeCW_eq_ok_iff.mp h
  exact ⟨(hwf w).trans hw, encode_eq_iff.mpr ⟨BitVec.eq_of_toNat_eq (hop w), hz.trans (hlow w).symm⟩⟩

/-- Only the encoding of a well-formed command is decoded: no bit of a word is dropped (R64). -/
theorem encodes_of_decode (h : decode cfg c = .ok i) : i.wf cfg = true ∧ encode i = c := by
  unfold decode at h
  split at h <;> rename_i hop
  case h_2 | h_3 | h_5 | h_6 =>
    exact encodes_of_decodeCW h (fun _ => hop) (fun _ => rfl) (fun _ => rfl)
  case h_25 => cases h
  all_goals exact encodes_of_decodeC0 h hop rfl rfl

/-- The word of a well-formed command is decoded as that command (R62, R63). -/
theorem decode_encode (h : i.wf cfg = true) : decode cfg (encode i) = .ok i := by
  obtain ⟨hop, hlow⟩ := Laws.EncodeFields.of_any i
  unfold decode
  rw [hop]
  cases i with
  | extu w | exts w | appu w | apps w => exact decodeCW_eq_ok_iff.mpr ⟨w, h, hlow, rfl⟩
  | _ => exact decodeC0_eq_ok_iff.mpr ⟨hlow, rfl⟩

end Words

/-- Settles O2: the two directions are `encodes_of_decode` and `decode_encode`. -/
theorem decodeInvertsEncode : Obligations.DecodeInvertsEncode := by
  intro cfg c i
  constructor
  · exact encodes_of_decode
  · rintro ⟨hwf, rfl⟩
    exact decode_encode hwf

end Sys2Proof
end

