-- ==== Sys2Proof/Proofs/Reset.lean ====
section
/-! PROOFS. What reset leaves, and that it is a good state in every configuration (R6, R25, R250). -/

namespace Sys2Proof

open Machine Claims

/-! ## What reset leaves (R6, R25, R250) -/

@[simp] theorem Config.freeRegisters_length (c : Config) (n : Nat) : (c.freeRegisters n).length = c.nfr := by
  simp [Config.freeRegisters]

/-- Without supplied rows, row 18 is the only row of `LAYOUT_ROM` that is present (R74, R202). -/
theorem Config.row_present_iff_of_rows_nil (c : Config) (h : c.rows = []) (id : Nat) :
    (c.row id).present = true ↔ id = 18 := by
  constructor
  · intro hp
    by_contra hid
    have habsent : c.row id = absentRow := by simp [Config.row, h, hid]
    rw [habsent] at hp
    cases hp
  · rintro rfl
    rfl

/-- R25 holds of the reset state of every configuration and draw, whatever the host does next. -/
theorem Machine.State.resetAt_isResetState (c : Config) (n : Nat) (p : List HostAction) :
    isResetState { State.resetAt c n with pending := p } :=
  ⟨rfl, rfl, rfl, rfl, rfl, rfl, rfl, rfl, rfl, fun _ => rfl, fun _ => rfl, fun _ => rfl⟩

/-- Asserting reset keeps the configuration and the host's remaining actions (R250; log 1, 20). -/
theorem Machine.step_reset (s : State) (rest : List HostAction) (h : s.pending = .reset :: rest) :
    step s = .next { State.resetAt s.cfg s.draws with pending := rest } := by
  rw [step, h]
  rfl

/-- Settles O11, by `resetAt_isResetState` for both resets. -/
theorem resetStateAndResetInput : Obligations.ResetStateAndResetInput := by
  constructor
  · exact ⟨State.resetAt_isResetState _ _ [], rfl, rfl, rfl, rfl, rfl, rfl, rfl, Config.row_present_iff_of_rows_nil _ rfl⟩
  · intro s rest h
    exact ⟨_, step_reset s rest h, State.resetAt_isResetState _ _ rest, rfl, rfl, Config.freeRegisters_length _ _⟩

/-! ## The invariant at reset (R6, R11, R12, R15, R21, R22) -/

theorem Config.opw_pos (c : Config) (h : c.wf = true) : 1 ≤ c.opw := by
  obtain ⟨hsizes, -⟩ := c.wf_iff.mp h
  obtain ⟨-, -, hopw, -⟩ := c.sizesWf_iff.mp hsizes
  omega

/-- At reset every integer register and port holds what a port holds of a free value. -/
theorem Machine.State.resetAt_operands_are_ports (c : Config) (n : Nat) (v : Operand)
    (h : v ∈ (State.resetAt c n).opa :: (State.resetAt c n).opb :: (State.resetAt c n).res :: (State.resetAt c n).fr) :
    ∃ u, v = c.port u := by
  simp only [State.resetAt, Config.freeRegisters, List.mem_cons, List.mem_map] at h
  rcases h with rfl | rfl | rfl | ⟨i, -, rfl⟩ <;> exact ⟨_, rfl⟩

theorem Machine.State.resetAt_operandsInRange (c : Config) (n : Nat) (h : c.wf = true) :
    (State.resetAt c n).operandsInRange := by
  intro v hv
  obtain ⟨u, rfl⟩ := State.resetAt_operands_are_ports c n v hv
  exact (fitsSigned_iff _ _).mp (c.fits_port u (c.opw_pos h))

/-- The invariant holds at reset in every configuration: the buffers are empty and both flags clear, so what is left is
the configuration and the range of the free values. -/
theorem Machine.State.resetAt_inv (c : Config) (n : Nat) (h : c.wf = true) : (State.resetAt c n).Inv where
  configured := ⟨h, c.freeRegisters_length n⟩
  operands := State.resetAt_operandsInRange c n h
  cursor := Nat.le_refl 0
  bound := Nat.zero_le _
  rbufRange _ _ := rfl
  rbufWf := List.Pairwise.nil
  wbufWf := List.Pairwise.nil
  armWf := List.Pairwise.nil
  written _ ha := absurd ha (Nat.not_lt_zero _)
  fillRange := Nat.zero_le _
  text hfin := nomatch hfin
  textRange hfin := nomatch hfin
  statusRange := Nat.zero_le _
  infoZero _ := rfl
  message hmsg := nomatch hmsg

/-- Settles O12: `State.reset` is the reset state of the default configuration. -/
theorem invariantHoldsAtReset : Obligations.InvariantHoldsAtReset :=
  ⟨State.resetAt_inv _ _ defaultConfig_wf, State.resetAt_inv⟩

end Sys2Proof
end

