-- ==== Sys2Proof/Proofs/HostSide.lean ====
section
/-! PROOFS. The host's side of the machine: the step of one host action, the register writes (R15, R19, R21), and several
instances (R26). -/

namespace Sys2Proof

open Machine Claims

/-! ## One host action (R263, R271) -/

theorem Machine.step_of_idle (s : State) (h : s.pending = []) : step s = .next s := by
  rw [step, h]

/-- A step does the host's next action, taken off the list. -/
theorem Machine.step_of_pending (s : State) (a : HostAction) (rest : List HostAction) (h : s.pending = a :: rest) :
    step s = perform a { s with pending := rest } := by
  rw [step, h]

/-- Issuing a word that completes ran its command, or the word is illegal (R62, R64). -/
theorem Machine.issue_ends {s t : State} {c : CommandWord} (h : issue c s = .next t) :
    (∃ i, decode s.cfg c = .ok i ∧ exec i s = .next t) ∨ t = s.raise .illegalCommand := by
  unfold issue at h
  split at h
  next i hi => exact .inl ⟨i, hi, h⟩
  next => exact .inr (next_inj.mp h).symm

/-- A load-port write completes exactly for a cell `RBUF` has (R46). -/
theorem Machine.hostLoad_eq_next_iff {s t : State} {i : Nat} {b : Bool} : hostLoad i b s = .next t ↔
    i < s.cfg.rbufBits ∧ t = { s with rbuf := Mem.set s.rbuf i b, rlen := 0, rpos := 0 } := by
  unfold hostLoad
  split <;> simp_all [eq_comm]

/-- A host write to a field register completes exactly for a register there is (R15, R21). -/
theorem Machine.hostWriteFr_eq_next_iff {s t : State} {i : Nat} {v : Operand} : hostWriteFr i v s = .next t ↔
    i < s.cfg.nfr ∧ t = (s.writeFr i (s.cfg.port v)).clearMsgOk := by
  unfold hostWriteFr
  split <;> simp_all [eq_comm]

/-! ## Register writes (R15, R19, R21) -/

/-- What a port holds is in the operand range and has the low `OPW` bits of what it was given (R15, R19). -/
theorem Config.carries_port (c : Config) (v : Int) (h : c.wf = true) : carries c v (c.port v) := by
  obtain ⟨hlow, hhigh⟩ := (fitsSigned_iff _ _).mp (c.fits_port v (c.opw_pos h))
  exact ⟨hlow, hhigh, c.dvd_port_sub v⟩

/-- Settles O9: each write is one field update, and what an integer port holds is `carries_port`. -/
theorem hostRegisterWrites : Obligations.HostRegisterWrites := by
  rintro s rest ⟨hwf, hregs⟩
  refine ⟨fun i v hi h => ?_, fun v h => ?_, fun v h => ?_, fun v h => ?_, fun v h => ?_⟩ <;>
    rw [step_of_pending s _ _ h]
  · have hnext := (hostWriteFr_eq_next_iff (s := { s with pending := rest }) (v := v)).mpr ⟨hi, rfl⟩
    have hlen : i < s.fr.length := hregs ▸ hi
    refine ⟨_, s.cfg.port v, hnext, s.cfg.carries_port v hwf, ?_, fun j hj => ?_, rfl⟩
    · simp [hlen]
    · simp [List.getElem?_set_ne (Ne.symm hj)]
  · exact ⟨_, s.cfg.carries_port v hwf, rfl⟩
  · exact ⟨_, s.cfg.carries_port v hwf, rfl⟩
  · rfl
  · rfl

/-! ## Instances (R6, R26) -/

theorem Machine.stepInstance_of_next (sys : List State) (k : Fin sys.length) (t : State) (h : step sys[k] = .next t) :
    stepInstance sys k = .next (sys.set k t) := by
  rw [stepInstance, h]

theorem Machine.stepInstance_of_fault (sys : List State) (k : Fin sys.length) (r : Fault) (h : step sys[k] = .fault r) :
    stepInstance sys k = .fault r := by
  rw [stepInstance, h]

/-- Settles O58: a step of entry `k` of the list replaces that entry alone, and every entry of a list at reset is a reset
state. -/
theorem instancesDoNotInterfere : Obligations.InstancesDoNotInterfere := by
  refine ⟨fun sys k => ⟨fun t h => ?_, stepInstance_of_fault sys k⟩, fun c hc => ?_⟩
  · exact ⟨_, stepInstance_of_next sys k t h, List.getElem?_set_self k.isLt,
      fun j hj => List.getElem?_set_ne (Ne.symm hj)⟩
  · refine ⟨(List.range c.nInst).map (State.resetAt c), if_pos hc, by simp, fun s hs => ?_⟩
    obtain ⟨n, -, rfl⟩ := List.mem_map.mp hs
    exact ⟨rfl, State.resetAt_isResetState c n []⟩

end Sys2Proof
end

