-- ==== Sys2Proof/Proofs/OperandRange.lean ====
section
/-! PROOFS. What is written to an integer register or port is in the operand range (R15, R19, R20, R97). -/

namespace Sys2Proof

open Machine

section Range

variable {c : Config} {s : State} {v : Int}

theorem Config.wMax_bounds (h : c.wf = true) : 30 ≤ c.wMax ∧ c.wMax < c.opw := by
  obtain ⟨hsizes, -⟩ := c.wf_iff.mp h
  obtain ⟨hlow, -, hopw, -⟩ := c.sizesWf_iff.mp hsizes
  omega

/-- An unsigned field of at most `W_MAX` bits is in the operand range (R97, D3). -/
theorem Config.fits_of_unsigned (h : c.wf = true) (w : Nat) (hw : w ≤ c.wMax) (hv : fitsUnsigned v w = true) :
    fitsSigned v c.opw = true :=
  fitsSigned_of_fitsUnsigned v w c.opw (Nat.lt_of_le_of_lt hw (c.wMax_bounds h).2) hv

/-- A two's-complement field of at most `W_MAX` bits is in the operand range (R97, D3). -/
theorem Config.fits_of_signed (h : c.wf = true) (w : Nat) (hw : w ≤ c.wMax) (hv : fitsSigned v w = true) :
    fitsSigned v c.opw = true :=
  fitsSigned_mono v w c.opw (Nat.le_of_lt (Nat.lt_of_le_of_lt hw (c.wMax_bounds h).2)) hv

/-- The value of a predicate, 0 to 5, is in the operand range (R20, R175 to R179). -/
theorem Config.fits_small (h : c.wf = true) (hlow : 0 ≤ v) (hhigh : v ≤ 5) : fitsSigned v c.opw = true := by
  refine Config.fits_of_unsigned h 3 ?_ ((fitsUnsigned_iff _ _).mpr ⟨hlow, ?_⟩)
  · have := c.wMax_bounds h
    omega
  · norm_num
    omega

theorem Machine.utcStatus_bounds (v : Int) : 0 ≤ utcStatus v ∧ utcStatus v ≤ 5 := by
  unfold utcStatus
  split_ifs <;> decide

theorem Machine.State.posAvailable_bounds (s : State) : 0 ≤ s.posAvailable ∧ s.posAvailable ≤ 5 := by
  unfold State.posAvailable
  split_ifs <;> decide

/-- Every field register is in the operand range (R15). -/
def Machine.State.registersInRange (s : State) : Prop := ∀ v ∈ s.fr, fitsSigned v s.cfg.opw = true

theorem Machine.State.operandsInRange_iff : s.operandsInRange ↔ fitsSigned s.opa s.cfg.opw = true ∧
    fitsSigned s.opb s.cfg.opw = true ∧ fitsSigned s.res s.cfg.opw = true ∧ s.registersInRange := by
  simp only [State.operandsInRange, State.registersInRange, fitsSigned_iff, List.forall_mem_cons]

theorem Machine.State.registersInRange.writeFr (h : s.registersInRange) (i : Nat) (hv : fitsSigned v s.cfg.opw = true) :
    (s.writeFr i v).registersInRange := by
  intro u hu
  rcases List.mem_or_eq_of_mem_set hu with hu | rfl
  · exact h u hu
  · exact hv

/-- An entry of legal width writes a value of the operand range (R73, R97, R151). -/
theorem Machine.State.registersInRange.readEntry (h : s.registersInRange) (hwf : s.cfg.wf = true) (p : Nat) (e : Entry)
    (he : e.wf s.cfg = true) : (s.readEntry p e).registersInRange := by
  cases e with
  | u d w =>
    obtain ⟨-, hw⟩ : 1 ≤ w ∧ w ≤ s.cfg.wMax := of_decide_eq_true he
    exact h.writeFr d (Config.fits_of_unsigned hwf w hw (s.fitsUnsigned_fieldU p w))
  | s d w =>
    obtain ⟨hpos, hw⟩ : 1 ≤ w ∧ w ≤ s.cfg.wMax := of_decide_eq_true he
    exact h.writeFr d (Config.fits_of_signed hwf w hw (s.fitsSigned_fieldS p w hpos))
  | pos => simpa only [State.registersInRange, State.readEntry, State.readPos_fr, State.readPos_cfg] using h

theorem Machine.State.registersInRange.walkDec (h : s.registersInRange) (hwf : s.cfg.wf = true) (p : Nat)
    (es : List Entry) (hes : ∀ e ∈ es, e.wf s.cfg = true) : (s.walkDec p es).registersInRange := by
  induction es generalizing s p with
  | nil => exact h
  | cons e es ih =>
    obtain ⟨he, hes⟩ := List.forall_mem_cons.mp hes
    refine ih (h.readEntry hwf p e he) ?_ _ ?_ <;> rw [State.readEntry_cfg]
    · exact hwf
    · exact hes

/-- The three header fields are in the operand range (R97, R155). -/
theorem Machine.State.registersInRange.readHeader (h : s.registersInRange) (hwf : s.cfg.wf = true) (p : Nat) :
    (s.readHeader p).registersInRange := by
  have hbounds := s.cfg.wMax_bounds hwf
  have hfits (q w : Nat) (hw : w ≤ 30) : fitsSigned (s.fieldU q w) s.cfg.opw = true :=
    Config.fits_of_unsigned hwf w (hw.trans hbounds.1) (s.fitsUnsigned_fieldU q w)
  have hid := h.writeFr 0 (hfits p 6 (by decide))
  have hrepeat := hid.writeFr 1 (hfits (p + 6) 2 (by decide))
  exact hrepeat.writeFr 2 (hfits (p + 8) 30 (by decide))

theorem Config.freeRegisters_fit (h : c.wf = true) (n : Nat) : ∀ v ∈ c.freeRegisters n, fitsSigned v c.opw = true := by
  intro v hv
  obtain ⟨i, -, rfl⟩ := List.mem_map.mp hv
  exact c.fits_port _ (c.opw_pos h)

end Range

end Sys2Proof
end

