-- ==== Sys2Proof/Proofs/DecodedMessage.lean ====
section
/-! PROOFS. What a DECODE that succeeds leaves in the registers is a complete message of its row (R21, R97, R203). -/

namespace Sys2Proof

open Machine

section Message

variable {c : Config} {s : State}

/-- A row that is selected is present, so it meets R73. -/
theorem Config.selected_row_wf (h : c.wf = true) {id : Int} (hid : c.selects id = true) :
    (c.row id.toNat).explen = 38 + tailbits (c.row id.toNat).entries ∧
      entriesWf c (c.row id.toNat).entries = true := by
  obtain ⟨-, -, hpresent⟩ := (c.selects_iff id).mp hid
  obtain ⟨hlen, -, -, hentries⟩ := (Row.wf_iff c _ hpresent).mp (c.row_wf h id.toNat)
  exact ⟨hlen, hentries⟩

theorem entry_wf_of_entriesWf {es : List Entry} (h : entriesWf c es = true) : ∀ e ∈ es, e.wf c = true := by
  obtain ⟨hwf, -⟩ := (entriesWf_iff c es).mp h
  exact List.all_eq_true.mp hwf

/-- A walk over entries of legal widths, no register twice, leaves every entry's register within its width: what an entry
reads fits, and no later entry writes over it (R97, R151). -/
theorem Machine.State.walkDec_entryFits (s : State) (p : Nat) (es : List Entry) (hwf : ∀ e ∈ es, e.wf c = true)
    (hregs : ∀ d ∈ es.filterMap Entry.dest?, d < s.fr.length) (hnodup : (es.filterMap Entry.dest?).Nodup) :
    ∀ e ∈ es, (s.walkDec p es).entryFits e = true := by
  induction es generalizing s p with
  | nil => simp
  | cons e es ih =>
    have htail (d : Nat) (hd : d ∈ es.filterMap Entry.dest?) : d ∈ (e :: es).filterMap Entry.dest? := by
      obtain ⟨x, hx, hdx⟩ := List.mem_filterMap.mp hd
      exact List.mem_filterMap.mpr ⟨x, List.mem_cons_of_mem e hx, hdx⟩
    have hother (d : Nat) (hd : e.dest? = some d) : d < s.fr.length ∧ d ∉ es.filterMap Entry.dest? := by
      rw [List.filterMap_cons_some hd] at hregs hnodup
      exact ⟨hregs d List.mem_cons_self, (List.nodup_cons.mp hnodup).1⟩
    rw [State.walkDec_cons, List.forall_mem_cons]
    constructor
    · have hread := s.entryFits_readEntry c p e (hwf e List.mem_cons_self) fun d hd => (hother d hd).1
      rw [← hread]
      exact State.entryFits_congr _ _ e fun d hd => State.walkDec_readFr_of_notMem _ _ es d (hother d hd).2
    · refine ih (s.readEntry p e) _ (fun x hx => hwf x (List.mem_cons_of_mem e hx)) (fun d hd => ?_) ?_
      · rw [State.readEntry_fr_length]
        exact hregs d (htail d hd)
      · exact hnodup.sublist ((List.sublist_cons_self e es).filterMap _)

/-- A walk over the entries of a row leaves the header registers alone: no entry names one (R73). -/
theorem Machine.State.walkDec_header (s : State) (p : Nat) {es : List Entry} (h : entriesWf c es = true)
    {i : Nat} (hi : i < 3) : (s.walkDec p es).readFr i = s.readFr i := by
  obtain ⟨-, hregs, -⟩ := (entriesWf_iff c es).mp h
  refine s.walkDec_readFr_of_notMem p es i fun hmem => ?_
  have := (hregs i hmem).1
  omega

theorem Machine.State.holdsMessage.congr {t : State} (h : s.holdsMessage) (hcfg : t.cfg = s.cfg) (hfr : t.fr = s.fr) :
    t.holdsMessage := by
  obtain ⟨hsel, hheader, hentries⟩ := h
  have hreg := State.readFr_congr t s hfr
  refine ⟨by rwa [hcfg, hreg], by simpa only [State.headerRestFits, hreg] using hheader, ?_⟩
  rw [hcfg, hreg, List.all_eq_true] at *
  intro e he
  rw [State.entryFits_congr t s e fun d _ => hreg d]
  exact hentries e he

@[simp] theorem Machine.State.decoded_cfg (s : State) (r : Row) : (s.decoded r).cfg = s.cfg := by rw [s.decoded_eq r]

/-- The registers after a successful DECODE hold a message of the row its identifier selects (R21, R203). -/
theorem Machine.State.decoded_holdsMessage (h : s.isConfigured) (hsel : s.cfg.selects (s.fieldU 0 6) = true) :
    (s.decoded (s.cfg.row (s.fieldU 0 6))).holdsMessage := by
  obtain ⟨hwf, hlen⟩ := h
  have hnfr := s.cfg.nfr_ge hwf
  obtain ⟨-, hentries⟩ := Config.selected_row_wf hwf hsel
  rw [Int.toNat_natCast] at hentries
  generalize hr : s.cfg.row (s.fieldU 0 6) = r at hentries ⊢
  obtain ⟨-, hregs, hnodup, -⟩ := (entriesWf_iff _ _).mp hentries
  have hreg (i : Nat) : (s.decoded r).readFr i = ((s.readHeader 0).walkDec 38 r.entries).readFr i :=
    State.readFr_congr _ _ (s.decoded_fr r) i
  obtain ⟨hid, hrepeat, hsource, -⟩ := s.readHeader_readFr 0 (by omega)
  have hid' : (s.decoded r).readFr 0 = s.fieldU 0 6 := by
    rw [hreg, State.walkDec_header _ _ hentries (by decide), hid]
  refine ⟨by rwa [hid', State.decoded_cfg], ?_, ?_⟩
  · simp only [State.headerRestFits, hreg, State.walkDec_header _ _ hentries (show 1 < 3 by decide),
      State.walkDec_header _ _ hentries (show 2 < 3 by decide), hrepeat, hsource, State.fitsUnsigned_fieldU, Bool.and_self]
  · rw [hid', State.decoded_cfg, Int.toNat_natCast, hr, List.all_eq_true]
    intro e he
    rw [State.entryFits_congr _ _ e fun d _ => hreg d]
    refine State.walkDec_entryFits _ _ _ (entry_wf_of_entriesWf hentries) (fun d hd => ?_) hnodup e he
    have := (hregs d hd).2
    rw [State.readHeader_fr_length]
    omega

end Message

end Sys2Proof
end

