-- ==== Sys2Proof/Proofs/Invariant.lean ====
section
/-! PROOFS. Every step keeps the invariant: one rule per operation of the state, then the commands and the host's writes
(R11, R12, R15, R21, R22). -/

namespace Sys2Proof

open Machine

section Rules

variable {s : State}

theorem Machine.State.Inv.cfg_wf (h : s.Inv) : s.cfg.wf = true := h.configured.1

/-! ## How a command ends (R22, R224) -/

theorem Machine.State.Inv.raise (h : s.Inv) (e : Failure) : (s.raise e).Inv :=
  { h with statusRange := e.code_le, infoZero := e.info_zero }

theorem Machine.State.Inv.done (h : s.Inv) : s.done.Inv :=
  { h with statusRange := Nat.zero_le _, infoZero := fun _ => rfl }

/-! ## Integer registers (R15, R19, R20) -/

theorem Machine.State.Inv.setOpa (h : s.Inv) {v : Int} (hv : fitsSigned v s.cfg.opw = true) :
    State.Inv { s with opa := v } := by
  obtain ⟨-, hopb, hres, hfr⟩ := State.operandsInRange_iff.mp h.operands
  exact { h with operands := State.operandsInRange_iff.mpr ⟨hv, hopb, hres, hfr⟩ }

theorem Machine.State.Inv.setOpb (h : s.Inv) {v : Int} (hv : fitsSigned v s.cfg.opw = true) :
    State.Inv { s with opb := v } := by
  obtain ⟨hopa, -, hres, hfr⟩ := State.operandsInRange_iff.mp h.operands
  exact { h with operands := State.operandsInRange_iff.mpr ⟨hopa, hv, hres, hfr⟩ }

theorem Machine.State.Inv.setRes (h : s.Inv) {v : Int} (hv : fitsSigned v s.cfg.opw = true) : (s.setRes v).Inv := by
  obtain ⟨hopa, hopb, -, hfr⟩ := State.operandsInRange_iff.mp h.operands
  exact { h with operands := State.operandsInRange_iff.mpr ⟨hopa, hopb, hv, hfr⟩ }

/-- New contents of the field registers and the position, of which `MSG_OK` no longer tells anything (R15, R18, R21). -/
theorem Machine.State.Inv.setRegisters (h : s.Inv) (fr : List Operand) (lon : BitVec 28) (lat : BitVec 27)
    (hlen : fr.length = s.fr.length) (hfr : ∀ v ∈ fr, fitsSigned v s.cfg.opw = true) :
    State.Inv { s with fr := fr, posLon := lon, posLat := lat, msgOk := false } := by
  obtain ⟨hwf, hnfr⟩ := h.configured
  obtain ⟨hopa, hopb, hres, -⟩ := State.operandsInRange_iff.mp h.operands
  exact { h with
    configured := ⟨hwf, hlen.trans hnfr⟩
    operands := State.operandsInRange_iff.mpr ⟨hopa, hopb, hres, hfr⟩
    message := nofun }

theorem Machine.State.Inv.registers (h : s.Inv) : s.registersInRange := by
  obtain ⟨-, -, -, hfr⟩ := State.operandsInRange_iff.mp h.operands
  exact hfr

theorem Machine.State.Inv.writePos (h : s.Inv) (lon lat : Int) : (s.writePos lon lat).clearMsgOk.Inv :=
  h.setRegisters s.fr _ _ rfl h.registers

/-- A host write to a field register (R15, R21). -/
theorem Machine.State.Inv.writeFr_clearMsgOk (h : s.Inv) (i : Nat) {v : Int} (hv : fitsSigned v s.cfg.opw = true) :
    (s.writeFr i v).clearMsgOk.Inv :=
  h.setRegisters (s.fr.set i v) s.posLon s.posLat List.length_set (h.registers.writeFr i hv)

/-- A message in the registers may be told of (R21). -/
theorem Machine.State.Inv.setMsgOk (h : s.Inv) (hm : s.holdsMessage) : s.setMsgOk.Inv := { h with message := fun _ => hm }

/-! ## The reader (R11, R14, R91) -/

theorem Machine.State.Inv.setCursor (h : s.Inv) {rlen rpos : Nat} (hcursor : rpos ≤ rlen)
    (hbound : rlen ≤ s.cfg.rbufBits) : State.Inv { s with rlen := rlen, rpos := rpos } :=
  { h with cursor := hcursor, bound := hbound }

theorem Machine.State.advance_clearMsgOk (s : State) (n : Nat) : (s.advance n).clearMsgOk = s.clearMsgOk.advance n := rfl

theorem Machine.State.Inv.advance (h : s.Inv) {n : Nat} (hn : s.rpos + n ≤ s.rlen) : (s.advance n).Inv :=
  { h with cursor := hn }

/-- A load-port write to a cell `RBUF` has (R46). -/
theorem Machine.State.Inv.load (h : s.Inv) {i : Nat} (b : Bool) (hi : i < s.cfg.rbufBits) :
    State.Inv { s with rbuf := Mem.set s.rbuf i b, rlen := 0, rpos := 0 } :=
  { h with
    cursor := Nat.le_refl 0
    bound := Nat.zero_le _
    rbufRange := fun a ha => (Mem.get?_set_ne _ _ (Nat.ne_of_gt (Nat.lt_of_lt_of_le hi ha))).trans (h.rbufRange a ha)
    rbufWf := Mem.set_wf _ _ _ h.rbufWf }

/-! ## The writer (R12, R111, R112, R115) -/

theorem Machine.State.Inv.newWriter (h : s.Inv) : s.newWriter.Inv :=
  { h with
    written := fun _ ha => absurd ha (Nat.not_lt_zero _)
    fillRange := Nat.zero_le _
    text := nofun
    textRange := nofun }

/-- The cells below `WLEN` stay filled and the appended ones are new (R12, R112). -/
theorem Machine.State.wbufFilled.append (h : s.wbufFilled) (bs : Bits) : (s.append bs).wbufFilled := by
  intro a ha
  simp only [State.append_wlen] at ha
  by_cases hold : a < s.wlen
  · rw [s.append_get?_outside bs a (.inl hold)]
    exact h a hold
  · obtain ⟨k, rfl⟩ := Nat.exists_eq_add_of_le (Nat.le_of_not_lt hold)
    have hk : k < bs.length := by omega
    rw [s.append_get?_inside bs k hk, List.getElem?_eq_getElem hk]
    rfl

theorem Machine.State.Inv.append (h : s.Inv) (hfin : s.wfin = false) (bs : Bits) : (s.append bs).Inv :=
  { h with
    wbufWf := Mem.write_wf _ _ _ h.wbufWf
    written := h.written.append bs
    text := fun hfin' => nomatch hfin.symm.trans hfin'
    textRange := fun hfin' => nomatch hfin.symm.trans hfin' }

/-- FIN's lengths and characters are those of the bits written (R115). -/
theorem Machine.State.finalize_armored (s : State) : s.finalize.armored := by
  refine ⟨armlen_eq s.wlen, ?_, fun i hi => ?_⟩
  · simp only [State.finalize_armlen, State.finalize_wlen, State.finalize_fill, fillCount]
    omega
  · rw [State.finalize_armlen] at hi
    have hi' : i < s.armorText.length := by rwa [State.armorText_length]
    have hcell := Mem.get?_write_inside s.arm 0 s.armorText i hi'
    rw [Nat.zero_add] at hcell
    rw [State.finalize_arm, hcell, State.armorText, List.getElem?_map, List.getElem?_range hi]
    rfl

theorem Machine.State.Inv.finalize (h : s.Inv) : s.finalize.Inv := by
  obtain ⟨hsizes, -⟩ := s.cfg.wf_iff.mp h.cfg_wf
  obtain ⟨-, -, -, hchars, -⟩ := s.cfg.sizesWf_iff.mp hsizes
  exact { h with
    armWf := Mem.write_wf _ _ _ h.armWf
    fillRange := fillCount_le _
    text := fun _ => s.finalize_armored
    textRange := fun _ hlen => by
      simp only [State.finalize_armlen, State.finalize_wlen, State.finalize_cfg, armlen_eq] at hlen ⊢
      omega }

/-! ## The message (R203) -/

theorem Machine.State.Inv.failDecode (h : s.Inv) (e : Failure) : (State.failDecode { s with rpos := 0 } e).Inv := by
  have hfit := Config.freeRegisters_fit h.cfg_wf s.draws
  have hlen : (s.cfg.freeRegisters s.draws).length = s.fr.length := by
    rw [Config.freeRegisters_length, h.configured.2]
  have hregs := h.setRegisters _ (Config.freeLon s.draws) (Config.freeLat s.draws) hlen hfit
  exact { (hregs.setCursor (Nat.zero_le _) h.bound).raise e with }

/-- TAILDEC's walk over the entries of a selected row (R158). -/
theorem Machine.State.Inv.walkDec (h : s.Inv) (p : Nat) {es : List Entry} (hes : entriesWf s.cfg es = true) :
    (s.walkDec p es).clearMsgOk.Inv := by
  have hregs := h.registers.walkDec h.cfg_wf p es (entry_wf_of_entriesWf hes)
  have hfr : ∀ v ∈ (s.walkDec p es).fr, fitsSigned v s.cfg.opw = true := by
    intro v hv
    have := hregs v hv
    rwa [State.walkDec_cfg] at this
  rw [State.walkDec_eq]
  exact h.setRegisters _ _ _ (s.walkDec_fr_length p es) hfr

theorem Machine.State.Inv.readHeader (h : s.Inv) (p : Nat) : (s.readHeader p).clearMsgOk.Inv := by
  have hregs := h.registers.readHeader h.cfg_wf p
  exact h.setRegisters _ _ _ (s.readHeader_fr_length p) hregs

/-- A DECODE that succeeds: the header, the walk of the row, the cursor at its end (R203). -/
theorem Machine.State.Inv.decoded (h : s.Inv) (hsel : s.cfg.selects (s.fieldU 0 6) = true)
    (hlen : s.rlen = (s.cfg.row (s.fieldU 0 6)).explen) : (s.decoded (s.cfg.row (s.fieldU 0 6))).Inv := by
  have hmessage := State.decoded_holdsMessage h.configured hsel
  obtain ⟨hexplen, hentries⟩ := Config.selected_row_wf h.cfg_wf hsel
  rw [Int.toNat_natCast] at hexplen hentries
  generalize s.cfg.row (s.fieldU 0 6) = r at *
  have hwalk := State.registersInRange.walkDec (h.registers.readHeader h.cfg_wf 0) (by simpa using h.cfg_wf)
    38 r.entries (by simpa using entry_wf_of_entriesWf hentries)
  have hfr : ∀ v ∈ (s.decoded r).fr, fitsSigned v s.cfg.opw = true := by
    simpa only [State.registersInRange, State.walkDec_cfg, State.readHeader_cfg, s.decoded_fr r] using hwalk
  have hregs := h.setRegisters _ (s.decoded r).posLon (s.decoded r).posLat (by simp [s.decoded_fr]) hfr
  have hcursor := hregs.setCursor (rlen := s.rlen) (rpos := 38 + tailbits r.entries) (by simp [hlen, hexplen]) h.bound
  rw [s.decoded_eq r]
  exact hcursor.setMsgOk (hmessage.congr (s.decoded_cfg r).symm rfl)

/-! ## The commands -/

/-- What a command that succeeds writes keeps the invariant (R51, R262). -/
theorem Machine.Effect.inv {i : Instr} {u : State} (he : Effect i s u) (h : s.Inv) : u.Inv := by
  have hwf := h.cfg_wf
  cases i with
  | rbind =>
    obtain ⟨hlow, hhigh, rfl⟩ := he
    exact h.setCursor (Nat.zero_le _) (Int.toNat_le.mpr hhigh)
  | extu w =>
    obtain ⟨hw, hlen, rfl⟩ := he
    obtain ⟨-, hw⟩ := (legalWidth_iff _ _).mp hw
    exact (h.setRes (Config.fits_of_unsigned hwf _ hw (s.fitsUnsigned_fieldU _ _))).advance hlen
  | exts w =>
    obtain ⟨hw, hlen, rfl⟩ := he
    obtain ⟨hpos, hw⟩ := (legalWidth_iff _ _).mp hw
    exact (h.setRes (Config.fits_of_signed hwf _ hw (s.fitsSigned_fieldS _ _ hpos))).advance hlen
  | wnew =>
    obtain rfl := he
    exact h.newWriter
  | appu w | apps w | hdrenc =>
    obtain ⟨hfin, -, rfl⟩ := he
    exact h.append hfin _
  | posenc =>
    obtain ⟨hfin, rfl⟩ := he
    exact h.append hfin _
  | tailenc =>
    obtain ⟨r, hfin, -, -, -, rfl⟩ := he
    exact h.append hfin _
  | fin =>
    obtain ⟨-, rfl⟩ | ⟨-, rfl⟩ := he
    · exact h
    · exact h.finalize
  | encode =>
    obtain ⟨r, -, -, -, -, rfl⟩ := he
    exact (h.newWriter.append rfl _).finalize
  | posdec =>
    obtain ⟨hlen, rfl⟩ := he
    rw [State.advance_clearMsgOk]
    exact (h.writePos _ _).advance (by simpa using hlen)
  | possetr | possetd =>
    obtain ⟨-, -, rfl⟩ := he
    exact h.writePos _ _
  | hdrdec =>
    obtain ⟨hlen, rfl⟩ := he
    rw [State.advance_clearMsgOk]
    exact (h.readHeader s.rpos).advance (by simpa using hlen)
  | taildec =>
    obtain ⟨r, hsel, rfl, -, hlen, rfl⟩ := he
    obtain ⟨-, hentries⟩ := Config.selected_row_wf hwf hsel
    rw [State.advance_clearMsgOk]
    exact (h.walkDec s.rpos hentries).advance (by simpa using hlen)
  | decode =>
    obtain ⟨r, hsel, rfl, hlen, rfl⟩ := he
    exact h.decoded hsel hlen
  | posdeg =>
    obtain rfl := he
    exact { h with }
  | posavl | posv =>
    obtain rfl := he
    obtain ⟨hlow, hhigh⟩ := s.posAvailable_bounds
    exact h.setRes (Config.fits_small hwf hlow hhigh)
  | utcst =>
    obtain rfl := he
    obtain ⟨hlow, hhigh⟩ := utcStatus_bounds (s.readFr 8)
    exact h.setRes (Config.fits_small hwf hlow hhigh)
  | sogv | cogv | hdgv =>
    obtain rfl := he
    exact h.setRes (Config.fits_small hwf (by split_ifs <;> decide) (by split_ifs <;> decide))

theorem Machine.exec_inv {i : Instr} {t : State} (h : s.Inv) (hexec : exec i s = .next t) : t.Inv := by
  obtain ⟨-, e, -, rfl⟩ | ⟨-, e, -, rfl⟩ | ⟨u, hu, rfl⟩ := exec_ends i s t hexec
  · exact h.raise e
  · exact h.failDecode e
  · exact (hu.inv h).done

/-! ## The host's actions -/

/-- A command word: its command's end, or IllegalCommand (R64). -/
theorem Machine.issue_inv {c : CommandWord} {t : State} (h : s.Inv) (hissue : issue c s = .next t) : t.Inv := by
  obtain ⟨i, -, hexec⟩ | rfl := issue_ends hissue
  · exact exec_inv h hexec
  · exact h.raise _

theorem Machine.perform_inv {a : HostAction} {t : State} (h : s.Inv) (hperform : perform a s = .next t) : t.Inv := by
  have hport (v : Int) : fitsSigned (s.cfg.port v) s.cfg.opw = true := s.cfg.fits_port v (s.cfg.opw_pos h.cfg_wf)
  cases a with
  | command c => exact issue_inv h hperform
  | load i b =>
    obtain ⟨hi, rfl⟩ := hostLoad_eq_next_iff.mp hperform
    exact h.load b hi
  | writeFr i v =>
    obtain ⟨hi, rfl⟩ := hostWriteFr_eq_next_iff.mp hperform
    exact h.writeFr_clearMsgOk i (hport v)
  | writeOpa v =>
    obtain rfl := next_inj.mp hperform
    exact h.setOpa (hport v)
  | writeOpb v =>
    obtain rfl := next_inj.mp hperform
    exact h.setOpb (hport v)
  | writeDega v | writeDegb v =>
    obtain rfl := next_inj.mp hperform
    exact { h with }
  | reset =>
    obtain rfl := next_inj.mp hperform
    exact { State.resetAt_inv s.cfg s.draws h.cfg_wf with }

end Rules

/-- Settles O13: the invariant does not speak of the host's list, and every host action keeps it. -/
theorem everyStepKeepsInvariant : Obligations.EveryStepKeepsInvariant := by
  intro s t h hstep
  cases hp : s.pending with
  | nil =>
    rw [step_of_idle s hp] at hstep
    obtain rfl := next_inj.mp hstep
    exact h
  | cons a rest =>
    rw [step_of_pending s a rest hp] at hstep
    exact perform_inv (s := { s with pending := rest }) { h with } hstep

end Sys2Proof
end

