-- ==== Sys2Proof/Proofs/AccessTable.lean ====
section
/-! PROOFS. The access table of R27: what each command may write, as one update of the state, and that every command
writes no more (R18, R19, R20, R23). -/

namespace Sys2Proof

open Machine

section Access

variable {s t u : State} {i : Instr}

/-- The access table of R27: `s` with the state that command `i` may write taken from `w`. -/
def Machine.State.written (s : State) (i : Instr) (w : State) : State :=
  match i with
  | .rbind => { s with rlen := w.rlen, rpos := w.rpos, status := w.status, info := w.info }
  | .extu _ | .exts _ => { s with rpos := w.rpos, res := w.res, status := w.status, info := w.info }
  | .wnew =>
    { s with wlen := w.wlen, wfin := w.wfin, armlen := w.armlen, fill := w.fill, status := w.status, info := w.info }
  | .appu _ | .apps _ | .posenc | .hdrenc | .tailenc =>
    { s with wbuf := w.wbuf, wlen := w.wlen, status := w.status, info := w.info }
  | .fin =>
    { s with wfin := w.wfin, arm := w.arm, armlen := w.armlen, fill := w.fill, status := w.status, info := w.info }
  | .posdec =>
    { s with rpos := w.rpos, posLon := w.posLon, posLat := w.posLat, msgOk := w.msgOk, status := w.status, info := w.info }
  | .possetr | .possetd =>
    { s with posLon := w.posLon, posLat := w.posLat, msgOk := w.msgOk, status := w.status, info := w.info }
  | .posdeg => { s with deglon := w.deglon, deglat := w.deglat, status := w.status, info := w.info }
  | .posavl | .sogv | .cogv | .hdgv | .posv | .utcst => { s with res := w.res, status := w.status, info := w.info }
  | .hdrdec => { s with rpos := w.rpos, fr := w.fr, msgOk := w.msgOk, status := w.status, info := w.info }
  | .taildec =>
    { s with
      rpos := w.rpos, fr := w.fr, posLon := w.posLon, posLat := w.posLat, msgOk := w.msgOk
      status := w.status, info := w.info }
  | .decode =>
    { s with
      rpos := w.rpos, fr := w.fr, posLon := w.posLon, posLat := w.posLat, msgOk := w.msgOk, draws := w.draws
      status := w.status, info := w.info }
  | .encode =>
    { s with
      wbuf := w.wbuf, wlen := w.wlen, wfin := w.wfin, arm := w.arm, armlen := w.armlen, fill := w.fill
      status := w.status, info := w.info }

theorem Machine.State.raise_eq_written (s : State) (i : Instr) (e : Failure) : s.raise e = s.written i (s.raise e) := by
  cases i <;> rfl

theorem Machine.State.done_written (s : State) (i : Instr) (w : State) : (s.written i w).done = s.written i w.done := by
  cases i <;> rfl

/-- An append writes the writer's cells and length, whatever the bits (R112). -/
theorem Machine.State.append_eq {bs : Bits} (h : u = s.append bs) :
    u = { s with wbuf := u.wbuf, wlen := u.wlen, status := u.status, info := u.info } := by
  subst h
  rfl

/-- ENCODE writes the writer, whatever the bits (R205). -/
theorem Machine.State.encoded_eq_written {bs : Bits} (h : u = (s.newWriter.append bs).finalize) :
    u = s.written .encode u := by
  subst h
  rfl

/-- A command that succeeds writes what the table names and nothing else. -/
theorem Machine.Effect.eq_written (h : Effect i s u) : u = s.written i u := by
  cases i with
  | rbind | extu w | exts w | possetr | possetd =>
    obtain ⟨-, -, rfl⟩ := h
    rfl
  | wnew | posavl | posdeg | sogv | cogv | hdgv | posv | utcst =>
    obtain rfl := h
    rfl
  | appu w | apps w | hdrenc =>
    obtain ⟨-, -, h⟩ := h
    exact State.append_eq h
  | posenc =>
    obtain ⟨-, h⟩ := h
    exact State.append_eq h
  | tailenc =>
    obtain ⟨r, -, -, -, -, h⟩ := h
    exact State.append_eq h
  | fin => obtain ⟨-, rfl⟩ | ⟨-, rfl⟩ := h <;> rfl
  | encode =>
    obtain ⟨r, -, -, -, -, h⟩ := h
    exact State.encoded_eq_written h
  | posdec | hdrdec =>
    obtain ⟨-, rfl⟩ := h
    ext1 <;> simp [State.written]
  | taildec =>
    obtain ⟨r, -, -, -, -, rfl⟩ := h
    ext1 <;> simp [State.written]
  | decode =>
    obtain ⟨r, -, -, -, rfl⟩ := h
    ext1 <;> simp [State.written, State.decoded]

/-- Every command, failing or not, writes what the table names and nothing else (R27, R224). -/
theorem Machine.exec_written (h : exec i s = .next t) : ∃ w, t = s.written i w := by
  obtain ⟨-, e, -, rfl⟩ | ⟨rfl, e, -, rfl⟩ | ⟨u, hu, rfl⟩ := exec_ends i s t h
  · exact ⟨_, s.raise_eq_written i e⟩
  · exact ⟨State.failDecode { s with rpos := 0 } e, rfl⟩
  · exact ⟨u.done, by rw [← State.done_written, ← hu.eq_written]⟩

theorem Machine.exec_cfg (h : exec i s = .next t) : t.cfg = s.cfg := by
  obtain ⟨w, rfl⟩ := exec_written h
  cases i <;> rfl

/-- Nothing the host can do writes the configuration (R10, R23). -/
theorem Machine.perform_cfg {a : HostAction} (h : perform a s = .next t) : t.cfg = s.cfg := by
  cases a with
  | command c =>
    obtain ⟨i, -, hexec⟩ | rfl := issue_ends h
    · exact exec_cfg hexec
    · rfl
  | load i b =>
    obtain ⟨-, rfl⟩ := hostLoad_eq_next_iff.mp h
    rfl
  | writeFr i v =>
    obtain ⟨-, rfl⟩ := hostWriteFr_eq_next_iff.mp h
    rfl
  | writeOpa v | writeOpb v | writeDega v | writeDegb v | reset =>
    obtain rfl := next_inj.mp h
    rfl

end Access

/-- Settles O57: the clauses are the columns of `State.written`. -/
theorem onlyNamedCommandsWrite : Obligations.OnlyNamedCommandsWrite := by
  refine ⟨fun a s t h => perform_cfg h, fun i s t h => ?_⟩
  obtain ⟨w, rfl⟩ := exec_written h
  cases i <;> simp [State.written]

end Sys2Proof
end

