-- ==== Sys2Proof/Proofs/StoredFlags.lean ====
section
/-! PROOFS. The two stored flags: who sets and clears `WFIN` and `MSG_OK`, and that no command reads `MSG_OK` (R21). -/

namespace Sys2Proof

open Machine

section Flags

variable {s t u : State} {i : Instr}

/-! ## Who sets and clears them -/

theorem Machine.Effect.wfin (h : Effect i s u) :
    u.wfin = if i = .wnew then false else if i ∈ [Instr.fin, .encode] then true else s.wfin := by
  cases i with
  | wnew =>
    obtain rfl := h
    rfl
  | fin =>
    obtain ⟨hfin, rfl⟩ | ⟨-, rfl⟩ := h
    · exact hfin
    · rfl
  | encode =>
    obtain ⟨r, -, -, -, -, rfl⟩ := h
    rfl
  | _ =>
    rw [h.eq_written]
    rfl

theorem Machine.Effect.msgOk (h : Effect i s u) : u.msgOk =
    if i = .decode then true
    else if i ∈ [Instr.hdrdec, .taildec, .posdec, .possetr, .possetd] then false else s.msgOk := by
  cases i with
  | decode =>
    obtain ⟨r, -, -, -, rfl⟩ := h
    rfl
  | hdrdec | posdec =>
    obtain ⟨-, rfl⟩ := h
    rfl
  | possetr | possetd =>
    obtain ⟨-, -, rfl⟩ := h
    rfl
  | taildec =>
    obtain ⟨r, -, -, -, -, rfl⟩ := h
    rfl
  | _ =>
    rw [h.eq_written]
    rfl

/-- WNEW never fails (R111, R221). -/
theorem Machine.not_canFail_wnew (c : Config) (e : Failure) : ¬ CanFail c .wnew e := id

theorem Machine.exec_wfin (h : exec i s = .next t) :
    t.wfin = if i = .wnew then false else if i ∈ [Instr.fin, .encode] ∧ t.status = 0 then true else s.wfin := by
  obtain ⟨-, e, he, rfl⟩ | ⟨rfl, e, -, rfl⟩ | ⟨u, hu, rfl⟩ := exec_ends i s t h
  · have hi : i ≠ .wnew := by
      rintro rfl
      exact not_canFail_wnew _ _ he
    rw [if_neg hi, if_neg fun hok => e.code_ne_zero hok.2]
    rfl
  · rw [if_neg (by decide), if_neg fun hok => e.code_ne_zero hok.2]
    rfl
  · simp [hu.wfin]

theorem Machine.exec_msgOk (h : exec i s = .next t) : t.msgOk =
    if i = .decode then decide (t.status = 0)
    else if i ∈ [Instr.hdrdec, .taildec, .posdec, .possetr, .possetd] ∧ t.status = 0 then false else s.msgOk := by
  obtain ⟨hi, e, -, rfl⟩ | ⟨rfl, e, -, rfl⟩ | ⟨u, hu, rfl⟩ := exec_ends i s t h
  · rw [if_neg hi, if_neg fun hok => e.code_ne_zero hok.2]
    rfl
  · rw [if_pos rfl]
    exact (decide_eq_false e.code_ne_zero).symm
  · simp [hu.msgOk]

/-! ## No command reads `MSG_OK` -/

/-- `MSG_OK` given a value, all else as it is. -/
def Machine.State.withMsgOk (s : State) (b : Bool) : State := { s with msgOk := b }

@[simp] theorem Machine.State.withMsgOk_rpos (s : State) (b : Bool) : (s.withMsgOk b).rpos = s.rpos := rfl

theorem Machine.State.withMsgOk_writeFr (s : State) (b : Bool) (j : Nat) (v : Int) :
    (s.withMsgOk b).writeFr j v = (s.writeFr j v).withMsgOk b := rfl

theorem Machine.State.withMsgOk_writePos (s : State) (b : Bool) (lon lat : Int) :
    (s.withMsgOk b).writePos lon lat = (s.writePos lon lat).withMsgOk b := rfl

theorem Machine.State.withMsgOk_setRes (s : State) (b : Bool) (v : Int) :
    (s.withMsgOk b).setRes v = (s.setRes v).withMsgOk b := rfl

theorem Machine.State.withMsgOk_advance (s : State) (b : Bool) (n : Nat) :
    (s.withMsgOk b).advance n = (s.advance n).withMsgOk b := rfl

theorem Machine.State.withMsgOk_clearMsgOk (s : State) (b : Bool) :
    (s.withMsgOk b).clearMsgOk = s.clearMsgOk.withMsgOk false := rfl

theorem Machine.State.withMsgOk_fieldU (s : State) (b : Bool) (p w : Nat) : (s.withMsgOk b).fieldU p w = s.fieldU p w :=
  congrArg beUint (State.readRbuf_congr _ _ p p w fun _ _ => rfl)

theorem Machine.State.withMsgOk_fieldS (s : State) (b : Bool) (p w : Nat) : (s.withMsgOk b).fieldS p w = s.fieldS p w :=
  congrArg (sext w) (s.withMsgOk_fieldU b p w)

theorem Machine.State.withMsgOk_readHeader (s : State) (b : Bool) (p : Nat) :
    (s.withMsgOk b).readHeader p = (s.readHeader p).withMsgOk b := by
  simp only [State.readHeader, State.withMsgOk_fieldU, State.withMsgOk_writeFr]

theorem Machine.State.withMsgOk_readPos (s : State) (b : Bool) (p : Nat) :
    (s.withMsgOk b).readPos p = (s.readPos p).withMsgOk b := by
  simp only [State.readPos, State.withMsgOk_fieldS, State.withMsgOk_writePos]

theorem Machine.State.withMsgOk_readEntry (s : State) (b : Bool) (p : Nat) (e : Entry) :
    (s.withMsgOk b).readEntry p e = (s.readEntry p e).withMsgOk b := by
  cases e with
  | u d w =>
    simp only [State.readEntry, State.withMsgOk_fieldU, State.withMsgOk_writeFr]
  | s d w =>
    simp only [State.readEntry, State.withMsgOk_fieldS, State.withMsgOk_writeFr]
  | pos => exact s.withMsgOk_readPos b p

theorem Machine.State.withMsgOk_walkDec (s : State) (b : Bool) (p : Nat) (es : List Entry) :
    (s.withMsgOk b).walkDec p es = (s.walkDec p es).withMsgOk b := by
  induction es generalizing s p with
  | nil => rfl
  | cons e es ih => rw [State.walkDec_cons, State.walkDec_cons, State.withMsgOk_readEntry, ih]

/-- Two attempts of a command agree: the same failure, or effects that differ in `MSG_OK` at most. -/
inductive Machine.AgreeButMsgOk : Except Failure State → Except Failure State → Prop where
  | error (e : Failure) : AgreeButMsgOk (.error e) (.error e)
  | ok (t : State) (b : Bool) : AgreeButMsgOk (.ok t) (.ok (t.withMsgOk b))

theorem Machine.AgreeButMsgOk.ite {p : Prop} [Decidable p] {x x' y y' : Except Failure State}
    (hpos : AgreeButMsgOk x x') (hneg : AgreeButMsgOk y y') :
    AgreeButMsgOk (if p then x else y) (if p then x' else y') := by
  split
  · exact hpos
  · exact hneg

theorem Machine.AgreeButMsgOk.bind {r : Except Failure Row} {f g : Row → Except Failure State}
    (h : ∀ row, AgreeButMsgOk (f row) (g row)) : AgreeButMsgOk (r.bind f) (r.bind g) := by
  cases r with
  | error e => exact .error e
  | ok row => exact h row

/-- Two ends of a command agree: both are next states, which differ in `MSG_OK` at most. -/
def Machine.EndsAgree (r r' : Result) : Prop := ∃ t b, r = .next t ∧ r' = .next (t.withMsgOk b)

theorem Machine.AgreeButMsgOk.complete {r r' : Except Failure State} (h : AgreeButMsgOk r r') (b : Bool) :
    EndsAgree (.next (s.complete r)) (.next ((s.withMsgOk b).complete r')) := by
  cases h with
  | error e => exact ⟨s.raise e, b, rfl, rfl⟩
  | ok t b => exact ⟨t.done, b, rfl, rfl⟩

theorem Machine.AgreeButMsgOk.extracting (n : Nat) (b c : Bool) (h : t = u.withMsgOk c) :
    AgreeButMsgOk (s.extracting n u) ((s.withMsgOk b).extracting n t) := by
  subst h
  exact .ite (.error _) (.ok u c)

theorem Machine.AgreeButMsgOk.appending (b f : Bool) (bs : Bits) :
    AgreeButMsgOk (s.appending f bs) ((s.withMsgOk b).appending f bs) :=
  .ite (.error _) (.ite (.ok _ b) (.error _))

theorem Machine.AgreeButMsgOk.setPosition (b : Bool) (lon lat : Int) :
    AgreeButMsgOk (s.setPosition lon lat) ((s.withMsgOk b).setPosition lon lat) :=
  .ite (.ok _ false) (.error _)

theorem Machine.AgreeButMsgOk.completeDecode {r r' : Except Failure State} (h : AgreeButMsgOk r r') (b : Bool) :
    EndsAgree (.next (State.completeDecode { s with rpos := 0 } r))
      (.next (State.completeDecode { s.withMsgOk b with rpos := 0 } r')) := by
  cases h with
  | error e => exact ⟨State.failDecode { s with rpos := 0 } e, false, rfl, rfl⟩
  | ok t b => exact ⟨t.setMsgOk.done, true, rfl, rfl⟩

theorem Machine.AgreeButMsgOk.decodeMessage (s : State) (b : Bool) :
    AgreeButMsgOk s.decodeMessage (s.withMsgOk b).decodeMessage := by
  simp only [State.decodeMessage, State.withMsgOk_fieldU, State.withMsgOk_readHeader, State.withMsgOk_walkDec]
  exact .ite (.error _) (.bind fun r => .ite (.error _) (.ok _ b))

theorem Machine.AgreeButMsgOk.encodeMessage (s : State) (b : Bool) :
    AgreeButMsgOk s.encodeMessage (s.withMsgOk b).encodeMessage := by
  have hencoded (bs : Bits) : ((s.withMsgOk b).newWriter.append bs).finalize =
    (s.newWriter.append bs).finalize.withMsgOk b := rfl
  simp only [State.encodeMessage, hencoded]
  exact .ite (.error _) (.bind fun r => .ite (.ok _ b) (.error _))

/-- No command reads `MSG_OK`: with another value of it a command takes the same tests and writes the same (R21). -/
theorem Machine.exec_withMsgOk (i : Instr) (s : State) (b : Bool) : EndsAgree (exec i s) (exec i (s.withMsgOk b)) := by
  cases i with
  | wnew | posavl | posdeg | sogv | cogv | hdgv | posv | utcst => exact ⟨_, b, rfl, rfl⟩
  | fin =>
    have hend (c : Bool) : EndsAgree (.next (if c then s else s.finalize).done)
        (.next (if c then s.withMsgOk b else (s.withMsgOk b).finalize).done) := by
      cases c <;> exact ⟨_, b, rfl, rfl⟩
    exact hend s.wfin
  | rbind => exact AgreeButMsgOk.complete (.ite (.ok _ b) (.error _)) b
  | appu w | apps w => exact AgreeButMsgOk.complete (.ite (.appending b _ _) (.error _)) b
  | posenc | hdrenc => exact AgreeButMsgOk.complete (.appending b _ _) b
  | possetr | possetd => exact AgreeButMsgOk.complete (.setPosition b _ _) b
  | extu w =>
    refine AgreeButMsgOk.complete (.ite (.extracting _ b b ?_) (.error _)) b
    rw [State.withMsgOk_rpos, State.withMsgOk_fieldU, State.withMsgOk_setRes, State.withMsgOk_advance]
  | exts w =>
    refine AgreeButMsgOk.complete (.ite (.extracting _ b b ?_) (.error _)) b
    rw [State.withMsgOk_rpos, State.withMsgOk_fieldS, State.withMsgOk_setRes, State.withMsgOk_advance]
  | posdec =>
    refine AgreeButMsgOk.complete (.extracting _ b false ?_) b
    rw [State.withMsgOk_rpos, State.withMsgOk_readPos, State.withMsgOk_advance, State.withMsgOk_clearMsgOk]
  | hdrdec =>
    refine AgreeButMsgOk.complete (.extracting _ b false ?_) b
    rw [State.withMsgOk_rpos, State.withMsgOk_readHeader, State.withMsgOk_advance, State.withMsgOk_clearMsgOk]
  | taildec =>
    refine AgreeButMsgOk.complete (.bind fun r => .ite (.error _) (.extracting _ b false ?_)) b
    rw [State.withMsgOk_rpos, State.withMsgOk_walkDec, State.withMsgOk_advance, State.withMsgOk_clearMsgOk]
  | tailenc => exact AgreeButMsgOk.complete (.ite (.error _) (.bind fun r => .appending b _ _)) b
  | encode => exact (AgreeButMsgOk.encodeMessage s b).complete b
  | decode => exact (AgreeButMsgOk.decodeMessage s b).completeDecode b

end Flags

/-- Settles O56: the flags after a command are `exec_wfin` and `exec_msgOk`, and `exec_withMsgOk` compares two values. -/
theorem storedFlagsFollowTheRule : Obligations.StoredFlagsFollowTheRule := by
  refine ⟨fun i s t h => ⟨exec_wfin h, exec_msgOk h⟩, fun i v s t h => ?_, fun s t h => ?_, fun i s t b h => ?_⟩
  · obtain ⟨-, rfl⟩ := hostWriteFr_eq_next_iff.mp h
    exact ⟨rfl, rfl⟩
  · obtain rfl := next_inj.mp h
    exact ⟨rfl, rfl⟩
  · obtain ⟨u, b', hu, hb⟩ := exec_withMsgOk i s b
    obtain rfl := next_inj.mp (hu.symm.trans h)
    exact ⟨b', hb⟩

end Sys2Proof
end

