-- ==== Sys2Proof/Proofs/LoadPort.lean ====
section
/-! PROOFS. Which host accesses stop a step, and what a load-port write leaves to the commands after it (R15, R40, R46,
R93, R262). -/

namespace Sys2Proof

open Machine Claims

/-! ## Which steps answer a next state (R40, R262) -/

/-- R262: every arm of `exec` answers a next state. -/
theorem Machine.exec_completes (i : Instr) (s : State) : ∃ t, exec i s = .next t := by
  cases i <;> exact ⟨_, rfl⟩

theorem Machine.issue_completes (c : CommandWord) (s : State) : ∃ t, issue c s = .next t := by
  unfold issue
  split
  next i _ => exact exec_completes i s
  next => exact ⟨_, rfl⟩

/-- The host accesses to a cell or a field register the spec does not have (R40, R46, R15; log 10). -/
def Machine.HostAction.outside (c : Config) : HostAction → Prop
  | .load i _ => c.rbufBits ≤ i
  | .writeFr i _ => c.nfr ≤ i
  | _ => False

theorem Machine.perform_completes_iff (a : HostAction) (s : State) :
    (∃ t, perform a s = .next t) ↔ ¬ a.outside s.cfg := by
  cases a with
  | command c => exact iff_of_true (issue_completes c s) id
  | load i b => simp [perform, hostLoad_eq_next_iff, HostAction.outside]
  | writeFr i v => simp [perform, hostWriteFr_eq_next_iff, HostAction.outside]
  | writeOpa v | writeOpb v | writeDega v | writeDegb v | reset => exact iff_of_true ⟨_, rfl⟩ id

theorem Machine.step_completes_iff (s : State) :
    (∃ t, step s = .next t) ↔ ∀ a rest, s.pending = a :: rest → ¬ a.outside s.cfg := by
  cases h : s.pending with
  | nil => simp [step_of_idle s h]
  | cons a rest => simp [step_of_pending s a rest h, perform_completes_iff]

/-- Settles O10: the two disjuncts are the two actions of `HostAction.outside`. -/
theorem onlyAbsentCellsStopAStep : Obligations.OnlyAbsentCellsStopAStep := by
  intro s
  rw [step_completes_iff]
  constructor
  · rintro h (⟨i, b, rest, hp, hi⟩ | ⟨i, v, rest, hp, hi⟩)
    · exact h _ rest hp hi
    · exact h _ rest hp hi
  · intro h a rest hp ha
    cases a with
    | load i b => exact h (.inl ⟨i, b, rest, hp, ha⟩)
    | writeFr i v => exact h (.inr ⟨i, v, rest, hp, ha⟩)
    | _ => exact ha

/-! ## The load port and the reader (R46, R93) -/

theorem Machine.exec_rbuf {s t : State} {i : Instr} (h : exec i s = .next t) : t.rbuf = s.rbuf := by
  obtain ⟨w, rfl⟩ := exec_written h
  cases i <;> rfl

/-- With no bit left to read, as after a load-port write, every extraction raises TruncatedPayload (R93). -/
theorem Machine.exec_extraction_of_exhausted {s : State} {w : BitVec 6} {j : Instr} (h : s.rlen = s.rpos)
    (hw : isLegal s.cfg w) (hj : j ∈ [Instr.extu w, .exts w, .posdec, .hdrdec]) :
    exec j s = .next (s.raise .truncatedPayload) := by
  have hwidth := (legalWidth_iff s.cfg w).mpr hw
  obtain ⟨hpos, -⟩ := hw
  simp only [List.mem_cons, List.not_mem_nil, or_false] at hj
  obtain rfl | rfl | rfl | rfl := hj
  · exact ((exec_extu_cases s w hwidth).resolve_right fun henough => by omega).2
  · exact ((exec_exts_cases s w hwidth).resolve_right fun henough => by omega).2
  · exact ((exec_posdec_cases s).resolve_right fun henough => by omega).2
  · exact ((exec_hdrdec_cases s).resolve_right fun henough => by omega).2

/-- Settles O8: a load-port write leaves `RLEN = RPOS = 0`, and `exec_rbuf` is the last clause. -/
theorem loadPortWriteUnbinds : Obligations.LoadPortWriteUnbinds := by
  refine ⟨fun s i b rest hp hi => ?_, fun i s t => exec_rbuf⟩
  have hload := hostLoad_eq_next_iff (s := { s with pending := rest }) (b := b).mpr ⟨hi, rfl⟩
  exact ⟨_, (step_of_pending s _ rest hp).trans hload, Mem.get?_set_same _ _ _, fun a => Mem.get?_set_ne _ _, rfl,
    fun w hw j hj => exec_extraction_of_exhausted rfl hw hj⟩

end Sys2Proof
end

