-- ==== Sys2Proof/Proofs/Appends.lean ====
section
/-! PROOFS. The fields in the bits the appending commands write, and the end of an append that meets its tests, whatever
`WLEN` is (R45, R112, R114, R132, R157, R159; log 6). -/

namespace Sys2Proof

open Machine Claims

section Fields

variable {s : State} {as bs : Bits} {o w : Nat} {v : Int}

/-! ## A field in a bit sequence (R7, R112, R114) -/

/-- Bits `o .. o+w-1` of the sequence are the low `w` bits of `v`, most significant first; of a sequence what `holdsField`
is of `WBUF`. -/
def Machine.hasField (bs : Bits) (o w : Nat) (v : Int) : Prop := ∀ k, k < w → bs[o + k]? = some (bitOf v (w - 1 - k))

theorem Machine.unsignedBits_hasField (h : fitsUnsigned v w = true) : hasField (unsignedBits v w) 0 w v := by
  intro k hk
  rw [Nat.zero_add, unsignedBits_getElem? v w k hk h, bitOf]

theorem Machine.signedBits_hasField : hasField (signedBits v w) 0 w v := by
  intro k hk
  rw [Nat.zero_add, signedBits_getElem? v w k hk, bitOf]

theorem Machine.hasField.append_right (h : hasField as o w v) (bs : Bits) : hasField (as ++ bs) o w v := by
  intro k hk
  have hbit := h k hk
  obtain ⟨hlt, -⟩ := List.getElem?_eq_some_iff.mp hbit
  rw [List.getElem?_append_left hlt, hbit]

theorem Machine.hasField.append_left (h : hasField bs o w v) (as : Bits) : hasField (as ++ bs) (as.length + o) w v := by
  intro k hk
  rw [Nat.add_assoc, List.getElem?_append_right (Nat.le_add_right _ _), Nat.add_sub_cancel_left, h k hk]

/-- Bit `o` of a sequence written from cell `q` on is in cell `q + o` (R8). -/
theorem Machine.hasField.write_holdsField (h : hasField bs o w v) (m : Mem Bool) (q : Nat) :
    holdsField (Mem.write m q bs) (q + o) w v := by
  intro k hk
  have hbit := h k hk
  obtain ⟨hlt, -⟩ := List.getElem?_eq_some_iff.mp hbit
  rw [Nat.add_assoc, Mem.get?_write_inside m q bs _ hlt, hbit]

/-! ## The bits of the position, the header and a row (R132, R151, R157) -/

theorem Machine.State.posBits_hasField (s : State) :
    hasField s.posBits 0 28 s.posLon.toInt ∧ hasField s.posBits 28 27 s.posLat.toInt := by
  constructor
  · exact signedBits_hasField.append_right _
  · simpa [State.posBits] using signedBits_hasField.append_left (signedBits s.posLon.toInt 28)

theorem Claims.reg_eq_readFr (s : State) (i : Nat) : reg s i = s.readFr i := rfl

theorem Machine.State.headerFits_iff (s : State) : s.headerFits = true ↔ fieldsFit s headerFields := by
  simp [State.headerFits, State.headerRestFits, fieldsFit, headerFields, fitsUnsigned_iff, reg_eq_readFr]

theorem Machine.State.headerBits_hasField (h : s.headerFits = true) :
    ∀ f ∈ headerFields, hasField s.headerBits f.2.1 f.2.2 (reg s f.1) := by
  simp only [State.headerFits, State.headerRestFits, Bool.and_eq_true] at h
  obtain ⟨hid, hrepeat, hmmsi⟩ := h
  simp only [headerFields, List.forall_mem_cons, reg_eq_readFr]
  refine ⟨?_, ?_, ?_, List.forall_mem_nil _⟩
  · exact ((unsignedBits_hasField hid).append_right _).append_right _
  · simpa [State.headerBits] using
      ((unsignedBits_hasField hrepeat).append_left (unsignedBits (s.readFr 0) 6)).append_right _
  · simpa [State.headerBits] using
      (unsignedBits_hasField hmmsi).append_left (unsignedBits (s.readFr 0) 6 ++ unsignedBits (s.readFr 1) 2)

theorem Machine.State.entryFits_all_iff (s : State) (es : List Entry) :
    es.all s.entryFits = true ↔ entriesFit s es := by
  rw [List.all_eq_true]
  refine forall₂_congr fun e _ => ?_
  cases e with
  | u d w => exact fitsUnsigned_iff _ _
  | s d w => exact fitsSigned_iff _ _
  | pos => exact iff_of_true rfl trivial

/-- A field of the bits of an entry is one of the bits of its row, from the entry's start on (R151). -/
theorem Machine.hasField.walkEncBits {es : List Entry} {k : Nat} {e : Entry} (h : hasField (s.entryBits e) o w v)
    (he : es[k]? = some e) : hasField (s.walkEncBits es) (entryStart es k + o) w v := by
  obtain ⟨hk, rfl⟩ := List.getElem?_eq_some_iff.mp he
  have hsplit : es = es.take k ++ es[k] :: es.drop (k + 1) := by
    rw [← List.drop_eq_getElem_cons hk, List.take_append_drop]
  have hfield := (h.append_right (s.walkEncBits (es.drop (k + 1)))).append_left (s.walkEncBits (es.take k))
  rwa [← State.walkEncBits_cons, ← State.walkEncBits_append, ← hsplit, State.walkEncBits_length] at hfield

theorem Machine.State.walkEncBits_writesEntries {es : List Entry} (h : es.all s.entryFits = true) (m : Mem Bool)
    (q : Nat) : writesEntries s (Mem.write m q (s.walkEncBits es)) q es := by
  intro k e he
  have hfits := List.all_eq_true.mp h e (List.mem_of_getElem? he)
  have hcells (o w : Nat) (v : Int) (hv : hasField (s.entryBits e) o w v) :
      holdsField (Mem.write m q (s.walkEncBits es)) (q + entryStart es k + o) w v := by
    rw [Nat.add_assoc]
    exact (hv.walkEncBits he).write_holdsField m q
  cases e with
  | u d w => exact hcells 0 w _ (unsignedBits_hasField hfits)
  | s d w => exact hcells 0 w _ signedBits_hasField
  | pos =>
    obtain ⟨hlon, hlat⟩ := s.posBits_hasField
    exact ⟨hcells 0 28 _ hlon, hcells 28 27 _ hlat⟩

theorem Config.selects_of_selected {id : Int} {r : Row} (h : selected s id r) :
    s.cfg.selects id = true ∧ s.cfg.row id.toNat = r := by
  obtain ⟨hlow, hhigh, rfl, hpresent⟩ := h
  exact ⟨(s.cfg.selects_iff id).mpr ⟨hlow, hhigh, hpresent⟩, rfl⟩

/-! ## An append that meets its tests (R112, R113) -/

theorem Machine.State.complete_appending {fits : Bool} (hfin : s.wfin = false) (hfits : fits = true) :
    s.complete (s.appending fits bs) = (s.append bs).done := by
  simp [State.appending, hfin, hfits]

/-- A command that completes with one append of `n` bits: what is sure of the cells written, the other cells, and every
other part of the state. -/
theorem Machine.exec_appends {i : Instr} {n : Nat} (hexec : exec i s = .next (s.append bs).done) (hn : bs.length = n)
    (fields : Mem Bool → Prop) (hfields : fields (Mem.write s.wbuf s.wlen bs)) :
    ∃ t, exec i s = .next t ∧ fields t.wbuf ∧ sameOutside s.wbuf t.wbuf s.wlen n ∧
      t = { s with wbuf := t.wbuf, wlen := s.wlen + n, status := 0, info := 0 } := by
  subst hn
  exact ⟨_, hexec, hfields, s.append_get?_outside bs, rfl⟩

end Fields

section Commands

variable {s : State} (hfin : s.wfin = false)

include hfin

theorem Machine.exec_appu_appends {w : BitVec 6} (hw : isLegal s.cfg w) (hlow : 0 ≤ s.opa)
    (hhigh : s.opa < 2 ^ w.toNat) :
    ∃ t, exec (.appu w) s = .next t ∧ holdsField t.wbuf s.wlen w.toNat s.opa ∧
      sameOutside s.wbuf t.wbuf s.wlen w.toNat ∧
      t = { s with wbuf := t.wbuf, wlen := s.wlen + w.toNat, status := 0, info := 0 } := by
  have hfits := (fitsUnsigned_iff s.opa w.toNat).mpr ⟨hlow, hhigh⟩
  have hexec := exec_appu_eq s w ((legalWidth_iff s.cfg w).mpr hw)
  rw [State.complete_appending hfin hfits] at hexec
  exact exec_appends hexec (unsignedBits_length _ _) (holdsField · s.wlen w.toNat s.opa)
    ((unsignedBits_hasField hfits).write_holdsField _ _)

theorem Machine.exec_apps_appends {w : BitVec 6} (hw : isLegal s.cfg w) (hlow : -(2 ^ (w.toNat - 1)) ≤ s.opa)
    (hhigh : s.opa < 2 ^ (w.toNat - 1)) :
    ∃ t, exec (.apps w) s = .next t ∧ holdsField t.wbuf s.wlen w.toNat s.opa ∧
      sameOutside s.wbuf t.wbuf s.wlen w.toNat ∧
      t = { s with wbuf := t.wbuf, wlen := s.wlen + w.toNat, status := 0, info := 0 } := by
  have hfits := (fitsSigned_iff s.opa w.toNat).mpr ⟨hlow, hhigh⟩
  have hexec := exec_apps_eq s w ((legalWidth_iff s.cfg w).mpr hw)
  rw [State.complete_appending hfin hfits] at hexec
  exact exec_appends hexec (signedBits_length _ _) (holdsField · s.wlen w.toNat s.opa)
    (signedBits_hasField.write_holdsField _ _)

theorem Machine.exec_posenc_appends : ∃ t, exec .posenc s = .next t ∧
    holdsField t.wbuf s.wlen 28 s.posLon.toInt ∧ holdsField t.wbuf (s.wlen + 28) 27 s.posLat.toInt ∧
    sameOutside s.wbuf t.wbuf s.wlen 55 ∧
    t = { s with wbuf := t.wbuf, wlen := s.wlen + 55, status := 0, info := 0 } := by
  obtain ⟨hlon, hlat⟩ := s.posBits_hasField
  have hexec := exec_posenc_eq s
  rw [State.complete_appending hfin rfl] at hexec
  simpa only [and_assoc] using exec_appends hexec s.posBits_length
    (fun m => holdsField m s.wlen 28 s.posLon.toInt ∧ holdsField m (s.wlen + 28) 27 s.posLat.toInt)
    ⟨hlon.write_holdsField _ _, hlat.write_holdsField _ _⟩

theorem Machine.exec_hdrenc_appends (h : fieldsFit s headerFields) :
    ∃ t, exec .hdrenc s = .next t ∧ writesFields s t.wbuf s.wlen 0 headerFields ∧
      sameOutside s.wbuf t.wbuf s.wlen 38 ∧
      t = { s with wbuf := t.wbuf, wlen := s.wlen + 38, status := 0, info := 0 } := by
  have hfits := s.headerFits_iff.mpr h
  have hexec := exec_hdrenc_eq s
  rw [State.complete_appending hfin hfits] at hexec
  exact exec_appends hexec s.headerBits_length (writesFields s · s.wlen 0 headerFields)
    (fun f hf => (State.headerBits_hasField hfits f hf).write_holdsField _ _)

theorem Machine.exec_tailenc_appends {r : Row} (hsel : selected s (reg s 0) r) (h : entriesFit s r.entries) :
    ∃ t, exec .tailenc s = .next t ∧ writesEntries s t.wbuf s.wlen r.entries ∧
      sameOutside s.wbuf t.wbuf s.wlen (tailbits r.entries) ∧
      t = { s with wbuf := t.wbuf, wlen := s.wlen + tailbits r.entries, status := 0, info := 0 } := by
  have hfits := (s.entryFits_all_iff r.entries).mpr h
  obtain ⟨hselects, hrow⟩ := Config.selects_of_selected hsel
  obtain ⟨hf, -⟩ | ⟨-, hf, -⟩ | ⟨-, -, hf, -⟩ | ⟨-, -, -, hexec⟩ := exec_tailenc_cases s r hrow
  · exact absurd (hfin.symm.trans hf) Bool.false_ne_true
  · exact absurd (hf.symm.trans hselects) Bool.false_ne_true
  · exact absurd (hf.symm.trans hfits) Bool.false_ne_true
  · exact exec_appends hexec (s.walkEncBits_length r.entries) (writesEntries s · s.wlen r.entries)
      (State.walkEncBits_writesEntries hfits _ _)

end Commands

/-- Settles O27: no test of an appending command reads `WLEN`. -/
theorem appendsPastNominalCapacity : Obligations.AppendsPastNominalCapacity :=
  fun _ _ hw hfin => ⟨exec_appu_appends hfin hw, exec_apps_appends hfin hw, exec_posenc_appends hfin,
    exec_hdrenc_appends hfin, fun _ => exec_tailenc_appends hfin⟩

end Sys2Proof
end

