-- ==== Sys2Proof/Proofs/IllegalWords.lean ====
section
/-! PROOFS. Which words are commands, and what the instance answers to a word or a width that is illegal (R61 to R64). -/

namespace Sys2Proof

open Machine Claims

section Words

variable {cfg : Config} {c : CommandWord} {i : Instr}

/-! ## The words of R62 -/

theorem decode_eq_ok_iff : decode cfg c = .ok i ↔ i.wf cfg = true ∧ encode i = c := decodeInvertsEncode cfg c i

/-- Settles O1: each of the words is the encoding of its command, which is well formed. -/
theorem commandTableWords : Obligations.CommandTableWords := by
  simp only [Obligations.CommandTableWords, decode_eq_ok_iff]
  decide

/-! ## Only the words of R61 to R63 decode (R64) -/

/-- The bytes of a command's word as numbers (R61). -/
theorem encode_bytes (i : Instr) :
    (encode i).toNat / 256 = i.op.toNat ∧ (encode i).toNat % 256 = i.lowByte.toNat := by
  rw [encode, BitVec.toNat_append, ← Nat.shiftLeft_add_eq_or_of_lt i.lowByte.isLt, Nat.shiftLeft_eq]
  have hlow := i.lowByte.isLt
  omega

/-- The low byte of a format-CW word as a number (R61). -/
theorem toNat_zero_append (w : BitVec 6) : ((0 : BitVec 2) ++ w).toNat = w.toNat := by
  rw [BitVec.toNat_append]
  simp

/-- The word of a well-formed command is one of the words of R61 to R63. -/
theorem isCommandWord_encode (hwf : i.wf cfg = true) : isCommandWord cfg (encode i) := by
  obtain ⟨hop, hlow⟩ := encode_bytes i
  cases i with
  | extu w | exts w | appu w | apps w =>
    obtain ⟨hpos, hmax⟩ := (legalWidth_iff cfg w).mp hwf
    have hwidth := hlow.trans (toNat_zero_append w)
    have hlt := w.isLt
    exact .inr ⟨by omega, by omega, by omega, by rw [hop]; simp [Instr.op]⟩
  | _ =>
    exact .inl ⟨hlow, by rw [hop]; decide⟩

theorem isCommandWord_of_decode (h : decode cfg c = .ok i) : isCommandWord cfg c := by
  obtain ⟨hwf, rfl⟩ := decode_eq_ok_iff.mp h
  exact isCommandWord_encode hwf

/-! ## What an illegal word or width does (R63, R64) -/

/-- An issued word that is not one of R61 to R63 has no command to run, so it is IllegalCommand (R64). -/
theorem Machine.issue_of_not_isCommandWord {s : State} (h : ¬ isCommandWord s.cfg c) :
    issue c s = .next (s.raise .illegalCommand) := by
  obtain ⟨t, ht⟩ := issue_completes c s
  obtain ⟨i, hi, -⟩ | rfl := issue_ends ht
  · exact absurd (isCommandWord_of_decode hi) h
  · exact ht

end Words

/-- Settles O3: the step issues the word, and raising IllegalCommand writes `STATUS` and `INFO` alone. -/
theorem illegalWordChangesOnlyStatus : Obligations.IllegalWordChangesOnlyStatus := by
  intro s c rest hp hc
  rw [step_of_pending s _ rest hp]
  exact issue_of_not_isCommandWord (s := { s with pending := rest }) hc

/-- Settles O4, by `exec_illegal_width`. -/
theorem illegalWidthIsIllegalCommand : Obligations.IllegalWidthIsIllegalCommand := by
  intro s w hw i hi
  have hwidth : legalWidth s.cfg w = false := by
    rw [← Bool.not_eq_true, legalWidth_iff]
    exact hw
  exact exec_illegal_width s w hwidth i (by simpa using hi)

end Sys2Proof
end

