-- ==== Sys2Proof/Proofs/PositionExtraction.lean ====
section
/-! PROOFS. POSDEC is two signed extractions (R67, R94, R131). -/

namespace Sys2Proof

open Machine Claims

section Extraction

variable {s t : State}

/-- Reading a signed field needs the cells of `RBUF` alone, written or not (R13, R94; log 3). -/
theorem Machine.State.fieldS_congr (hrbuf : t.rbuf = s.rbuf) (hepoch : t.epoch = s.epoch) (p w : Nat) :
    t.fieldS p w = s.fieldS p w := by
  have hbit (a : Nat) : t.rbufBit a = s.rbufBit a := by rw [State.rbufBit, hrbuf, hepoch, State.rbufBit]
  rw [State.fieldS, State.fieldU, State.readRbuf_congr t s p p w fun k _ => hbit (p + k), State.fieldS, State.fieldU]

/-- The state EXTS leaves when it completes: the signed field at the cursor in `RES`, the cursor past it (R94). -/
def Machine.State.extracted (s : State) (w : Nat) : State := ((s.setRes (s.fieldS s.rpos w)).advance w).done

@[simp] theorem Machine.State.extracted_cfg (w : Nat) : (s.extracted w).cfg = s.cfg := (rfl)

@[simp] theorem Machine.State.extracted_rlen (w : Nat) : (s.extracted w).rlen = s.rlen := (rfl)

@[simp] theorem Machine.State.extracted_rpos (w : Nat) : (s.extracted w).rpos = s.rpos + w := (rfl)

@[simp] theorem Machine.State.extracted_res (w : Nat) : (s.extracted w).res = s.fieldS s.rpos w := (rfl)

@[simp] theorem Machine.State.extracted_fieldS (v p w : Nat) : (s.extracted v).fieldS p w = s.fieldS p w :=
  State.fieldS_congr (s := s) (t := s.extracted v) rfl rfl p w

/-- With `n` bits left, EXTS n returns the signed field at the cursor and moves past it (R94). -/
theorem Machine.exec_exts_of_enough {w : BitVec 6} {n : Nat} (hn : w.toNat = n) (hw : isLegal s.cfg w)
    (h : s.rpos + n ≤ s.rlen) : exec (.exts w) s = .next (s.extracted n) := by
  subst hn
  exact ((exec_exts_cases s w ((legalWidth_iff s.cfg w).mpr hw)).resolve_left fun hshort => by omega).2

/-- With 55 bits left, POSDEC reads the two signed fields at the cursor and moves past them (R131). -/
theorem Machine.exec_posdec_of_enough (h : s.rpos + 55 ≤ s.rlen) : ∃ t, exec .posdec s = .next t ∧
    t.posLon.toInt = s.fieldS s.rpos 28 ∧ t.posLat.toInt = s.fieldS (s.rpos + 28) 27 ∧ t.rpos = s.rpos + 55 := by
  obtain ⟨hshort, -⟩ | ⟨-, hexec⟩ := exec_posdec_cases s
  · omega
  · exact ⟨_, hexec, by simpa using s.readPos_toInt s.rpos⟩

end Extraction

/-- Settles O37: the second extraction starts where the first ended, and reads the `RBUF` the first left unchanged. -/
theorem posdecIsTwoSignedExtractions : Obligations.PosdecIsTwoSignedExtractions := by
  intro s hcfg henough
  obtain ⟨hmax, -⟩ := Config.wMax_bounds hcfg
  have hlegal28 : isLegal s.cfg 28 := ⟨by decide, le_trans (by decide) hmax⟩
  have hlegal27 : isLegal (s.extracted 28).cfg 27 := by
    rw [State.extracted_cfg]
    exact ⟨by decide, le_trans (by decide) hmax⟩
  have hlon := exec_exts_of_enough (n := 28) rfl hlegal28 (by omega)
  have hlat := exec_exts_of_enough (n := 27) rfl hlegal27 (by simp; omega)
  obtain ⟨t, hposdec, hposLon, hposLat, hrpos⟩ := exec_posdec_of_enough henough
  exact ⟨_, _, t, hlon, hlat, hposdec, by simpa using hposLon, by simpa using hposLat, by simpa using hrpos⟩

end Sys2Proof
end

