-- ==== Sys2Proof/Proofs/RowFormat.lean ====
section
/-! PROOFS. The binary form of a layout row, read back (R71, R73). -/

namespace Sys2Proof

open Machine Claims

section Rows

variable {c : Config} {r : Row} {e : Entry} {es : List Entry}

/-! ## Entry words (R71) -/

/-- The fields of an entry word: kind, width, zero, register. -/
theorem entryWord_fields {x : BitVec 16} {k : BitVec 2} {w : BitVec 6} {z : BitVec 3} {d : BitVec 5}
    (hx : x = k ++ w ++ z ++ d) :
    x.extractLsb' 14 2 = k ∧ x.extractLsb' 8 6 = w ∧ x.extractLsb' 5 3 = z ∧ x.extractLsb' 0 5 = d := by
  subst hx
  refine ⟨?_, ?_, ?_, BitVec.extractLsb'_append_eq_right⟩ <;> rw [BitVec.extractLsb'_append_eq_of_le (by decide)]
  · rw [BitVec.extractLsb'_append_eq_of_le (by decide)]
    exact BitVec.extractLsb'_append_eq_left
  · rw [BitVec.extractLsb'_append_eq_of_le (by decide)]
    exact BitVec.extractLsb'_append_eq_right
  · exact BitVec.extractLsb'_append_eq_right

/-- The word of an entry whose width and register are in the ranges of the form reads back as the entry. -/
theorem readEntryWord_entryWord (hmax : c.wMax ≤ 63) (hwf : e.wf c = true) (hdest : ∀ d, e.dest? = some d → d < 32) :
    readEntryWord c (entryWord e) = some e := by
  cases e with
  | u d w | s d w =>
    have hwidth : 1 ≤ w ∧ w ≤ c.wMax := of_decide_eq_true hwf
    have hw : (BitVec.ofNat 6 w).toNat = w := Nat.mod_eq_of_lt (by omega)
    have hd : (BitVec.ofNat 5 d).toNat = d := Nat.mod_eq_of_lt (hdest d rfl)
    simp only [readEntryWord, entryWord, entryWord_fields rfl, hw, hd]
    simp [hwidth]
  | pos => rfl

/-- Entry words that each read back as their entry read back as the list. -/
theorem mapM_readEntryWord_map_entryWord (h : ∀ e ∈ es, readEntryWord c (entryWord e) = some e) :
    (es.map entryWord).mapM (readEntryWord c) = some es := by
  induction es with
  | nil => rfl
  | cons e es ih =>
    obtain ⟨he, hes⟩ := List.forall_mem_cons.mp h
    rw [List.map_cons, List.mapM_cons, he, ih hes]
    rfl

/-! ## Rows (R71, R73) -/

/-- The fields of a row header word whose numbers are in the ranges of the form: present, zero, length, zero, number of
entries. -/
theorem rowHeaderWord_fields (hexplen : r.explen ≤ 2047) (hlength : r.entries.length ≤ 63) :
    (rowHeaderWord r).getLsbD 31 = r.present ∧ (rowHeaderWord r).extractLsb' 27 4 = 0 ∧
      ((rowHeaderWord r).extractLsb' 16 11).toNat = r.explen ∧ (rowHeaderWord r).extractLsb' 6 10 = 0 ∧
      ((rowHeaderWord r).extractLsb' 0 6).toNat = r.entries.length := by
  have hx : (BitVec.ofNat 11 r.explen).toNat = r.explen := Nat.mod_eq_of_lt (by omega)
  have hn : (BitVec.ofNat 6 r.entries.length).toNat = r.entries.length := Nat.mod_eq_of_lt (by omega)
  unfold rowHeaderWord
  refine ⟨?_, ?_, ?_, ?_, ?_⟩
  · simp only [BitVec.getLsbD_append]
    simp
  · iterate 3 rw [BitVec.extractLsb'_append_eq_of_le (by decide)]
    exact BitVec.extractLsb'_append_eq_right
  · iterate 2 rw [BitVec.extractLsb'_append_eq_of_le (by decide)]
    exact (congrArg _ BitVec.extractLsb'_append_eq_right).trans hx
  · rw [BitVec.extractLsb'_append_eq_of_le (by decide)]
    exact BitVec.extractLsb'_append_eq_right
  · exact (congrArg _ BitVec.extractLsb'_append_eq_right).trans hn

/-- A header word and entry words that read back are read back as the row. -/
theorem readRowWords_rowHeaderWord (hexplen : r.explen ≤ 2047) (hlength : r.entries.length ≤ 63)
    (h : (r.entries.map entryWord).mapM (readEntryWord c) = some r.entries) :
    readRowWords c (rowHeaderWord r) (r.entries.map entryWord) = some r := by
  simp only [readRowWords, rowHeaderWord_fields hexplen hlength, h, List.length_map]
  simp

/-- R70: the register of an entry is named by the entries. -/
theorem names_of_dest? {d : Nat} (he : e ∈ es) (hd : e.dest? = some d) : names es d := by
  cases e with
  | u d' w =>
    cases hd
    exact ⟨w, .inl he⟩
  | s d' w =>
    cases hd
    exact ⟨w, .inr he⟩
  | pos => cases hd

end Rows

/-- Settles O45: R73 bounds every width by `W_MAX`, which is at most 63, so each field of the words holds its number. -/
theorem rowFormatRoundTrips : Obligations.RowFormatRoundTrips := by
  intro c r hcfg hpresent hrow hexplen hlength hdest
  obtain ⟨hsizes, -⟩ := c.wf_iff.mp hcfg
  obtain ⟨-, hmax, -⟩ := c.sizesWf_iff.mp hsizes
  obtain ⟨-, -, -, hentries⟩ := (Row.wf_iff c r hpresent).mp hrow
  have hentry : ∀ e ∈ r.entries, readEntryWord c (entryWord e) = some e := fun e he =>
    readEntryWord_entryWord hmax (entry_wf_of_entriesWf hentries e he) fun d hd => hdest d (names_of_dest? he hd)
  exact readRowWords_rowHeaderWord hexplen hlength (mapM_readEntryWord_map_entryWord hentry)

end Sys2Proof
end

