-- ==== Sys2Proof/Proofs/BitCursor.lean ====
section
/-! PROOFS. The reader unit: binding a sequence, extracting a field, and where the cursor can go (R91 to R96). -/

namespace Sys2Proof

open Machine Claims

section Cursor

variable {s t u : State} {w : BitVec 6} {i : Instr}

/-! ## Fields (R41, R94, R95) -/

theorem Claims.fieldValue_eq_fieldU (s : State) (p w : Nat) : fieldValue s.rbufBit p w = s.fieldU p w :=
  (s.fieldU_eq_sum p w).symm

theorem Claims.twosComplement_fieldValue_eq_fieldS (s : State) (p w : Nat) :
    twosComplement w (fieldValue s.rbufBit p w) = s.fieldS p w := by
  rw [fieldValue_eq_fieldU]
  rfl

/-- A field is the fields of its first `a` and its last `b` bits, one after the other (R95 a). -/
theorem Machine.State.fieldU_add (s : State) (p a b : Nat) :
    s.fieldU p (a + b) = s.fieldU p a * 2 ^ b + s.fieldU (p + a) b := by
  rw [State.fieldU, State.readRbuf_add, beUint_append, State.readRbuf_length, State.fieldU, State.fieldU]

/-- The two readings of a field differ by nothing or by `2^w` (R95 b). -/
theorem Machine.State.fieldS_emod (s : State) (p w : Nat) : s.fieldS p w % 2 ^ w = s.fieldU p w := by
  have hpattern : tc w (s.fieldS p w) = s.fieldU p w := tc_sext w _ (s.fieldU_lt p w)
  rw [← hpattern, tc, Int.toNat_of_nonneg (Int.emod_nonneg _ (by positivity))]

/-! ## How an extraction ends (R92, R93, R94) -/

theorem Machine.exec_extu_of_short (hw : isLegal s.cfg w) (h : s.rlen < s.rpos + w.toNat) :
    exec (.extu w) s = .next (s.raise .truncatedPayload) :=
  ((exec_extu_cases s w ((legalWidth_iff s.cfg w).mpr hw)).resolve_right fun henough => by omega).2

theorem Machine.exec_exts_of_short (hw : isLegal s.cfg w) (h : s.rlen < s.rpos + w.toNat) :
    exec (.exts w) s = .next (s.raise .truncatedPayload) :=
  ((exec_exts_cases s w ((legalWidth_iff s.cfg w).mpr hw)).resolve_right fun henough => by omega).2

/-- The state EXTU leaves when it completes: the unsigned field at the cursor in `RES`, the cursor past it (R92). -/
def Machine.State.extractedU (s : State) (w : Nat) : State := ((s.setRes (s.fieldU s.rpos w)).advance w).done

@[simp] theorem Machine.State.extractedU_cfg (w : Nat) : (s.extractedU w).cfg = s.cfg := (rfl)

@[simp] theorem Machine.State.extractedU_rlen (w : Nat) : (s.extractedU w).rlen = s.rlen := (rfl)

@[simp] theorem Machine.State.extractedU_rpos (w : Nat) : (s.extractedU w).rpos = s.rpos + w := (rfl)

@[simp] theorem Machine.State.extractedU_res (w : Nat) : (s.extractedU w).res = s.fieldU s.rpos w := (rfl)

/-- An extraction leaves the bits a later one reads. -/
@[simp] theorem Machine.State.extractedU_fieldU (v p w : Nat) : (s.extractedU v).fieldU p w = s.fieldU p w :=
  congrArg beUint (State.readRbuf_congr _ _ p p w fun _ _ => rfl)

theorem Machine.exec_extu_of_enough (hw : isLegal s.cfg w) (h : s.rpos + w.toNat ≤ s.rlen) :
    exec (.extu w) s = .next (s.extractedU w.toNat) :=
  ((exec_extu_cases s w ((legalWidth_iff s.cfg w).mpr hw)).resolve_left fun hshort => by omega).2

/-! ## Where the cursor can go (R96) -/

/-- A command that creates no cursor and succeeds leaves it or moves it on (R14). -/
theorem Machine.Effect.rpos_le (h : Effect i s u) (hrbind : i ≠ .rbind) (hdecode : i ≠ .decode) : s.rpos ≤ u.rpos := by
  cases i with
  | rbind => exact absurd rfl hrbind
  | decode => exact absurd rfl hdecode
  | extu w | exts w =>
    obtain ⟨-, -, rfl⟩ := h
    exact Nat.le_add_right _ _
  | posdec | hdrdec =>
    obtain ⟨-, rfl⟩ := h
    simp
  | taildec =>
    obtain ⟨r, -, -, -, -, rfl⟩ := h
    simp
  | _ => exact (congrArg State.rpos h.eq_written).ge

/-- A command that rewinds the cursor is one of the two that create one (R14, R96). -/
theorem Machine.exec_rewinds (h : exec i s = .next t) (hlt : t.rpos < s.rpos) : i = .rbind ∨ i = .decode := by
  obtain ⟨-, e, -, rfl⟩ | ⟨hdecode, -⟩ | ⟨u, hu, rfl⟩ := exec_ends i s t h
  · exact absurd hlt (lt_irrefl _)
  · exact .inr hdecode
  · by_contra hother
    obtain ⟨hrbind, hdecode⟩ := not_or.mp hother
    exact absurd hlt (hu.rpos_le hrbind hdecode).not_gt

end Cursor

/-- Settles O14, by `exec_rbind_cases`. -/
theorem rbindBindsOrRejects : Obligations.RbindBindsOrRejects := by
  intro s
  obtain ⟨hlow, hhigh, hexec⟩ | ⟨houtside, hexec⟩ := exec_rbind_cases s
  · rw [if_pos ⟨hlow, hhigh⟩, hexec]
    rfl
  · rw [if_neg houtside, hexec]
    rfl

/-- Settles O15: `RES` is `fieldU`, which is the sum of R41. -/
theorem extuReturnsUnsignedField : Obligations.ExtuReturnsUnsignedField := by
  intro s w hw
  obtain ⟨-, hhigh⟩ := (fitsUnsigned_iff _ _).mp (s.fitsUnsigned_fieldU s.rpos w.toNat)
  exact ⟨exec_extu_of_short hw, fun henough => ⟨_, exec_extu_of_enough hw henough,
    congrArg Nat.cast (fieldValue_eq_fieldU s s.rpos w.toNat).symm, hhigh, rfl⟩⟩

/-- Settles O16: `RES` is `fieldS`, which a register of `w` bits holds. -/
theorem extsReturnsSignedField : Obligations.ExtsReturnsSignedField := by
  intro s w hw
  obtain ⟨hlow, hhigh⟩ := (fitsSigned_iff _ _).mp (s.fitsSigned_fieldS s.rpos w.toNat hw.1)
  exact ⟨exec_exts_of_short hw, fun henough => ⟨_, exec_exts_of_enough rfl hw henough,
    (twosComplement_fieldValue_eq_fieldS s s.rpos w.toNat).symm, hlow, hhigh, rfl⟩⟩

/-- Settles O17: each is the short case of its command; row 18 has 168 bits, 130 of them the tail. -/
theorem tooFewBitsChangesOnlyStatus : Obligations.TooFewBitsChangesOnlyStatus := by
  refine fun s => ⟨fun w hw hshort i hi => ?_, fun hshort => ?_, fun hshort => ?_, fun hid hlen hshort => ?_⟩
  · obtain rfl | rfl : i = .extu w ∨ i = .exts w := by simpa using hi
    · exact exec_extu_of_short hw hshort
    · exact exec_exts_of_short hw hshort
  · exact ((exec_posdec_cases s).resolve_right fun henough => by omega).2
  · exact ((exec_hdrdec_cases s).resolve_right fun henough => by omega).2
  · have hid : s.readFr 0 = 18 := hid
    have hsel : s.cfg.selects (s.readFr 0) = true := hid ▸ s.cfg.selects_18
    have hrow : s.cfg.row (s.readFr 0).toNat = row18 := hid ▸ s.cfg.row_18
    obtain ⟨hnone, -⟩ | ⟨-, hlength, -⟩ | ⟨-, -, -, hexec⟩ | ⟨-, -, henough, -⟩ := exec_taildec_cases s row18 hrow
    · rw [hsel] at hnone
      cases hnone
    · exact absurd hlen hlength
    · exact hexec
    · rw [tailbits_row18] at henough
      omega

/-- Settles O18: the second extraction starts where the first ended, and reads bits the first left unchanged. -/
theorem extractionSplits : Obligations.ExtractionSplits := by
  intro s a b c ha hb hc hsum henough
  refine ⟨_, _, _, exec_extu_of_enough ha (by omega), exec_extu_of_enough (s := s.extractedU a.toNat) hb ?_,
    exec_extu_of_enough hc henough, ?_, ?_⟩
  · rw [State.extractedU_rpos, State.extractedU_rlen]
    omega
  · have hsplit := s.fieldU_add s.rpos a.toNat b.toNat
    rw [hsum] at hsplit
    simp only [State.extractedU_res, State.extractedU_rpos, State.extractedU_fieldU, hsplit]
    push_cast
    rfl
  · simp only [State.extractedU_rpos]
    omega

/-- Settles O19, by `State.fieldS_emod`. -/
theorem signedAndUnsignedAgreeModWidth : Obligations.SignedAndUnsignedAgreeModWidth := by
  intro s w hw henough
  exact ⟨_, _, exec_exts_of_enough rfl hw henough, exec_extu_of_enough hw henough, s.fieldS_emod s.rpos w.toNat⟩

/-- Settles O20: only the load port, reset and two commands write a smaller `RPOS`. -/
theorem cursorNeverRewinds : Obligations.CursorNeverRewinds := by
  intro a s t h hlt
  cases a with
  | load i b => exact .inl ⟨i, b, rfl⟩
  | reset => exact .inr (.inl rfl)
  | command c =>
    obtain ⟨i, hdec, hexec⟩ | rfl := issue_ends h
    · obtain rfl | rfl := exec_rewinds hexec hlt
      · exact .inr (.inr ⟨c, rfl, .inl hdec⟩)
      · exact .inr (.inr ⟨c, rfl, .inr hdec⟩)
    · exact absurd hlt (lt_irrefl _)
  | writeFr i v =>
    obtain ⟨-, rfl⟩ := hostWriteFr_eq_next_iff.mp h
    exact absurd hlt (lt_irrefl _)
  | writeOpa v | writeOpb v | writeDega v | writeDegb v =>
    obtain rfl := next_inj.mp h
    exact absurd hlt (lt_irrefl _)

end Sys2Proof
end

