-- ==== Sys2Proof/Proofs/BitWriter.lean ====
section
/-! PROOFS. The writer unit: a new writer, appending a field, the lock of a finalized writer, and finalizing (R111 to
R118). -/

namespace Sys2Proof

open Machine Claims

section Writer

variable {s t u : State} {w : BitVec 6} {i : Instr}

/-! ## How an append fails (R112, R113, R114) -/

theorem Machine.State.complete_appending_of_locked (h : s.wfin = true) (fits : Bool) (bs : Bits) :
    s.complete (s.appending fits bs) = s.raise .writerFinalized := by
  simp [State.appending, h]

theorem Machine.State.complete_appending_of_overflow {fits : Bool} (hfin : s.wfin = false) (h : ¬ fits = true)
    (bs : Bits) : s.complete (s.appending fits bs) = s.raise .fieldOverflow := by
  simp [State.appending, hfin, h]

/-- The commands that append fail with WriterFinalized on a finalized writer (R113). -/
theorem Machine.exec_append_of_locked (hw : isLegal s.cfg w) (hfin : s.wfin = true)
    (hi : i ∈ [Instr.appu w, .apps w, .posenc, .hdrenc, .tailenc]) : exec i s = .next (s.raise .writerFinalized) := by
  have hwidth := (legalWidth_iff s.cfg w).mpr hw
  simp only [List.mem_cons, List.not_mem_nil, or_false] at hi
  obtain rfl | rfl | rfl | rfl | rfl := hi
  · rw [exec_appu_eq s w hwidth, State.complete_appending_of_locked hfin]
  · rw [exec_apps_eq s w hwidth, State.complete_appending_of_locked hfin]
  · rw [exec_posenc_eq, State.complete_appending_of_locked hfin]
  · rw [exec_hdrenc_eq, State.complete_appending_of_locked hfin]
  · obtain ⟨-, hexec⟩ | ⟨hopen, -⟩ | ⟨hopen, -⟩ | ⟨hopen, -⟩ := exec_tailenc_cases s _ rfl
    · exact hexec
    all_goals exact absurd (hopen.symm.trans hfin) Bool.false_ne_true

/-! ## What a finalized writer keeps (R113, R117) -/

/-- `t` has the bits, the text and the lock of `s` (R12). -/
def Machine.State.sameWriter (s t : State) : Prop :=
  t.wbuf = s.wbuf ∧ t.wlen = s.wlen ∧ t.wfin = s.wfin ∧ t.arm = s.arm ∧ t.armlen = s.armlen ∧ t.fill = s.fill

theorem Machine.State.sameWriter_refl (s : State) : s.sameWriter s := ⟨rfl, rfl, rfl, rfl, rfl, rfl⟩

theorem Machine.Effect.sameWriter_of_locked (h : Effect i s u) (hfin : s.wfin = true) (hwnew : i ≠ .wnew)
    (hencode : i ≠ .encode) : s.sameWriter u := by
  cases i with
  | wnew => exact absurd rfl hwnew
  | encode => exact absurd rfl hencode
  | appu w | apps w | posenc | hdrenc =>
    obtain ⟨hopen, -⟩ := h
    simp [hfin] at hopen
  | tailenc =>
    obtain ⟨r, hopen, -⟩ := h
    simp [hfin] at hopen
  | fin =>
    obtain ⟨-, rfl⟩ | ⟨hopen, -⟩ := h
    · exact u.sameWriter_refl
    · simp [hfin] at hopen
  | _ =>
    rw [h.eq_written]
    exact s.sameWriter_refl

theorem Machine.exec_sameWriter_of_locked (h : exec i s = .next t) (hfin : s.wfin = true) (hwnew : i ≠ .wnew)
    (hencode : i ≠ .encode) : s.sameWriter t := by
  obtain ⟨-, e, -, rfl⟩ | ⟨-, e, -, rfl⟩ | ⟨u, hu, rfl⟩ := exec_ends i s t h
  · exact s.sameWriter_refl
  · exact s.sameWriter_refl
  · exact hu.sameWriter_of_locked hfin hwnew hencode

/-- What changes a finalized writer is reset, WNEW or ENCODE (R113). -/
theorem Machine.perform_of_locked {a : HostAction} (h : perform a s = .next t) (hfin : s.wfin = true) :
    a = .reset ∨ (∃ c i, a = .command c ∧ decode s.cfg c = .ok i ∧ exec i s = .next t ∧ (i = .wnew ∨ i = .encode)) ∨
      s.sameWriter t := by
  cases a with
  | reset => exact .inl rfl
  | command c =>
    obtain ⟨i, hdec, hexec⟩ | rfl := issue_ends h
    · by_cases hi : i = .wnew ∨ i = .encode
      · exact .inr (.inl ⟨c, i, rfl, hdec, hexec, hi⟩)
      · obtain ⟨hwnew, hencode⟩ := not_or.mp hi
        exact .inr (.inr (exec_sameWriter_of_locked hexec hfin hwnew hencode))
    · exact .inr (.inr s.sameWriter_refl)
  | load i b =>
    obtain ⟨-, rfl⟩ := hostLoad_eq_next_iff.mp h
    exact .inr (.inr s.sameWriter_refl)
  | writeFr i v =>
    obtain ⟨-, rfl⟩ := hostWriteFr_eq_next_iff.mp h
    exact .inr (.inr s.sameWriter_refl)
  | writeOpa v | writeOpb v | writeDega v | writeDegb v =>
    obtain rfl := next_inj.mp h
    exact .inr (.inr s.sameWriter_refl)

/-- An ENCODE on a finalized writer leaves a finalized writer, its own or the old one (R113, R205). -/
theorem Machine.exec_encode_wfin_of_locked (h : exec .encode s = .next t) (hfin : s.wfin = true) : t.wfin = true := by
  rw [exec_wfin h, if_neg (by decide), hfin, ite_self]

/-! ## Finalizing (R115, R118) -/

theorem Machine.exec_fin_of_locked (hfin : s.wfin = true) : exec .fin s = .next s.done := by
  obtain ⟨-, hexec⟩ | ⟨hopen, -⟩ := exec_fin_cases s
  · exact hexec
  · simp [hfin] at hopen

theorem Machine.exec_fin_of_open (hfin : s.wfin = false) : exec .fin s = .next s.finalize.done := by
  obtain ⟨hlocked, -⟩ | ⟨-, hexec⟩ := exec_fin_cases s
  · simp [hfin] at hlocked
  · exact hexec

theorem Machine.fillCount_eq_zero_iff (n : Nat) : fillCount n = 0 ↔ 6 ∣ n := by
  unfold fillCount
  omega

/-- A group is the six bits read as a field, zero past `WLEN` (R42, R115). -/
theorem Machine.State.group_eq_fieldValue (s : State) (i : Nat) :
    s.group i = fieldValue (fun j => if j < s.wlen then s.wbufBit j else false) (6 * i) 6 := s.group_eq_sum i

theorem Machine.State.group_lt (s : State) (i : Nat) : s.group i < 64 := by
  simpa [State.group] using
    beUint_lt ((List.range 6).map fun k => if 6 * i + k < s.wlen then s.wbufBit (6 * i + k) else false)

/-- Each bit of the writer is a bit of its group (R42). -/
theorem Machine.State.wbufBit_eq_testBit_group {a : Nat} (h : a < s.wlen) :
    s.wbufBit a = (s.group (a / 6)).testBit (5 - a % 6) := by
  have hbit := testBit_beUint
    ((List.range 6).map fun k => if 6 * (a / 6) + k < s.wlen then s.wbufBit (6 * (a / 6) + k) else false) (a % 6)
    (by simp; omega)
  simpa [State.group, Nat.div_add_mod, h] using hbit.symm

/-- Equal characters of two texts are equal groups (R118). -/
theorem Machine.State.group_eq_of_arm_eq {s₁ s₂ : State} {j : Nat} (hwf : armorWf s₁.cfg.armor = true)
    (hcfg : s₁.cfg = s₂.cfg) (h₁ : j < s₁.finalize.armlen) (h₂ : j < s₂.finalize.armlen)
    (h : Mem.get? s₁.finalize.arm j = Mem.get? s₂.finalize.arm j) : s₁.group j = s₂.group j := by
  obtain ⟨-, -, htext₁⟩ := s₁.finalize_armored
  obtain ⟨-, -, htext₂⟩ := s₂.finalize_armored
  rw [htext₁ j h₁, htext₂ j h₂, State.finalize_cfg, State.finalize_cfg, ← hcfg] at h
  exact s₁.cfg.armorChar_injective hwf _ _ (s₁.group_lt j) (s₂.group_lt j) (Option.some.inj h)

end Writer

/-- Settles O21, by `exec_wnew_eq`. -/
theorem wnewEmptiesWriter : Obligations.WnewEmptiesWriter := exec_wnew_eq

/-- Settles O22: the two failures, and `exec_appu_appends`, which asks no capacity. -/
theorem appuAppendsUnsignedField : Obligations.AppuAppendsUnsignedField := by
  refine fun s w hw => ⟨fun hfin => exec_append_of_locked hw hfin (by simp), fun hfin houtside => ?_,
    fun hfin hlow hhigh _ => exec_appu_appends hfin hw hlow hhigh⟩
  rw [exec_appu_eq s w ((legalWidth_iff s.cfg w).mpr hw), State.complete_appending_of_overflow hfin]
  · rfl
  · rwa [fitsUnsigned_iff, not_and_or, not_le, not_lt]

/-- Settles O23: the two failures, and `exec_apps_appends`, which asks no capacity. -/
theorem appsAppendsSignedField : Obligations.AppsAppendsSignedField := by
  refine fun s w hw => ⟨fun hfin => exec_append_of_locked hw hfin (by simp), fun hfin houtside => ?_,
    fun hfin hlow hhigh _ => exec_apps_appends hfin hw hlow hhigh⟩
  rw [exec_apps_eq s w ((legalWidth_iff s.cfg w).mpr hw), State.complete_appending_of_overflow hfin]
  · rfl
  · rwa [fitsSigned_iff, not_and_or, not_le, not_lt]

/-- Settles O24: `perform_of_locked`, and of the two commands it leaves only WNEW opens the writer. -/
theorem finalizedWriterIsLocked : Obligations.FinalizedWriterIsLocked := by
  refine ⟨fun s w hw hfin i hi => exec_append_of_locked hw hfin hi, fun a s t h hfin => ?_⟩
  obtain rfl | ⟨c, i, rfl, hdec, hexec, hi⟩ | ⟨hwbuf, hwlen, hwfin, harm, harmlen, hfill⟩ := perform_of_locked h hfin
  · exact ⟨fun _ => .inl rfl, fun _ => .inl rfl⟩
  · obtain rfl | rfl := hi
    · exact ⟨fun _ => .inr ⟨c, rfl, hdec⟩, fun _ => .inr ⟨c, rfl, .inl hdec⟩⟩
    · refine ⟨fun hopen => ?_, fun _ => .inr ⟨c, rfl, .inr hdec⟩⟩
      simp [exec_encode_wfin_of_locked hexec hfin] at hopen
  · refine ⟨fun hopen => ?_, fun hchanged => ?_⟩
    · simp [hwfin, hfin] at hopen
    · simp [hwbuf, hwlen, harm, harmlen, hfill] at hchanged

/-- Settles O25: the text is that of `finalize_armored`, written at 0. -/
theorem finPadsArmorsFinalizes : Obligations.FinPadsArmorsFinalizes := by
  refine fun s => ⟨exec_fin_of_locked, fun hfin => ⟨_, exec_fin_of_open hfin, fun i hi => ?_, ?_, rfl⟩⟩
  · obtain ⟨-, -, htext⟩ := s.finalize_armored
    rw [← State.group_eq_fieldValue]
    exact htext i hi
  · intro a ha
    exact Mem.get?_write_outside s.arm 0 s.armorText a (by rwa [State.armorText_length])

/-- Settles O26: the lengths are those of `finalize_armored`. -/
theorem fillCountAccountsForText : Obligations.FillCountAccountsForText := by
  intro s t hfin hexec
  obtain rfl := next_inj.mp ((exec_fin_of_open hfin).symm.trans hexec)
  obtain ⟨-, hlength, -⟩ := s.finalize_armored
  exact ⟨hlength, fillCount_le _, fillCount_eq_zero_iff _⟩

/-- Settles O60: the lengths give the number of bits, and equal characters are equal groups, which hold the bits. -/
theorem armoredTextDeterminesBits : Obligations.ArmoredTextDeterminesBits := by
  refine ⟨fun c hc g k hg hk => ?_, fun s₁ s₂ t₁ t₂ hc hcfg hfin₁ hfin₂ h₁ h₂ harmlen hfill htext => ?_⟩
  · obtain ⟨-, harmor, -⟩ := c.wf_iff.mp hc
    exact ⟨c.armorChar_injective harmor g k hg hk, c.armorChar_printable harmor g hg⟩
  · obtain ⟨-, harmor, -⟩ := s₁.cfg.wf_iff.mp hc
    obtain rfl := next_inj.mp ((exec_fin_of_open hfin₁).symm.trans h₁)
    obtain rfl := next_inj.mp ((exec_fin_of_open hfin₂).symm.trans h₂)
    obtain ⟨-, hlength₁, -⟩ := s₁.finalize_armored
    obtain ⟨-, hlength₂, -⟩ := s₂.finalize_armored
    rw [State.finalize_wlen] at hlength₁ hlength₂
    simp only [State.done_armlen, State.done_fill, State.done_arm] at harmlen hfill htext
    have hwlen : s₁.wlen = s₂.wlen := by omega
    refine ⟨hwlen, fun a ha => ?_⟩
    have hchar : a / 6 < s₁.finalize.armlen := by omega
    have hgroup := State.group_eq_of_arm_eq harmor hcfg hchar (harmlen ▸ hchar) (htext _ hchar)
    rw [State.wbufBit_eq_testBit_group ha, hgroup, State.wbufBit_eq_testBit_group (hwlen ▸ ha)]

end Sys2Proof
end

