-- ==== Sys2Proof/Proofs/WriterReader.lean ====
section
/-! PROOFS. Fields appended to a writer and extracted again by a reader that holds the same bits (R95, R112, R114,
R119). -/

namespace Sys2Proof

open Machine Claims

section Fields

variable {s r : State} {f : Field} {fs : List Field}

/-! ## The bits of a list of fields (R112, R114) -/

/-- The bits the append of a field writes. -/
def Claims.Field.bits (f : Field) : Bits :=
  if f.signed then signedBits f.value f.width.toNat else unsignedBits f.value f.width.toNat

@[simp] theorem Claims.Field.bits_length (f : Field) : f.bits.length = f.width.toNat := by
  unfold Field.bits
  split
  · exact signedBits_length _ _
  · exact unsignedBits_length _ _

theorem Claims.totalWidth_cons (f : Field) (fs : List Field) : totalWidth (f :: fs) = f.width.toNat + totalWidth fs := by
  simp [totalWidth]

/-- The bits the appends of a list of fields write, one field after the other. -/
def Claims.fieldBits (fs : List Field) : Bits := fs.flatMap Field.bits

@[simp] theorem Claims.fieldBits_nil : fieldBits [] = [] := rfl

theorem Claims.fieldBits_cons (f : Field) (fs : List Field) : fieldBits (f :: fs) = f.bits ++ fieldBits fs := rfl

@[simp] theorem Claims.fieldBits_length (fs : List Field) : (fieldBits fs).length = totalWidth fs := by
  induction fs with
  | nil => rfl
  | cons f fs ih => rw [fieldBits_cons, List.length_append, f.bits_length, ih, totalWidth_cons]

/-! ## Appending (R112, R114) -/

/-- Two sequences written one after the other are their concatenation written at once (R8). -/
theorem Machine.Mem.write_append {α : Type} (m : Mem α) (a : Nat) (us vs : List α) :
    Mem.write m a (us ++ vs) = Mem.write (Mem.write m a us) (a + us.length) vs := by
  induction us generalizing m a with
  | nil => rfl
  | cons u us ih =>
    rw [List.cons_append, Mem.write_cons, ih, Mem.write_cons, List.length_cons, Nat.add_assoc, Nat.add_comm 1]

theorem Machine.exec_append_field (hf : f.fits s.cfg) (hfin : s.wfin = false) (hopa : s.opa = f.value) :
    exec (if f.signed then .apps f.width else .appu f.width) s = .next (s.append f.bits).done := by
  obtain ⟨hw, hrange⟩ := hf
  have hw := (legalWidth_iff s.cfg f.width).mpr hw
  unfold Field.bits
  split at hrange
  next hsigned =>
    rw [if_pos hsigned, if_pos hsigned, exec_apps_eq s f.width hw, hopa,
      State.complete_appending hfin ((fitsSigned_iff _ _).mpr hrange)]
  next hunsigned =>
    rw [if_neg hunsigned, if_neg hunsigned, exec_appu_eq s f.width hw, hopa,
      State.complete_appending hfin ((fitsUnsigned_iff _ _).mpr hrange)]

/-- Fields that fit are all appended, and what they write is their bits at `WLEN` (R119 c). -/
theorem Claims.appendAll_eq_some (hfits : ∀ f ∈ fs, f.fits s.cfg) (hfin : s.wfin = false) :
    ∃ t, appendAll fs s = some t ∧ t.wlen = s.wlen + totalWidth fs ∧ t.wbuf = Mem.write s.wbuf s.wlen (fieldBits fs) := by
  induction fs generalizing s with
  | nil => exact ⟨s, rfl, rfl, rfl⟩
  | cons f fs ih =>
    obtain ⟨hf, hfs⟩ := List.forall_mem_cons.mp hfits
    obtain ⟨t, ht, hwlen, hwbuf⟩ := ih (s := (State.append { s with opa := f.value } f.bits).done) hfs hfin
    refine ⟨t, ?_, ?_, ?_⟩
    · rw [appendAll, exec_append_field (s := { s with opa := f.value }) hf hfin rfl]
      exact ht
    · simpa [totalWidth_cons, Nat.add_assoc] using hwlen
    · simpa [fieldBits_cons, Mem.write_append] using hwbuf

/-! ## Extracting (R92, R94) -/

/-- The state an extraction leaves that returns `v` and moves the cursor by `w`. -/
def Machine.State.returned (s : State) (v : Int) (w : Nat) : State := ((s.setRes v).advance w).done

@[simp] theorem Machine.State.returned_rlen (v : Int) (w : Nat) : (s.returned v w).rlen = s.rlen := (rfl)

@[simp] theorem Machine.State.returned_rpos (v : Int) (w : Nat) : (s.returned v w).rpos = s.rpos + w := (rfl)

@[simp] theorem Machine.State.returned_readRbuf (v : Int) (w p n : Nat) :
    (s.returned v w).readRbuf p n = s.readRbuf p n := State.readRbuf_congr _ _ p p n fun _ _ => rfl

/-- Where the cells from the cursor on hold the bits of a field that fits, its extraction returns its value (R119 a). -/
theorem Machine.exec_extract_field (hf : f.fits r.cfg) (hlen : r.rpos + f.width.toNat ≤ r.rlen)
    (hbits : r.readRbuf r.rpos f.width.toNat = f.bits) :
    exec (if f.signed then .exts f.width else .extu f.width) r = .next (r.returned f.value f.width.toNat) := by
  obtain ⟨hw, hrange⟩ := hf
  unfold Field.bits at hbits
  split at hrange
  next hsigned =>
    have hvalue : r.fieldS r.rpos f.width.toNat = f.value := by
      rw [State.fieldS, State.fieldU, hbits, if_pos hsigned, sext_signedBits _ _ hw.1 ((fitsSigned_iff _ _).mpr hrange)]
    rw [if_pos hsigned, exec_exts_of_enough rfl hw hlen, State.extracted, hvalue, State.returned]
  next hunsigned =>
    have hvalue : (r.fieldU r.rpos f.width.toNat : Int) = f.value := by
      rw [State.fieldU, hbits, if_neg hunsigned, beUint_unsignedBits _ _ ((fitsUnsigned_iff _ _).mpr hrange)]
    rw [if_neg hunsigned, exec_extu_of_enough hw hlen, State.extractedU, hvalue, State.returned]

/-- A reader that holds the bits of fields that fit from its cursor on returns their values in order (R119 c). -/
theorem Claims.extractAll_eq_some (hfits : ∀ f ∈ fs, f.fits r.cfg) (hlen : r.rpos + totalWidth fs ≤ r.rlen)
    (hbits : r.readRbuf r.rpos (totalWidth fs) = fieldBits fs) :
    ∃ u, extractAll fs r = some (fs.map Field.value, u) ∧ u.rpos = r.rpos + totalWidth fs := by
  induction fs generalizing r with
  | nil => exact ⟨r, rfl, rfl⟩
  | cons f fs ih =>
    obtain ⟨hf, hfs⟩ := List.forall_mem_cons.mp hfits
    rw [totalWidth_cons] at hlen hbits
    rw [State.readRbuf_add, fieldBits_cons] at hbits
    obtain ⟨hfirst, hrest⟩ := List.append_inj hbits (by simp)
    obtain ⟨u, hu, hrpos⟩ := ih (r := r.returned f.value f.width.toNat) hfs (by simp; omega) (by simpa using hrest)
    refine ⟨u, ?_, ?_⟩
    · rw [extractAll, exec_extract_field hf (by omega) hfirst]
      exact congrArg (Option.map fun rest => (f.value :: rest.1, rest.2)) hu
    · rw [hrpos, totalWidth_cons, State.returned_rpos, Nat.add_assoc]

end Fields

/-- Settles O28: the writer holds the bits of the fields, so the reader does, and each field is read from its bits. -/
theorem writerReaderRoundTrip : Obligations.WriterReaderRoundTrip := by
  intro fs s hfits hfin
  obtain ⟨t, ht, hwlen, hwbuf⟩ := appendAll_eq_some hfits hfin
  refine ⟨t, ht, hwlen, fun r hcfg hlen hcells => extractAll_eq_some (hcfg ▸ hfits) hlen ?_⟩
  refine List.ext_getElem (by simp) fun k hk hk' => ?_
  rw [fieldBits_length] at hk'
  have hcell := hcells k hk'
  rw [hwbuf, Mem.get?_write_inside _ _ _ _ (by simpa using hk'), ← r.readRbuf_getElem? _ _ _ hk'] at hcell
  simpa [List.getElem?_eq_getElem, hk'] using hcell

end Sys2Proof
end

