-- ==== Sys2Proof/Proofs/PositionUnit.lean ====
section
/-! PROOFS. The position unit: reading and writing a position, replacing it, and its two round trips (R131 to R137). -/

namespace Sys2Proof

open Machine Claims

section Position

variable {s r : State} {lon lat : Int}

/-! ## Ranges (R18, R134) -/

/-- A register holds a value of its own range (R18). -/
theorem Machine.fitsSigned_toInt {w : Nat} (x : BitVec w) : fitsSigned x.toInt w = true :=
  (fitsSigned_iff _ _).mpr ⟨x.le_toInt, x.toInt_lt⟩

/-- The two range tests of R134, as they stand there. -/
def Claims.positionFits (lon lat : Int) : Prop :=
  -134217728 ≤ lon ∧ lon < 134217728 ∧ -67108864 ≤ lat ∧ lat < 67108864

theorem Claims.positionFits_iff :
    positionFits lon lat ↔ fitsSigned lon 28 = true ∧ fitsSigned lat 27 = true := by
  simp [positionFits, fitsSigned_iff, and_assoc]

theorem Claims.not_positionFits_iff :
    ¬ positionFits lon lat ↔ lon < -134217728 ∨ 134217728 ≤ lon ∨ lat < -67108864 ∨ 67108864 ≤ lat := by
  unfold positionFits
  omega

/-! ## Replacing the position (R134, R135) -/

theorem Machine.State.complete_setPosition_of_fits (h : positionFits lon lat) :
    s.complete (s.setPosition lon lat) = (s.writePos lon lat).clearMsgOk.done := by
  obtain ⟨hlon, hlat⟩ := positionFits_iff.mp h
  simp [State.setPosition, hlon, hlat]

theorem Machine.State.complete_setPosition_of_not_fits (h : ¬ positionFits lon lat) :
    s.complete (s.setPosition lon lat) = s.raise .fieldOverflow := by
  obtain ⟨hlon, hlat, -⟩ | ⟨-, hraise⟩ := s.complete_setPosition_cases lon lat
  · exact absurd (positionFits_iff.mpr ⟨hlon, hlat⟩) h
  · exact hraise

/-- A position of the registers' ranges is held exactly (R18). -/
theorem Machine.State.writePos_toInt (h : positionFits lon lat) :
    (s.writePos lon lat).posLon.toInt = lon ∧ (s.writePos lon lat).posLat.toInt = lat := by
  obtain ⟨hlon, hlat⟩ := positionFits_iff.mp h
  exact ⟨toInt_ofInt_28 lon hlon, toInt_ofInt_27 lat hlat⟩

/-- The position registers written with the values of two words hold the words. -/
theorem Machine.State.writePos_toInt_toInt (s : State) (lon : BitVec 28) (lat : BitVec 27) :
    s.writePos lon.toInt lat.toInt = { s with posLon := lon, posLat := lat } := by
  rw [State.writePos, BitVec.ofInt_toInt, BitVec.ofInt_toInt]

/-- Reading a position writes the two position registers and nothing else (R131). -/
theorem Machine.State.readPos_writes (s : State) (p : Nat) :
    ∃ lon lat, s.readPos p = { s with posLon := lon, posLat := lat } := ⟨_, _, rfl⟩

/-! ## The bits of a position (R132, R137) -/

/-- A field is a bit sequence where its cells hold the bits of the sequence (R41). -/
theorem Machine.State.readRbuf_eq_of_cells {p w : Nat} {bs : Bits} (hw : bs.length = w)
    (h : ∀ k, k < w → some (r.rbufBit (p + k)) = bs[k]?) : r.readRbuf p w = bs := by
  refine List.ext_getElem? fun k => ?_
  by_cases hk : k < w
  · rw [r.readRbuf_getElem? p _ k hk, h k hk]
  · rw [List.getElem?_eq_none (by simpa using hk), List.getElem?_eq_none (by omega)]

/-- The fields of the bits POSENC writes are the position it wrote (R119 a, R137). -/
theorem Machine.State.fieldS_of_posBits {p : Nat} (h : r.readRbuf p 55 = s.posBits) :
    r.fieldS p 28 = s.posLon.toInt ∧ r.fieldS (p + 28) 27 = s.posLat.toInt := by
  rw [show 55 = 28 + 27 from rfl, State.readRbuf_add, State.posBits] at h
  obtain ⟨hlon, hlat⟩ := List.append_inj h (by simp)
  constructor
  · rw [State.fieldS, State.fieldU, hlon, sext_signedBits _ _ (by norm_num) (fitsSigned_toInt _)]
  · rw [State.fieldS, State.fieldU, hlat, sext_signedBits _ _ (by norm_num) (fitsSigned_toInt _)]

/-! ## The commands -/

theorem Machine.exec_posenc_of_finalized (h : s.wfin = true) :
    exec .posenc s = .next (s.raise .writerFinalized) := by
  rw [exec_posenc_eq, State.appending, if_pos h, State.complete_error]

theorem Machine.exec_posenc_of_unlocked (h : s.wfin = false) : exec .posenc s = .next (s.append s.posBits).done := by
  rw [exec_posenc_eq, State.complete_appending h rfl]

theorem Machine.exec_posdec_of_posBits (hlen : r.rpos + 55 ≤ r.rlen) (hbits : r.readRbuf r.rpos 55 = s.posBits) :
    ∃ u, exec .posdec r = .next u ∧ u.posLon = s.posLon ∧ u.posLat = s.posLat := by
  obtain ⟨hlon, hlat⟩ := State.fieldS_of_posBits hbits
  obtain ⟨u, hexec, hposLon, hposLat, -⟩ := exec_posdec_of_enough hlen
  exact ⟨u, hexec, BitVec.eq_of_toInt_eq (hposLon.trans hlon), BitVec.eq_of_toInt_eq (hposLat.trans hlat)⟩

/-- POSAVL and POSV are one test (R133, R178). -/
theorem Machine.exec_posAvailable {i : Instr} (h : i ∈ [Instr.posavl, .posv]) :
    exec i s = .next (s.setRes s.posAvailable).done := by
  obtain rfl | rfl : i = .posavl ∨ i = .posv := by simpa using h
  · rfl
  · rfl

end Position

/-- Settles O33: the degrees of a raw value name that value, which is in its register's range, so both tests pass. -/
theorem possetdInvertsDegrees : Obligations.PossetdInvertsDegrees := by
  intro s lon lat hcfg hdega hdegb
  obtain ⟨-, -, -, hfdiv⟩ := (Config.wf_iff s.cfg).mp hcfg
  have hfits : positionFits lon.toInt lat.toInt := positionFits_iff.mpr ⟨fitsSigned_toInt lon, fitsSigned_toInt lat⟩
  have hlon : s.cfg.deg2rawLon s.dega = lon.toInt := by
    rw [hdega, s.cfg.deg2rawLon_degrees hfdiv _ (fitsSigned_toInt lon)]
  have hlat : s.cfg.deg2rawLat s.degb = lat.toInt := by
    rw [hdegb, s.cfg.deg2rawLat_degrees hfdiv _ (fitsSigned_toInt lat)]
  rw [exec_possetd_eq, hlon, hlat, State.complete_setPosition_of_fits hfits, State.writePos_toInt_toInt]
  rfl

/-- Settles O29: by the one bound test of POSDEC. -/
theorem posdecReadsPosition : Obligations.PosdecReadsPosition := by
  intro s
  simp only [twosComplement_fieldValue_eq_fieldS]
  obtain ⟨hshort, hexec⟩ | ⟨henough, hexec⟩ := exec_posdec_cases s
  · exact ⟨fun _ => hexec, fun henough => by omega⟩
  · obtain ⟨hlon, hlat⟩ := s.readPos_toInt s.rpos
    obtain ⟨lon, lat, hread⟩ := s.readPos_writes s.rpos
    rw [hread] at hexec hlon hlat
    exact ⟨fun hshort => by omega, fun _ => ⟨_, hexec, hlon, hlat, rfl⟩⟩

/-- Settles O30: POSENC is one append that only the lock can refuse. -/
theorem posencAppendsPosition : Obligations.PosencAppendsPosition :=
  fun _ => ⟨exec_posenc_of_finalized, fun hunlocked _ => exec_posenc_appends hunlocked⟩

/-- Settles O32: by the two range tests, which come before any write. -/
theorem possetrReplacesPosition : Obligations.PossetrReplacesPosition := by
  intro s
  rw [exec_possetr_eq]
  constructor
  · intro hout
    rw [State.complete_setPosition_of_not_fits (not_positionFits_iff.mpr hout)]
    rfl
  · intro hlon hlon' hlat hlat'
    have hfits : positionFits s.opa s.opb := ⟨hlon, hlon', hlat, hlat'⟩
    obtain ⟨hopa, hopb⟩ := State.writePos_toInt (s := s) hfits
    exact ⟨_, congrArg _ (State.complete_setPosition_of_fits hfits), hopa, hopb, rfl⟩

/-- Settles O34: POSSETD tests and writes what `DEG2RAW` gives, whatever that is. -/
theorem possetdReplacesOrRejects : Obligations.PossetdReplacesOrRejects := by
  intro s
  refine ⟨_, exec_possetd_eq s, ?_⟩
  split
  next hfits =>
    obtain ⟨hlon, hlat⟩ := State.writePos_toInt (s := s) hfits
    rw [State.complete_setPosition_of_fits hfits]
    exact ⟨hlon, hlat, rfl⟩
  next hout =>
    rw [State.complete_setPosition_of_not_fits hout]
    rfl

/-- Settles O36: the reader's 55 cells hold the bits POSENC wrote, whose two fields are the position. -/
theorem positionRoundTrips : Obligations.PositionRoundTrips := by
  intro s hunlocked
  refine ⟨_, exec_posenc_of_unlocked hunlocked, fun r hlen hcells => exec_posdec_of_posBits hlen ?_⟩
  refine State.readRbuf_eq_of_cells s.posBits_length fun k hk => ?_
  rw [hcells k hk, State.done_wbuf, s.append_get?_inside _ _ (by simpa using hk)]

/-- Settles O31: both commands return the one test of the two sentinels. -/
theorem positionUnavailableOnlyAtBothSentinels : Obligations.PositionUnavailableOnlyAtBothSentinels :=
  fun _ _ hi => exec_posAvailable hi

end Sys2Proof
end

