-- ==== Sys2Proof/Proofs/Degrees.lean ====
section
/-! PROOFS. The numbers POSDEG gives are the binary64 numbers nearest to the quotients (R98, R136, D14). -/

namespace Sys2Proof

open Machine Claims

section Binary64

variable {x : Double} {n : ℤ}

/-! ## The value of a binary64 word -/

theorem Claims.expOf_eq_expField (x : Double) : expOf x = Double.expField x := by
  rw [expOf, Double.expField, BitVec.extractLsb'_toNat, Nat.shiftRight_eq_div_pow]

theorem Claims.fracOf_eq_fracField (x : Double) : fracOf x = Double.fracField x := by
  rw [fracOf, Double.fracField, BitVec.extractLsb'_toNat, Nat.shiftRight_zero]

theorem Claims.expOf_lt_of_isFinite (h : Double.isFinite x = true) : expOf x < 2047 := by
  have hne : expOf x ≠ 2047 := by rw [expOf_eq_expField]; exact of_decide_eq_true h
  have hlt : expOf x < 2048 := Nat.mod_lt _ (by norm_num)
  omega

/-- The value is the significand at its scale, in units of the least positive number. -/
theorem Claims.valueOf_eq (x : Double) :
    valueOf x = (if x.msb then -1 else 1) * ((Double.significand x * 2 ^ Double.scale x : ℕ) * 2 ^ (-1074 : ℤ)) := by
  rw [valueOf, expOf_eq_expField, fracOf_eq_fracField, BitVec.msb_eq_decide, Double.significand, Double.scale]
  simp only [decide_eq_true_eq]
  congr 1
  split
  next hsub => simp [hsub]
  next hnormal =>
    have hscale : ((Double.expField x : ℤ) - 1075) = (Double.expField x - 1 : ℕ) + (-1074) := by omega
    rw [hscale, zpow_add₀ two_ne_zero, zpow_natCast, ← mul_assoc]
    congr 1
    push_cast
    rfl

theorem Claims.halfUlp_eq {e : ℤ} (h : (expOf x : ℤ) = e) (he : 1 ≤ e) : halfUlp x = 2 ^ (e - 1076) := by
  rw [halfUlp, h, max_eq_left he]

/-! ## Rounding (R136) -/

/-- A signed quotient is as far from a signed magnitude as their magnitudes are apart. -/
theorem Claims.abs_signed_sub (a : ℚ) (n : ℤ) (d : ℚ) :
    |(if n < 0 then -1 else 1) * a - n / d| = |a - n.natAbs / d| := by
  rcases lt_or_ge n 0 with hn | hn
  · rw [if_pos hn, Nat.cast_natAbs, abs_of_neg hn, ← abs_neg]
    congr 1
    push_cast
    ring
  · rw [if_neg hn.not_gt, Nat.cast_natAbs, abs_of_nonneg hn, one_mul]

/-- The degrees of a raw value are within half a unit of the quotient: the significand `m` is at most half from it, and a
carry of `m` to `2^53` moves the number into the next binade, where a unit is larger and the fraction is 0. -/
theorem Claims.isRoundedTo_fdiv64 (h : n.natAbs ≤ 2 ^ 27) : isRoundedTo (fdiv64 n degDiv) (n / 600000) := by
  by_cases hn : n = 0
  · subst hn
    simp [isRoundedTo, fdiv64, valueOf, halfUlp, expOf, fracOf]
  refine ⟨expOf_lt_of_isFinite (isFinite_fdiv64 n h), ?_⟩
  obtain ⟨e, m, hx, hlow, hhigh, hm, hm', herr, htie⟩ := fdiv64_spec n degDiv hn (by norm_num)
  obtain ⟨he, he'⟩ := degrees_exponent n.natAbs e (by omega) h hlow hhigh
  obtain ⟨hsign, hexp, hfrac, hmag⟩ := double_fields _ e m (by omega) (by omega) hm hm' _ hx
  rw [← expOf_eq_expField] at hexp
  rw [← fracOf_eq_fracField] at hfrac
  have hscale : (2 : ℚ) ^ (e + 1022).toNat * 2 ^ (-1074 : ℤ) = 2 ^ (e - 52) := by
    rw [← zpow_natCast, ← zpow_add₀ two_ne_zero]
    congr 1
    omega
  have hdist : |valueOf (fdiv64 n degDiv) - n / 600000| = |(m : ℚ) * 2 ^ (e - 52) - n.natAbs / (degDiv : ℕ)| := by
    rw [valueOf_eq, hmag, hsign, Nat.cast_mul, mul_assoc, Nat.cast_pow, Nat.cast_ofNat, hscale]
    simpa using abs_signed_sub ((m : ℚ) * 2 ^ (e - 52)) n 600000
  rw [hdist]
  by_cases hcarry : m = 2 ^ 53
  · rw [if_pos hcarry] at hexp hfrac
    rw [halfUlp_eq (e := e + 1024) (by omega) (by omega), hfrac]
    exact ⟨herr.trans (zpow_le_zpow_right₀ one_le_two (by omega)), fun _ => rfl⟩
  · rw [if_neg hcarry] at hexp hfrac
    rw [halfUlp_eq (e := e + 1023) (by omega) (by omega), hfrac, show e + 1023 - 1076 = e - 53 by ring]
    exact ⟨herr, fun hhalf => by have := htie hhalf; omega⟩

/-! ## The sentinels (R130, R136) -/

theorem Claims.valueOf_181 : valueOf 0x4066A00000000000 = 181 := by
  rw [valueOf, expOf, fracOf, show BitVec.toNat (0x4066A00000000000 : Double) = 0x4066A00000000000 from rfl]
  norm_num

theorem Claims.valueOf_91 : valueOf 0x4056C00000000000 = 91 := by
  rw [valueOf, expOf, fracOf, show BitVec.toNat (0x4056C00000000000 : Double) = 0x4056C00000000000 from rfl]
  norm_num

/-! ## The degrees of a configuration (R6, D14) -/

variable {c : Config}

theorem Config.degrees_of_lookup_none (h : c.fdivTable.lookup n = none) : c.degrees n = fdiv64 n degDiv := by
  rw [Config.degrees, h, Option.getD_none]

theorem Config.degrees_of_lookup_some (h : c.fdivTable.lookup n = some x) : c.degrees n = x := by
  rw [Config.degrees, h, Option.getD_some]

/-- The default `FDIV64` gives the sentinels exactly, as the default configuration was checked to do. -/
theorem Claims.valueOf_fdiv64_sentinels :
    valueOf (fdiv64 108600000 degDiv) = 181 ∧ valueOf (fdiv64 54600000 degDiv) = 91 := by
  obtain ⟨-, -, -, hfdiv⟩ := (Config.wf_iff defaultConfig).mp defaultConfig_wf
  obtain ⟨-, hlonNa, hlatNa⟩ := defaultConfig.degrees_corners hfdiv
  rw [Config.degrees_of_lookup_none rfl] at hlonNa hlatNa
  rw [hlonNa, hlatNa]
  exact ⟨valueOf_181, valueOf_91⟩

/-- The degrees of a raw value the configuration supplies no quotient for: the nearest number, and what it is for 0 and
for a sentinel `na` of `deg` degrees. -/
theorem Config.degrees_default {na : ℤ} {deg : ℚ} (hna : valueOf (fdiv64 na degDiv) = deg)
    (hn : fitsSigned n 28 = true) (h : c.fdivTable.lookup n = none) :
    isRoundedTo (c.degrees n) (n / 600000) ∧ (n = 0 → c.degrees n = 0) ∧ (n = na → valueOf (c.degrees n) = deg) := by
  rw [Config.degrees_of_lookup_none h]
  rw [fitsSigned_iff] at hn
  refine ⟨isRoundedTo_fdiv64 (by norm_num at hn ⊢; omega), ?_, ?_⟩
  · rintro rfl
    rfl
  · rintro rfl
    exact hna

/-- The degrees of any raw value in a configuration of this hardware: a finite number, and what it is for 0 and the
sentinels. -/
theorem Config.degrees_of_fdivWf (h : c.fdivWf = true) (hn : fitsSigned n 28 = true) :
    expOf (c.degrees n) < 2047 ∧ (n = 0 → c.degrees n = 0) ∧ (n = 108600000 → valueOf (c.degrees n) = 181) ∧
      (n = 54600000 → valueOf (c.degrees n) = 91) := by
  obtain ⟨hzero, hlonNa, hlatNa⟩ := c.degrees_corners h
  refine ⟨expOf_lt_of_isFinite (c.isFinite_degrees h n hn), ?_, ?_, ?_⟩
  · rintro rfl
    exact hzero
  · rintro rfl
    rw [hlonNa, valueOf_181]
  · rintro rfl
    rw [hlatNa, valueOf_91]

end Binary64

/-- Settles O35: a quotient is the default's, rounded, or the one the configuration supplies, which `Config.wf` checks. -/
theorem posdegRoundsToNearest : Obligations.PosdegRoundsToNearest := by
  intro s
  have hlon := fitsSigned_toInt s.posLon
  have hlat := fitsSigned_mono _ 27 28 (by norm_num) (fitsSigned_toInt s.posLat)
  obtain ⟨hdegLon, hdegLat⟩ := valueOf_fdiv64_sentinels
  refine ⟨_, rfl, Config.degrees_default hdegLon hlon, Config.degrees_default hdegLat hlat,
    fun _ => Config.degrees_of_lookup_some, fun _ => Config.degrees_of_lookup_some, fun hcfg => ?_, rfl⟩
  obtain ⟨-, -, -, hfdiv⟩ := (Config.wf_iff s.cfg).mp hcfg
  obtain ⟨hfinite, hzero, hna, -⟩ := Config.degrees_of_fdivWf hfdiv hlon
  obtain ⟨hfinite', hzero', -, hna'⟩ := Config.degrees_of_fdivWf hfdiv hlat
  exact ⟨hfinite, hfinite', hzero, hzero', hna, hna'⟩

end Sys2Proof
end

