-- ==== Sys2Proof/Proofs/RowWalks.lean ====
section
/-! PROOFS. The decoding walk of a row and the header, field by field: what they leave in the registers, and that reading
and writing are inverse (R119, R151, R155). -/

namespace Sys2Proof

open Machine Claims

section Walks

variable {c : Config} {s t : State} {p : Nat} {e : Entry} {as es : List Entry}

/-! ## The entries of a row that meets R73 -/

/-- What R73 says of the first entry and of those after it. -/
theorem entriesWf_cons (h : entriesWf c (e :: es) = true) :
    e.wf c = true ∧ (∀ d, e.dest? = some d → d < c.nfr ∧ d ∉ es.filterMap Entry.dest?) ∧
      (e = .pos → .pos ∉ es) ∧ entriesWf c es = true := by
  obtain ⟨hwf, hregs, hnodup, hpos⟩ := (entriesWf_iff c _).mp h
  have hsub : (es.filterMap Entry.dest?).Sublist ((e :: es).filterMap Entry.dest?) :=
    (List.sublist_cons_self e es).filterMap _
  obtain ⟨he, hes⟩ := List.forall_mem_cons.mp (List.all_eq_true.mp hwf)
  refine ⟨he, fun d hd => ?_, ?_, (entriesWf_iff c es).mpr
    ⟨List.all_eq_true.mpr hes, fun d hd => hregs d (hsub.subset hd), hnodup.sublist hsub,
      (List.count_le_count_cons).trans hpos⟩⟩
  · rw [List.filterMap_cons_some hd] at hregs hnodup
    exact ⟨(hregs d List.mem_cons_self).2, (List.nodup_cons.mp hnodup).1⟩
  · rintro rfl
    rw [List.count_cons_self] at hpos
    exact List.count_eq_zero.mp (by omega)

theorem entriesWf_of_append (h : entriesWf c (as ++ es) = true) : entriesWf c es = true := by
  induction as with
  | nil => exact h
  | cons a as ih =>
    obtain ⟨-, -, -, hrest⟩ := entriesWf_cons h
    exact ih hrest

/-- The entries before, at and after place `k`. -/
theorem entries_split {k : Nat} (he : es[k]? = some e) : es = es.take k ++ e :: es.drop (k + 1) := by
  obtain ⟨hk, rfl⟩ := List.getElem?_eq_some_iff.mp he
  rw [← List.drop_eq_getElem_cons hk, List.take_append_drop]

/-- R70: the registers the entries name. -/
theorem Claims.names_iff (es : List Entry) (i : Nat) : names es i ↔ i ∈ es.filterMap Entry.dest? := by
  constructor
  · rintro ⟨w, he | he⟩
    · exact List.mem_filterMap.mpr ⟨_, he, rfl⟩
    · exact List.mem_filterMap.mpr ⟨_, he, rfl⟩
  · intro hi
    obtain ⟨e, he, hd⟩ := List.mem_filterMap.mp hi
    exact names_of_dest? he hd

/-- A register the entries name is one of this hardware and no header register (R73). -/
theorem Claims.names_bounds {i : Nat} (h : entriesWf c es = true) (hi : names es i) : 3 ≤ i ∧ i < c.nfr := by
  obtain ⟨-, hregs, -⟩ := (entriesWf_iff c es).mp h
  exact hregs i ((names_iff es i).mp hi)

/-! ## What is read (R41, R151, R155) -/

/-- Reading a sequence needs the cells of `RBUF` alone, written or not (R13, R41; log 3). -/
theorem Machine.State.readRbuf_of_rbuf (hrbuf : t.rbuf = s.rbuf) (hepoch : t.epoch = s.epoch) (p w : Nat) :
    t.readRbuf p w = s.readRbuf p w :=
  State.readRbuf_congr _ _ p p w fun k _ => by rw [State.rbufBit, hrbuf, hepoch, State.rbufBit]

@[simp] theorem Machine.State.readHeader_readRbuf (s : State) (q p w : Nat) :
    (s.readHeader q).readRbuf p w = s.readRbuf p w := State.readRbuf_of_rbuf (by simp) (by simp) p w

@[simp] theorem Machine.State.readEntry_readRbuf (s : State) (q : Nat) (e : Entry) (p w : Nat) :
    (s.readEntry q e).readRbuf p w = s.readRbuf p w := State.readRbuf_of_rbuf (by simp) (by simp) p w

/-- A read of two bit sequences that follow one another is a read of each. -/
theorem Machine.State.readRbuf_append {x y : Bits} (h : s.readRbuf p (x.length + y.length) = x ++ y) :
    s.readRbuf p x.length = x ∧ s.readRbuf (p + x.length) y.length = y :=
  s.readRbuf_split p x.length y.length x y rfl h

/-! ## What the walk leaves in the registers (R151) -/

/-- A walk over the entries of a row leaves every field in its register, and a position it does not read alone. -/
theorem Machine.State.walkDec_readsEntries (hs : s.isConfigured) (hes : entriesWf s.cfg es = true) :
    readsEntries s (s.walkDec p es) p es := by
  obtain ⟨-, hlen⟩ := hs
  refine ⟨fun k e he => ?_, s.walkDec_pos_of_notMem p es⟩
  have hsplit := entries_split he
  rw [hsplit] at hes
  obtain ⟨-, hdest, hpos, -⟩ := entriesWf_cons (entriesWf_of_append hes)
  simp only [fieldValue_eq_fieldU]
  cases e with
  | u d w =>
    obtain ⟨hd, hafter⟩ := hdest d rfl
    have hread := s.walkDec_readFr_u p (es.take k) (es.drop (k + 1)) d w (by omega) hafter
    rw [← hsplit] at hread
    exact (State.getElem?_eq_readFr _ d (by rw [State.walkDec_fr_length]; omega)).trans (congrArg some hread)
  | s d w =>
    obtain ⟨hd, hafter⟩ := hdest d rfl
    have hread := s.walkDec_readFr_s p (es.take k) (es.drop (k + 1)) d w (by omega) hafter
    rw [← hsplit] at hread
    exact (State.getElem?_eq_readFr _ d (by rw [State.walkDec_fr_length]; omega)).trans (congrArg some hread)
  | pos =>
    have hread := s.walkDec_pos p (es.take k) (es.drop (k + 1)) (hpos rfl)
    rwa [← hsplit] at hread

theorem Machine.State.walkDec_fr_of_not_names {i : Nat} (h : ¬ names es i) : (s.walkDec p es).fr[i]? = s.fr[i]? := by
  have hlen := s.walkDec_fr_length p es
  by_cases hi : i < s.fr.length
  · rw [State.getElem?_eq_readFr _ i (by omega), State.getElem?_eq_readFr _ i hi,
      s.walkDec_readFr_of_notMem p es i (by rwa [← names_iff])]
  · rw [List.getElem?_eq_none (by omega), List.getElem?_eq_none (by omega)]

/-- The walk does not change what the header registers hold: no entry names one (R73). -/
theorem Machine.State.walkDec_fr_header {i : Nat} (hes : entriesWf c es = true) (hi : i < 3) :
    (s.walkDec p es).fr[i]? = s.fr[i]? :=
  State.walkDec_fr_of_not_names fun hnames => by
    have := names_bounds hes hnames
    omega

/-- Reading the header leaves the three fields in `FR[0 .. 2]` (R155). -/
theorem Machine.State.readHeader_readsFields (hs : s.isConfigured) (p : Nat) :
    readsFields s (s.readHeader p) p headerFields := by
  obtain ⟨hcfg, hlen⟩ := hs
  have hnfr := s.cfg.nfr_ge hcfg
  obtain ⟨hid, hrepeat, hmmsi, -⟩ := s.readHeader_readFr p (by omega)
  simp only [readsFields, headerFields, List.forall_mem_cons, fieldValue_eq_fieldU]
  refine ⟨?_, ?_, ?_, List.forall_mem_nil _⟩
  · rw [State.getElem?_eq_readFr _ 0 (by simp; omega), hid, Nat.add_zero]
  · rw [State.getElem?_eq_readFr _ 1 (by simp; omega), hrepeat]
  · rw [State.getElem?_eq_readFr _ 2 (by simp; omega), hmmsi]

theorem Machine.State.readHeader_fr_of_le {i : Nat} (hi : 3 ≤ i) : (s.readHeader p).fr[i]? = s.fr[i]? := by
  simp only [State.readHeader, State.writeFr_fr]
  rw [List.getElem?_set_ne (by omega), List.getElem?_set_ne (by omega), List.getElem?_set_ne (by omega)]

/-! ## Reading, then writing (R119 d) -/

/-- Writing the registers a walk left gives back the bits it read. -/
theorem Machine.State.walkEncBits_walkDec (hes : entriesWf c es = true) (hlen : s.fr.length = c.nfr) :
    (s.walkDec p es).walkEncBits es = s.readRbuf p (tailbits es) := by
  induction es generalizing s p with
  | nil => rfl
  | cons e es ih =>
    obtain ⟨-, hdest, hpos, hrest⟩ := entriesWf_cons hes
    have hfirst : ((s.readEntry p e).walkDec (p + e.width) es).entryBits e = s.readRbuf p e.width := by
      rw [State.walkDec_entryBits _ _ e es (fun d hd => (hdest d hd).2) hpos,
        s.entryBits_readEntry p e fun d hd => hlen ▸ (hdest d hd).1]
    rw [State.walkDec_cons, State.walkEncBits_cons, hfirst, ih hrest (by simpa using hlen),
      State.readEntry_readRbuf, tailbits_cons, State.readRbuf_add]

/-- The fields a walk over the entries of a row leaves fit them (R97). -/
theorem Machine.State.walkDec_fits (hes : entriesWf c es = true) (hlen : s.fr.length = c.nfr) :
    es.all (s.walkDec p es).entryFits = true := by
  obtain ⟨-, hregs, hnodup, -⟩ := (entriesWf_iff c es).mp hes
  exact List.all_eq_true.mpr (s.walkDec_entryFits p es (entry_wf_of_entriesWf hes)
    (fun d hd => hlen ▸ (hregs d hd).2) hnodup)

/-- Writing the header that was read gives back its bits. -/
theorem Machine.State.headerBits_readHeader (hlen : 3 ≤ s.fr.length) : (s.readHeader p).headerBits = s.readRbuf p 38 := by
  obtain ⟨hid, hrepeat, hmmsi, -⟩ := s.readHeader_readFr p hlen
  rw [State.headerBits, hid, hrepeat, hmmsi]
  simp only [State.unsignedBits_fieldU]
  rw [← State.readRbuf_add, show p + 8 = p + (6 + 2) from rfl, ← State.readRbuf_add]

/-! ## Writing, then reading (R119 a) -/

/-- The bits at the place of an entry are the bits of the entry, where the cells hold the bits of the row. -/
theorem Machine.State.readRbuf_entry {k : Nat} (he : es[k]? = some e) (h : t.readRbuf p (tailbits es) = s.walkEncBits es) :
    t.readRbuf (p + entryStart es k) e.width = s.entryBits e := by
  have hsplit := entries_split he
  have hbits : s.walkEncBits es =
      s.walkEncBits (es.take k) ++ (s.entryBits e ++ s.walkEncBits (es.drop (k + 1))) := by
    rw [← State.walkEncBits_cons, ← State.walkEncBits_append, ← hsplit]
  rw [← s.walkEncBits_length es, hbits, List.length_append] at h
  obtain ⟨-, hrest⟩ := State.readRbuf_append h
  rw [List.length_append] at hrest
  obtain ⟨hentry, -⟩ := State.readRbuf_append hrest
  rwa [State.walkEncBits_length, State.entryBits_length] at hentry

/-- Where the cells hold the bits of fields that fit, the walk restores every register the entries name. -/
theorem Machine.State.walkDec_restores_fr {i : Nat} (ht : t.isConfigured) (hes : entriesWf t.cfg es = true)
    (hfits : es.all s.entryFits = true) (h : t.readRbuf p (tailbits es) = s.walkEncBits es) (hi : names es i) :
    (t.walkDec p es).fr[i]? = some (reg s i) := by
  obtain ⟨hreads, -⟩ := State.walkDec_readsEntries (p := p) ht hes
  simp only [fieldValue_eq_fieldU] at hreads
  obtain ⟨w, he | he⟩ := hi
  · obtain ⟨k, hk⟩ := List.mem_iff_getElem?.mp he
    rw [hreads k _ hk]
    exact congrArg some (t.fieldU_of_bits _ w _ (List.all_eq_true.mp hfits _ he) (State.readRbuf_entry hk h))
  · obtain ⟨k, hk⟩ := List.mem_iff_getElem?.mp he
    have hw : 1 ≤ w ∧ w ≤ t.cfg.wMax := of_decide_eq_true (entry_wf_of_entriesWf hes _ he)
    rw [hreads k _ hk]
    exact congrArg some (t.fieldS_of_bits _ w _ hw.1 (List.all_eq_true.mp hfits _ he) (State.readRbuf_entry hk h))

/-- Where the cells hold the bits of a row with a position, the walk restores both position registers. -/
theorem Machine.State.walkDec_restores_pos (ht : t.isConfigured) (hes : entriesWf t.cfg es = true)
    (h : t.readRbuf p (tailbits es) = s.walkEncBits es) (hpos : .pos ∈ es) :
    (t.walkDec p es).posLon = s.posLon ∧ (t.walkDec p es).posLat = s.posLat := by
  obtain ⟨k, hk⟩ := List.mem_iff_getElem?.mp hpos
  obtain ⟨hreads, -⟩ := State.walkDec_readsEntries (p := p) ht hes
  simp only [fieldValue_eq_fieldU] at hreads
  obtain ⟨hlon, hlat⟩ := hreads k _ hk
  obtain ⟨hlon', hlat'⟩ := State.fieldS_of_posBits (State.readRbuf_entry hk h)
  exact ⟨BitVec.eq_of_toInt_eq (hlon.trans hlon'), BitVec.eq_of_toInt_eq (hlat.trans hlat')⟩

/-- Where the cells hold the bits of header fields that fit, reading the header restores `FR[0 .. 2]`. -/
theorem Machine.State.readHeader_restores {i : Nat} (ht : 3 ≤ t.fr.length) (hfits : s.headerFits = true)
    (h : t.readRbuf p 38 = s.headerBits) (hi : i < 3) : (t.readHeader p).readFr i = s.readFr i := by
  simp only [State.headerFits, State.headerRestFits, Bool.and_eq_true] at hfits
  obtain ⟨hid, hrepeat, hmmsi⟩ := hfits
  obtain ⟨hid', hrepeat', hmmsi', -⟩ := t.readHeader_readFr p ht
  obtain ⟨hfirst, hthird⟩ := t.readRbuf_split p 8 30 _ _ (by simp) h
  obtain ⟨hfirst, hsecond⟩ := t.readRbuf_split p 6 2 _ _ (by simp) hfirst
  obtain rfl | rfl | rfl : i = 0 ∨ i = 1 ∨ i = 2 := by omega
  · rw [hid', t.fieldU_of_bits p 6 _ hid hfirst]
  · rw [hrepeat', t.fieldU_of_bits (p + 6) 2 _ hrepeat hsecond]
  · rw [hmmsi', t.fieldU_of_bits (p + 8) 30 _ hmmsi hthird]

end Walks

end Sys2Proof
end

