-- ==== Sys2Proof/Proofs/RowMessages.lean ====
section
/-! PROOFS. DECODE and ENCODE of a whole message of any row: the state each leaves, and the two round trips (R119, R151,
R182, R203, R205). -/

namespace Sys2Proof

open Machine Claims

section Messages

variable {s t : State} {r : Row} {id : Int}

/-! ## The row an identifier selects (R73, R155) -/

/-- A row a configuration has meets R73. -/
theorem Claims.selected.row_wf (h : selected s id r) (hcfg : s.cfg.wf = true) :
    r.explen = 38 + tailbits r.entries ∧ entriesWf s.cfg r.entries = true := by
  obtain ⟨hsel, rfl⟩ := Config.selects_of_selected h
  exact Config.selected_row_wf hcfg hsel

theorem Claims.selected_iff : selected s id r ↔ s.cfg.selects id = true ∧ s.cfg.row id.toNat = r := by
  refine ⟨Config.selects_of_selected, ?_⟩
  rintro ⟨hsel, rfl⟩
  obtain ⟨hlow, hhigh, hpresent⟩ := (s.cfg.selects_iff id).mp hsel
  exact ⟨hlow, hhigh, rfl, hpresent⟩

theorem Claims.selected.unique {r' : Row} (h : selected s id r) (h' : selected s id r') : r = r' :=
  (selected_iff.mp h).2.symm.trans (selected_iff.mp h').2

/-- Every configuration has row 18 (R74, R152). -/
theorem Claims.selected_18 (s : State) : selected s 18 row18 := selected_iff.mpr ⟨s.cfg.selects_18, s.cfg.row_18⟩

/-- A selected identifier is one a header can hold, so what is left of the header's ranges is the other two (R157, R205). -/
theorem Machine.State.headerFits_of_selected (hsel : selected s (reg s 0) r) : s.headerFits = s.headerRestFits := by
  obtain ⟨hlow, hhigh, -⟩ := hsel
  have hid : fitsUnsigned (s.readFr 0) 6 = true := (fitsUnsigned_iff _ _).mpr ⟨hlow, Int.lt_add_one_of_le hhigh⟩
  rw [State.headerFits, hid, Bool.true_and]

/-! ## DECODE (R203) -/

theorem Machine.exec_decode_of_selected (hlen : 38 ≤ s.rlen) (hsel : selected s (fieldValue s.rbufBit 0 6) r)
    (hexplen : s.rlen = r.explen) : exec .decode s = .next (s.decoded r).done := by
  rw [fieldValue_eq_fieldU] at hsel
  obtain ⟨hselects, hrow⟩ := Config.selects_of_selected hsel
  obtain ⟨hshort, -⟩ | ⟨-, hnone, -⟩ | ⟨-, -, hlength, -⟩ | ⟨-, -, -, hexec⟩ := exec_decode_cases s r hrow
  · omega
  · exact absurd (hnone.symm.trans hselects) Bool.false_ne_true
  · exact absurd hexplen hlength
  · exact hexec

theorem Machine.State.readHeader_isConfigured (h : s.isConfigured) (p : Nat) : (s.readHeader p).isConfigured := by
  simpa [State.isConfigured] using h

/-- A DECODE of a message of a row leaves the header fields in `FR[0 .. 2]` (R203). -/
theorem Machine.State.decoded_readsFields (hs : s.isConfigured) (hes : entriesWf s.cfg r.entries = true) :
    readsFields s (s.decoded r) 0 headerFields := by
  intro f hf
  have hheader : f.1 < 3 := by revert f; decide
  rw [s.decoded_fr, State.walkDec_fr_header hes hheader]
  exact State.readHeader_readsFields hs 0 f hf

/-- A DECODE of a message of a row leaves the fields of its entries in their registers, the first at bit 38 (R203). -/
theorem Machine.State.decoded_readsEntries (hs : s.isConfigured) (hes : entriesWf s.cfg r.entries = true) :
    readsEntries s (s.decoded r) 38 r.entries := by
  obtain ⟨hreads, hkeeps⟩ := State.walkDec_readsEntries (p := 38) (State.readHeader_isConfigured hs 0)
    (by rwa [State.readHeader_cfg])
  simp only [fieldValue_eq_fieldU, State.readHeader_fieldU, State.readHeader_posLon, State.readHeader_posLat] at hreads hkeeps
  simp only [readsEntries, fieldValue_eq_fieldU, s.decoded_fr, s.decoded_posLon, s.decoded_posLat]
  exact ⟨hreads, hkeeps⟩

theorem Machine.State.decoded_fr_of_not_names {i : Nat} (hi : 3 ≤ i) (h : ¬ names r.entries i) :
    (s.decoded r).fr[i]? = s.fr[i]? := by
  rw [s.decoded_fr, State.walkDec_fr_of_not_names h, State.readHeader_fr_of_le hi]

/-! ## ENCODE (R205) -/

/-- The state an ENCODE of a message of row `r` that succeeds leaves (R205). -/
def Machine.State.encoded (s : State) (r : Row) : State := (s.newWriter.append (s.messageBits r)).finalize

theorem Machine.exec_encode_of_selected (hsel : selected s (reg s 0) r) (hheader : s.headerFits = true)
    (hfits : r.entries.all s.entryFits = true) : exec .encode s = .next (s.encoded r).done := by
  rw [State.headerFits_of_selected hsel] at hheader
  obtain ⟨hselects, hrow⟩ := Config.selects_of_selected hsel
  obtain ⟨hout, -⟩ | ⟨-, -, hnone, -⟩ | ⟨-, hover, -⟩ | ⟨-, -, -, hexec⟩ := exec_encode_cases s r hrow
  · obtain ⟨hlow, hhigh, -⟩ := hsel
    simp only [reg_eq_readFr] at hlow hhigh
    omega
  · exact absurd (hnone.symm.trans hselects) Bool.false_ne_true
  · rw [hheader, hfits] at hover
    exact absurd hover.symm Bool.false_ne_true
  · exact hexec

/-- An ENCODE that succeeds found its row and its ranges good (R205, R224). -/
theorem Machine.exec_encode_succeeds (hexec : exec .encode s = .next t) (hok : t.status = 0) :
    ∃ r, selected s (reg s 0) r ∧ s.headerFits = true ∧ r.entries.all s.entryFits = true ∧ t = (s.encoded r).done := by
  obtain ⟨-, e, -, rfl⟩ | ⟨hdecode, -⟩ | ⟨u, ⟨r, hselects, hrow, hheader, hfits, rfl⟩, rfl⟩ := exec_ends .encode s t hexec
  · exact absurd hok e.code_ne_zero
  · cases hdecode
  · have hsel : selected s (reg s 0) r := selected_iff.mpr ⟨hselects, hrow⟩
    exact ⟨r, hsel, (State.headerFits_of_selected hsel).trans hheader, hfits, rfl⟩

theorem Machine.State.encoded_wbuf (s : State) (r : Row) :
    (s.encoded r).wbuf = Mem.write s.wbuf 0 (s.messageBits r) := by
  rw [State.encoded, State.finalize_wbuf, State.append_wbuf, State.newWriter_wbuf, State.newWriter_wlen]

@[simp] theorem Machine.State.encoded_wlen (s : State) (r : Row) : (s.encoded r).wlen = 38 + tailbits r.entries := by
  rw [State.encoded, State.finalize_wlen, State.append_wlen, State.newWriter_wlen, s.messageBits_length, Nat.zero_add]

@[simp] theorem Machine.State.encoded_cfg (s : State) (r : Row) : (s.encoded r).cfg = s.cfg := by
  rw [State.encoded, State.finalize_cfg, State.append_cfg, State.newWriter_cfg]

@[simp] theorem Machine.State.encoded_epoch (s : State) (r : Row) : (s.encoded r).epoch = s.epoch := by
  rw [State.encoded, State.finalize_epoch, State.append_epoch, State.newWriter_epoch]

theorem Machine.State.encoded_armlen (s : State) (r : Row) :
    (s.encoded r).armlen = (38 + tailbits r.entries + 5) / 6 := by
  rw [← s.encoded_wlen r, State.encoded, State.finalize_armlen, armlen_eq, State.finalize_wlen]

theorem Machine.State.encoded_fill (s : State) (r : Row) :
    (s.encoded r).fill = fillCount (38 + tailbits r.entries) := by
  rw [← s.encoded_wlen r, State.encoded, State.finalize_fill, State.finalize_wlen]

/-- What an ENCODE that succeeds writes, and that it writes nothing else (R205). -/
theorem Machine.State.encoded_done_eq (s : State) (r : Row) : (s.encoded r).done =
    { s with wbuf := (s.encoded r).wbuf, wlen := 38 + tailbits r.entries, arm := (s.encoded r).arm,
             armlen := (38 + tailbits r.entries + 5) / 6, fill := fillCount (38 + tailbits r.entries),
             wfin := true, status := 0, info := 0 } := by
  ext1 <;> simp [State.encoded, armlen_eq]

/-- The bits of a message are in `WBUF` from cell 0 on (R205). -/
theorem Machine.State.encoded_get? {a : Nat} (h : a < 38 + tailbits r.entries) :
    Mem.get? (s.encoded r).wbuf a = (s.messageBits r)[a]? := by
  have hinside := Mem.get?_write_inside s.wbuf 0 (s.messageBits r) a (by rwa [s.messageBits_length])
  rwa [Nat.zero_add, ← State.encoded_wbuf] at hinside

theorem Machine.State.encoded_sameOutside (s : State) (r : Row) :
    sameOutside s.wbuf (s.encoded r).wbuf 0 (38 + tailbits r.entries) := by
  intro a ha
  rw [State.encoded_wbuf, Mem.get?_write_outside _ _ _ a (by rwa [s.messageBits_length])]

theorem Machine.State.encoded_writesFields (h : s.headerFits = true) (r : Row) :
    writesFields s (s.encoded r).wbuf 0 0 headerFields := by
  rw [State.encoded_wbuf]
  exact fun f hf => ((State.headerBits_hasField h f hf).append_right _).write_holdsField s.wbuf 0

theorem Machine.State.encoded_writesEntries (h : r.entries.all s.entryFits = true) :
    writesEntries s (s.encoded r).wbuf 38 r.entries := by
  rw [State.encoded_wbuf, State.messageBits, Mem.write_append, State.headerBits_length]
  exact State.walkEncBits_writesEntries h _ _

/-- The text of a message is the armoring of its bits (R42, R115, R205). -/
theorem Machine.State.encoded_holdsText (s : State) (r : Row) :
    holdsText s.cfg (s.encoded r).arm ((38 + tailbits r.entries + 5) / 6)
      (fun a => decide (a < 38 + tailbits r.entries) && (s.encoded r).wbufBit a) := by
  intro i hi
  obtain ⟨-, -, htext⟩ : (s.encoded r).armored := State.finalize_armored _
  rw [← State.encoded_armlen] at hi
  rw [htext i hi, State.group_eq_fieldValue, s.encoded_cfg, s.encoded_wlen]
  simp only [Bool.if_false_right]

/-- A text is decided by the bits of its characters (R42). -/
theorem Claims.holdsText_congr {c : Config} {arm : List Host.Cell} {n : Nat} {f g : Nat → Bool}
    (h : holdsText c arm n f) (hfg : ∀ a, a < 6 * n → f a = g a) : holdsText c arm n g := by
  intro i hi
  have hvalue : fieldValue f (6 * i) 6 = fieldValue g (6 * i) 6 := Finset.sum_congr rfl fun k hk => by
    rw [hfg _ (by have := Finset.mem_range.mp hk; omega)]
  rw [h i hi, hvalue]

theorem Machine.State.encoded_arm_sameOutside (s : State) (r : Row) :
    sameOutside s.arm (s.encoded r).arm 0 ((38 + tailbits r.entries + 5) / 6) := by
  rw [← State.encoded_armlen]
  intro a ha
  exact Mem.get?_write_outside s.arm 0 _ a (by rwa [State.armorText_length])

/-! ## Decoding, then encoding (R119 d, R182) -/

/-- The registers a DECODE leaves are those of the payload: their message bits are the bits read. -/
theorem Machine.State.messageBits_decoded (hs : s.isConfigured) (hes : entriesWf s.cfg r.entries = true) :
    (s.decoded r).messageBits r = s.readRbuf 0 (38 + tailbits r.entries) := by
  obtain ⟨hcfg, hlen⟩ := hs
  have hnfr := s.cfg.nfr_ge hcfg
  have hheader : ((s.readHeader 0).walkDec 38 r.entries).headerBits = (s.readHeader 0).headerBits := by
    simp only [State.headerBits, State.walkDec_header _ _ hes (show 0 < 3 by decide),
      State.walkDec_header _ _ hes (show 1 < 3 by decide), State.walkDec_header _ _ hes (show 2 < 3 by decide)]
  have hmessage : (s.decoded r).messageBits r = ((s.readHeader 0).walkDec 38 r.entries).messageBits r := rfl
  rw [hmessage, State.messageBits, hheader, State.headerBits_readHeader (by omega),
    State.walkEncBits_walkDec hes (by simpa using hlen), State.readHeader_readRbuf, State.readRbuf_add]

/-- A message in the registers is one ENCODE accepts (R21, R205). -/
theorem Machine.exec_encode_of_holdsMessage (h : s.holdsMessage) :
    exec .encode s = .next (s.encoded (s.cfg.row (s.readFr 0).toNat)).done := by
  obtain ⟨hselects, hheader, hfits⟩ := h
  have hsel : selected s (reg s 0) (s.cfg.row (s.readFr 0).toNat) := selected_iff.mpr ⟨hselects, rfl⟩
  exact exec_encode_of_selected hsel ((State.headerFits_of_selected hsel).trans hheader) hfits

/-- DECODE of a payload of a row and ENCODE of the result both succeed, and write the payload back. -/
theorem Machine.exec_encode_after_decode (hs : s.isConfigured) (hlen : 38 ≤ s.rlen)
    (hsel : selected s (fieldValue s.rbufBit 0 6) r) (hexplen : s.rlen = r.explen) :
    ∃ t, exec .decode s = .next t ∧ t.status = 0 ∧ t.cfg = s.cfg ∧ exec .encode t = .next (t.encoded r).done ∧
      ∀ a, a < 38 + tailbits r.entries → Mem.get? (t.encoded r).wbuf a = some (s.rbufBit a) := by
  obtain ⟨-, hes⟩ := hsel.row_wf hs.1
  refine ⟨(s.decoded r).done, exec_decode_of_selected hlen hsel hexplen, rfl, s.decoded_cfg r, ?_, fun a ha => ?_⟩
  · rw [fieldValue_eq_fieldU] at hsel
    obtain ⟨hselects, hrow⟩ := Config.selects_of_selected hsel
    rw [Int.toNat_natCast] at hrow
    have hmessage := (State.decoded_holdsMessage hs hselects).congr (State.done_cfg _) (State.done_fr _)
    rw [hrow] at hmessage
    have hid : (s.decoded r).done.readFr 0 = s.fieldU 0 6 := by
      have hread := State.decoded_readsFields hs hes (0, 0, 6) (by decide)
      rw [fieldValue_eq_fieldU] at hread
      simp [State.readFr, hread]
    have hexec := exec_encode_of_holdsMessage hmessage
    rwa [hid, Int.toNat_natCast, State.done_cfg, State.decoded_cfg, hrow] at hexec
  · have hbits : (s.decoded r).done.messageBits r = (s.decoded r).messageBits r := rfl
    rw [State.encoded_get? ha, hbits, State.messageBits_decoded hs hes, State.readRbuf_getElem? _ _ _ _ ha, Nat.zero_add]

/-! ## Encoding, then decoding (R119 a, R182) -/

/-- DECODE of the bits of a message that fits its row succeeds and restores the registers of the message. -/
theorem Machine.exec_decode_of_messageBits (ht : t.isConfigured) (hsel : selected t (reg s 0) r)
    (hheader : s.headerFits = true) (hfits : r.entries.all s.entryFits = true) (hlen : t.rlen = 38 + tailbits r.entries)
    (hbits : t.readRbuf 0 (38 + tailbits r.entries) = s.messageBits r) :
    ∃ u, exec .decode t = .next u ∧ u.status = 0 ∧ (∀ i, i < 3 ∨ names r.entries i → u.fr[i]? = some (reg s i)) ∧
      (.pos ∈ r.entries → u.posLon = s.posLon ∧ u.posLat = s.posLat) := by
  have hnfr := t.cfg.nfr_ge ht.1
  obtain ⟨hexplen, hes⟩ := hsel.row_wf ht.1
  obtain ⟨hhead, htail⟩ := t.readRbuf_split 0 38 (tailbits r.entries) _ _ s.headerBits_length hbits
  have hregs (i : Nat) (hi : i < 3) : (t.readHeader 0).readFr i = reg s i :=
    State.readHeader_restores (by rw [ht.2]; omega) hheader hhead hi
  have hid : (fieldValue t.rbufBit 0 6 : Int) = reg s 0 := by
    rw [← hregs 0 (by decide), (t.readHeader_readFr 0 (by rw [ht.2]; omega)).1, fieldValue_eq_fieldU]
  have ht' := State.readHeader_isConfigured ht 0
  have hes' : entriesWf (t.readHeader 0).cfg r.entries = true := by rwa [State.readHeader_cfg]
  have htail' : (t.readHeader 0).readRbuf 38 (tailbits r.entries) = s.walkEncBits r.entries := by
    rwa [State.readHeader_readRbuf]
  refine ⟨_, exec_decode_of_selected (by omega) (hid ▸ hsel) (by omega), rfl, ?_, fun hpos => ?_⟩
  · rintro i (hi | hi)
    · rw [State.done_fr, t.decoded_fr, State.walkDec_fr_header hes hi, State.getElem?_eq_readFr _ i (by simp [ht.2]; omega),
        hregs i hi]
    · rw [State.done_fr, t.decoded_fr, State.walkDec_restores_fr ht' hes' hfits htail' hi]
  · rw [State.done_posLon, State.done_posLat, t.decoded_posLon, t.decoded_posLat]
    exact State.walkDec_restores_pos ht' hes' htail' hpos

/-- A reader that holds the cells an ENCODE wrote holds the bits of the message. -/
theorem Machine.State.readRbuf_of_encoded (h : ∀ a, a < 38 + tailbits r.entries →
    some (t.rbufBit a) = Mem.get? (s.encoded r).done.wbuf a) :
    t.readRbuf 0 (38 + tailbits r.entries) = s.messageBits r :=
  State.readRbuf_eq_of_cells (s.messageBits_length r) fun k hk => by
    rw [Nat.zero_add, h k hk, State.done_wbuf, State.encoded_get? hk]

/-! ## Type 18 (R17, R72) -/

theorem Claims.lt_three_or_names_row18 {i : Nat} (hi : i ≤ 18) : i < 3 ∨ names row18.entries i := by
  rw [names_iff]
  revert hi i
  decide

end Messages

/-- Settles O44: the two clauses about walks are `walkEncBits_walkDec` and `walkDec_restores_fr`, and a message is the
header and a walk. -/
theorem anyRowRoundTrips : Obligations.AnyRowRoundTrips := by
  refine ⟨fun s p es hs hes => ⟨State.walkEncBits_walkDec hes hs.2, State.walkDec_fits hes hs.2⟩,
    fun s r p es hr hes hfits hbits => ⟨fun i => State.walkDec_restores_fr hr hes hfits hbits,
      State.walkDec_restores_pos hr hes hbits⟩, fun s r hs hlen hsel hexplen => ?_,
    fun s t q r hq hcfg hsel hexec hok hlen hcells => ?_⟩
  · obtain ⟨t, hdecode, hok, -, hencode, hcells⟩ := exec_encode_after_decode hs hlen hsel hexplen
    have hrlen : s.rlen = 38 + tailbits r.entries := hexplen.trans (hsel.row_wf hs.1).1
    refine ⟨t, _, hdecode, hok, hencode, State.done_status _, ?_, fun a ha => ?_⟩
    · rw [State.done_wlen, t.encoded_wlen, hrlen]
    · rw [State.done_wbuf, hcells a (by omega)]
  · obtain ⟨r', hsel', hheader, hfits, rfl⟩ := exec_encode_succeeds hexec hok
    obtain rfl := hsel.unique hsel'
    rw [State.done_wlen, s.encoded_wlen] at hlen hcells
    have hsel : selected q (reg s 0) r := by
      rw [selected, hcfg]
      exact hsel
    exact exec_decode_of_messageBits hq hsel hheader hfits hlen (State.readRbuf_of_encoded hcells)

/-- Settles O50: row 18 is selected in every configuration and names `FR[3 .. 18]` and the position; its text is that of the
bits written, which are the payload. -/
theorem type18RoundTrips : Obligations.Type18RoundTrips := by
  have hbits : 38 + tailbits row18.entries = 168 := rfl
  refine ⟨fun s hs hlen hid => ?_, fun s t q hq hid hexec hok hlen hcells => ?_⟩
  · have hsel : selected s (fieldValue s.rbufBit 0 6) row18 := hid ▸ selected_18 s
    obtain ⟨t, hdecode, hok, hcfg, hencode, hcells⟩ := exec_encode_after_decode hs (by omega) hsel hlen
    have htext := t.encoded_holdsText row18
    rw [hbits] at hcells
    rw [hbits, hcfg] at htext
    refine ⟨t, _, hdecode, hok, hencode, State.done_status _, t.encoded_wlen row18, t.encoded_fill row18,
      t.encoded_armlen row18, fun a ha => ?_, holdsText_congr htext fun a ha => ?_⟩
    · rw [State.done_wbuf, hcells a ha]
    · have ha : a < 168 := ha
      simp [State.wbufBit, hcells a ha, ha]
  · obtain ⟨r, hsel, hheader, hfits, rfl⟩ := exec_encode_succeeds hexec hok
    obtain rfl : row18 = r := (selected_18 s).unique (hid ▸ hsel)
    obtain ⟨u, hdecode, hstatus, hregs, hpos⟩ := exec_decode_of_messageBits hq (hid ▸ selected_18 q) hheader hfits
      (hlen.trans hbits.symm) (State.readRbuf_of_encoded fun a ha => hcells a (hbits ▸ ha))
    exact ⟨u, hdecode, hstatus, fun i hi => hregs i (lt_three_or_names_row18 hi), hpos (by decide)⟩

end Sys2Proof
end

