-- ==== Sys2Proof/Proofs/LayoutUnit.lean ====
section
/-! PROOFS. The layout unit: the header and tail commands, the predicates, and the four commands that execute a row, for
any row a configuration has (R151, R152, R156 to R159, R175 to R179, R203, R205). -/

namespace Sys2Proof

open Machine Claims

section Layout

variable {s t : State} {r : Row} {id : Int} {m : Mem Bool} {p q : Nat}

/-! ## No row selected (R158, R202) -/

theorem Claims.unsupported_iff : unsupported s id ↔ s.cfg.selects id = false := by
  rw [unsupported, ← Bool.not_eq_true, not_iff_not]
  constructor
  · rintro ⟨r, hsel⟩
    exact (selected_iff.mp hsel).1
  · exact fun hselects => ⟨_, selected_iff.mpr ⟨hselects, rfl⟩⟩

/-- The identifier a failure carries is `id mod 64` (R158, D17). -/
theorem Machine.idMod64_eq (id : Int) : idMod64 id = BitVec.ofInt 6 (id % 64) := by
  apply BitVec.eq_of_toNat_eq
  simp [idMod64, BitVec.toNat_ofInt]

/-- UnsupportedMessageType writes `STATUS` 3 and `id mod 64` (R221, R225). -/
theorem Machine.State.raise_unsupported (s : State) (id : Int) :
    s.raise (.unsupportedMessageType (idMod64 id)) = { s with status := 3, info := BitVec.ofInt 6 (id % 64) } := by
  rw [← idMod64_eq]
  rfl

/-! ## The fields of type 18 (R17, R72) -/

/-- Each field of the type-18 table is an entry of row 18, at its payload bit less the 38 of the header. -/
theorem Claims.tailFields_entries : ∀ f ∈ tailFields, ∃ k < 17, row18.entries[k]? = some (.u f.1 f.2.2) ∧
    entryStart row18.entries k = f.2.1 - 38 := by decide

/-- Each entry of row 18 is the position or a field of the type-18 table. -/
theorem Claims.row18_entries : ∀ e ∈ row18.entries, e = .pos ∨ ∃ f ∈ tailFields, e = .u f.1 f.2.2 := by decide

theorem Claims.entriesFit_row18_iff : entriesFit s row18.entries ↔ fieldsFit s tailFields := by
  constructor
  · intro h f hf
    obtain ⟨k, -, he, -⟩ := tailFields_entries f hf
    exact h _ (List.mem_of_getElem? he)
  · intro h e he
    obtain rfl | ⟨f, hf, rfl⟩ := row18_entries e he
    · trivial
    · exact h f hf

theorem Claims.readsEntries_row18 (h : readsEntries s t p row18.entries) :
    (∀ f ∈ tailFields, t.fr[f.1]? = some (fieldValue s.rbufBit (p + (f.2.1 - 38)) f.2.2 : Int)) ∧
      t.posLon.toInt = twosComplement 28 (fieldValue s.rbufBit (p + 19) 28) ∧
      t.posLat.toInt = twosComplement 27 (fieldValue s.rbufBit (p + 47) 27) := by
  obtain ⟨hreads, -⟩ := h
  refine ⟨fun f hf => ?_, hreads 3 .pos rfl⟩
  obtain ⟨k, -, he, hstart⟩ := tailFields_entries f hf
  rw [← hstart]
  exact hreads k _ he

theorem Claims.writesEntries_row18 (h : writesEntries s m q row18.entries) :
    writesFields s m q 38 tailFields ∧ holdsField m (q + 19) 28 s.posLon.toInt ∧
      holdsField m (q + 47) 27 s.posLat.toInt := by
  refine ⟨fun f hf => ?_, h 3 .pos rfl⟩
  obtain ⟨k, -, he, hstart⟩ := tailFields_entries f hf
  rw [← hstart]
  exact h k _ he

theorem Claims.not_names_row18 {i : Nat} (hi : i < 3 ∨ 18 < i) : ¬ names row18.entries i := by
  have hregs : ∀ d ∈ row18.entries.filterMap Entry.dest?, 3 ≤ d ∧ d ≤ 18 := by decide
  rw [names_iff]
  intro hmem
  have := hregs i hmem
  omega

/-! ## The header commands (R156, R157) -/

theorem Machine.exec_hdrdec_of_enough (hs : s.isConfigured) (h : s.rpos + 38 ≤ s.rlen) :
    ∃ t, exec .hdrdec s = .next t ∧ readsFields s t s.rpos headerFields ∧ (∀ i, 3 ≤ i → t.fr[i]? = s.fr[i]?) ∧
      t = { s with fr := t.fr, rpos := s.rpos + 38, msgOk := false, status := 0, info := 0 } := by
  obtain ⟨hshort, -⟩ | ⟨-, hexec⟩ := exec_hdrdec_cases s
  · omega
  · exact ⟨_, hexec, State.readHeader_readsFields hs s.rpos, fun i hi => State.readHeader_fr_of_le hi, by
      ext1 <;> simp⟩

/-! ## The tail commands (R158, R159) -/

theorem Machine.exec_taildec_of_unsupported (h : unsupported s (reg s 0)) : exec .taildec s =
    .next { s with status := 3, info := BitVec.ofInt 6 (reg s 0 % 64) } := by
  obtain ⟨-, hexec⟩ | ⟨hsel, -⟩ | ⟨hsel, -⟩ | ⟨hsel, -⟩ := exec_taildec_cases s _ rfl
  · rw [hexec, State.raise_unsupported, reg_eq_readFr]
  all_goals exact absurd ((unsupported_iff.mp h).symm.trans hsel) Bool.false_ne_true

/-- TAILDEC's ends once a row is selected: the length, the bits that remain, the walk (R158, R230). -/
theorem Machine.exec_taildec_of_selected (hsel : selected s (reg s 0) r) :
    (s.rlen ≠ r.explen → exec .taildec s = .next (s.raise .wrongPayloadLength)) ∧
      (s.rlen = r.explen → s.rlen < s.rpos + tailbits r.entries →
        exec .taildec s = .next (s.raise .truncatedPayload)) ∧
      (s.rlen = r.explen → s.rpos + tailbits r.entries ≤ s.rlen → exec .taildec s =
        .next ((s.walkDec s.rpos r.entries).advance (tailbits r.entries)).clearMsgOk.done) := by
  obtain ⟨hselects, hrow⟩ := Config.selects_of_selected hsel
  obtain ⟨hnone, -⟩ | ⟨-, hlength, hexec⟩ | ⟨-, hlength, hshort, hexec⟩ | ⟨-, hlength, henough, hexec⟩ :=
    exec_taildec_cases s r hrow
  · exact absurd (hnone.symm.trans hselects) Bool.false_ne_true
  · exact ⟨fun _ => hexec, fun h => absurd h hlength, fun h => absurd h hlength⟩
  · exact ⟨fun h => absurd hlength h, fun _ _ => hexec, fun _ h => by omega⟩
  · exact ⟨fun h => absurd hlength h, fun _ h => by omega, fun _ _ => hexec⟩

/-- TAILDEC of any row a configuration has: the fields of the entries from the cursor on, and nothing else (R151, R158). -/
theorem Machine.exec_taildec_reads (hs : s.isConfigured) (hsel : selected s (reg s 0) r) (hlen : s.rlen = r.explen)
    (h : s.rpos + tailbits r.entries ≤ s.rlen) :
    ∃ t, exec .taildec s = .next t ∧ readsEntries s t s.rpos r.entries ∧
      (∀ i, ¬ names r.entries i → t.fr[i]? = s.fr[i]?) ∧
      t = { s with fr := t.fr, posLon := t.posLon, posLat := t.posLat, rpos := s.rpos + tailbits r.entries,
                   msgOk := false, status := 0, info := 0 } := by
  obtain ⟨-, hes⟩ := hsel.row_wf hs.1
  obtain ⟨-, -, hexec⟩ := exec_taildec_of_selected hsel
  exact ⟨_, hexec hlen h, State.walkDec_readsEntries hs hes, fun i hi => State.walkDec_fr_of_not_names hi, by
    ext1 <;> simp⟩

theorem Machine.exec_tailenc_of_finalized (hfin : s.wfin = true) :
    exec .tailenc s = .next (s.raise .writerFinalized) := by
  obtain ⟨-, hexec⟩ | ⟨hopen, -⟩ | ⟨hopen, -⟩ | ⟨hopen, -⟩ := exec_tailenc_cases s _ rfl
  · exact hexec
  all_goals exact absurd (hopen.symm.trans hfin) Bool.false_ne_true

theorem Machine.exec_tailenc_of_unsupported (hfin : s.wfin = false) (h : unsupported s (reg s 0)) :
    exec .tailenc s = .next { s with status := 3, info := BitVec.ofInt 6 (reg s 0 % 64) } := by
  obtain ⟨hlocked, -⟩ | ⟨-, -, hexec⟩ | ⟨-, hsel, -⟩ | ⟨-, hsel, -⟩ := exec_tailenc_cases s _ rfl
  · exact absurd (hfin.symm.trans hlocked) Bool.false_ne_true
  · rw [hexec, State.raise_unsupported, reg_eq_readFr]
  all_goals exact absurd ((unsupported_iff.mp h).symm.trans hsel) Bool.false_ne_true

theorem Machine.exec_tailenc_of_overflow (hfin : s.wfin = false) (hsel : selected s (reg s 0) r)
    (h : ¬ entriesFit s r.entries) : exec .tailenc s = .next (s.raise .fieldOverflow) := by
  rw [← s.entryFits_all_iff] at h
  obtain ⟨hselects, hrow⟩ := Config.selects_of_selected hsel
  obtain ⟨hlocked, -⟩ | ⟨-, hnone, -⟩ | ⟨-, -, -, hexec⟩ | ⟨-, -, hfits, -⟩ := exec_tailenc_cases s r hrow
  · exact absurd (hfin.symm.trans hlocked) Bool.false_ne_true
  · exact absurd (hnone.symm.trans hselects) Bool.false_ne_true
  · exact hexec
  · exact absurd hfits h

/-! ## Whole messages (R203, R205) -/

/-- DECODE of any row a configuration has: the header, the fields of the entries from bit 38, and nothing else (R203). -/
theorem Machine.exec_decode_reads (hs : s.isConfigured) (hlen : 38 ≤ s.rlen)
    (hsel : selected s (fieldValue s.rbufBit 0 6) r) (hexplen : s.rlen = r.explen) :
    ∃ t, exec .decode s = .next t ∧ readsFields s t 0 headerFields ∧ readsEntries s t 38 r.entries ∧
      (∀ i, 3 ≤ i → ¬ names r.entries i → t.fr[i]? = s.fr[i]?) ∧
      t = { s with fr := t.fr, posLon := t.posLon, posLat := t.posLat, rpos := r.explen, msgOk := true,
                   status := 0, info := 0 } := by
  obtain ⟨hbits, hes⟩ := hsel.row_wf hs.1
  refine ⟨_, exec_decode_of_selected hlen hsel hexplen, State.decoded_readsFields hs hes,
    State.decoded_readsEntries hs hes, fun i hi hnames => State.decoded_fr_of_not_names hi hnames, ?_⟩
  rw [hbits]
  exact congrArg State.done (s.decoded_eq r)

/-- ENCODE of any row a configuration has: the header and the fields of the entries in `WBUF` from 0, the text of those bits,
and nothing else (R205). -/
theorem Machine.exec_encode_writes (hcfg : s.cfg.wf = true) (hsel : selected s (reg s 0) r)
    (hheader : fieldsFit s headerFields) (hfits : entriesFit s r.entries) :
    ∃ t, exec .encode s = .next t ∧ writesFields s t.wbuf 0 0 headerFields ∧ writesEntries s t.wbuf 38 r.entries ∧
      sameOutside s.wbuf t.wbuf 0 r.explen ∧
      holdsText s.cfg t.arm t.armlen (fun a => decide (a < r.explen) && t.wbufBit a) ∧
      sameOutside s.arm t.arm 0 t.armlen ∧
      t = { s with wbuf := t.wbuf, wlen := r.explen, arm := t.arm, armlen := (r.explen + 5) / 6,
                   fill := (6 - r.explen % 6) % 6, wfin := true, status := 0, info := 0 } := by
  rw [← s.headerFits_iff] at hheader
  rw [← s.entryFits_all_iff] at hfits
  obtain ⟨hexplen, -⟩ := hsel.row_wf hcfg
  have hexec := exec_encode_of_selected hsel hheader hfits
  have hfields := State.encoded_writesFields hheader r
  have hentries := State.encoded_writesEntries hfits
  have houtside := s.encoded_sameOutside r
  have htext := s.encoded_holdsText r
  have harm := s.encoded_arm_sameOutside r
  rw [s.encoded_done_eq] at hexec
  simp only [State.wbufBit, State.encoded_epoch] at htext
  generalize (s.encoded r).wbuf = wbuf, (s.encoded r).arm = arm at hexec hfields hentries houtside htext harm
  rw [hexplen]
  exact ⟨_, hexec, hfields, hentries, houtside, htext, harm, rfl⟩

end Layout

/-- Settles O38: by the one bound test of HDRDEC. -/
theorem hdrdecReadsHeader : Obligations.HdrdecReadsHeader := by
  refine fun s => ⟨fun hshort => ?_, exec_hdrdec_of_enough⟩
  obtain ⟨-, hexec⟩ | ⟨henough, -⟩ := exec_hdrdec_cases s
  · exact hexec
  · omega

/-- Settles O39: the lock, the three ranges as one test, and `exec_hdrenc_appends`, which asks no capacity. -/
theorem hdrencAppendsHeader : Obligations.HdrencAppendsHeader := by
  refine fun s => ⟨fun hfin => ?_, fun hfin hout => ?_, fun hfin hfits _ => exec_hdrenc_appends hfin hfits⟩
  · rw [exec_hdrenc_eq, State.complete_appending_of_locked hfin]
    rfl
  · rw [← s.headerFits_iff] at hout
    rw [exec_hdrenc_eq, State.complete_appending_of_overflow hfin hout]
    rfl

/-- Settles O40: the tests in order, and `exec_taildec_reads` with row 18, whose entries are the type-18 table. -/
theorem taildecReadsTail : Obligations.TaildecReadsTail := by
  refine fun s => ⟨exec_taildec_of_unsupported, fun hrows hid => ?_, fun r hsel => ?_, fun hs hid hlen henough => ?_⟩
  · rw [unsupported_iff, ← Bool.not_eq_true, s.cfg.selects_of_rows_nil hrows]
    exact hid
  · obtain ⟨hlength, hshort, -⟩ := exec_taildec_of_selected hsel
    exact ⟨hlength, hshort⟩
  · obtain ⟨t, hexec, hreads, hframe, ht⟩ := exec_taildec_reads hs (hid ▸ selected_18 s) hlen (by
      rw [tailbits_row18]
      omega)
    obtain ⟨hfields, hlon, hlat⟩ := readsEntries_row18 hreads
    exact ⟨t, hexec, hfields, hlon, hlat, fun i hi => hframe i (not_names_row18 hi), ht⟩

/-- Settles O41: the tests in order, and `exec_tailenc_appends` with row 18, whose entries are the type-18 table. -/
theorem tailencAppendsTail : Obligations.TailencAppendsTail := by
  refine fun s => ⟨exec_tailenc_of_finalized, exec_tailenc_of_unsupported, fun r => exec_tailenc_of_overflow,
    fun hfin hid hout => ?_, fun hfin hid hfits _ => ?_⟩
  · exact exec_tailenc_of_overflow hfin (hid ▸ selected_18 s) (entriesFit_row18_iff.not.mpr hout)
  · obtain ⟨t, hexec, hwrites, hframe, ht⟩ :=
      exec_tailenc_appends hfin (hid ▸ selected_18 s) (entriesFit_row18_iff.mpr hfits)
    obtain ⟨hfields, hlon, hlat⟩ := writesEntries_row18 hwrites
    exact ⟨t, hexec, hfields, hlon, hlat, hframe, ht⟩

/-- Settles O59: a clause for each of the four commands that execute a row. -/
theorem configuredRowsAreExecuted : Obligations.ConfiguredRowsAreExecuted :=
  fun _ _ hs => ⟨exec_taildec_reads hs, fun hsel hfin hfits _ => exec_tailenc_appends hfin hsel hfits,
    exec_decode_reads hs, exec_encode_writes hs.1⟩

/-- Settles O42: each predicate writes the result of its one comparison. -/
theorem speedCourseHeadingPredicates : Obligations.SpeedCourseHeadingPredicates := fun _ => ⟨rfl, rfl, rfl⟩

/-- The utc-second status numbers 60 to 63 from 1 on (R179). -/
theorem Machine.utcStatus_of_code {v : Int} (h : 60 ≤ v ∧ v ≤ 63) : utcStatus v = v - 59 := by
  obtain rfl | rfl | rfl | rfl : v = 60 ∨ v = 61 ∨ v = 62 ∨ v = 63 := by omega
  all_goals rfl

theorem Machine.utcStatus_of_outside {v : Int} (h : v < 0 ∨ 63 < v) : utcStatus v = 5 := by
  unfold utcStatus
  split_ifs <;> omega

/-- Settles O43: `RES` is `utcStatus`, at a second, at one of the four codes and outside both. -/
theorem utcSecondStatus : Obligations.UtcSecondStatus :=
  fun _ => ⟨_, rfl, rfl, utcStatus_of_outside, fun hsecond => if_pos hsecond, utcStatus_of_code⟩

end Sys2Proof
end

