-- ==== Sys2Proof/Proofs/MessageChecks.lean ====
section
/-! PROOFS. DECODE and ENCODE: which test each failure is of, and the type-18 message read and written (R16, R17, R202 to
R205, R230). -/

namespace Sys2Proof

open Machine Claims

section Ends

variable {s : State} {r : Row} {id : Int}

/-! ## The row an identifier selects (R202) -/

/-- With the default rows, identifier 18 alone selects a row (R74, R202). -/
theorem Claims.unsupported_of_rows_nil (hrows : s.cfg.rows = []) (hid : id ≠ 18) : unsupported s id := by
  rw [unsupported_iff, ← Bool.not_eq_true, s.cfg.selects_of_rows_nil hrows]
  exact hid

theorem Claims.unsupported_or_selected (s : State) (id : Int) : unsupported s id ∨ ∃ r, selected s id r :=
  (em _).symm

/-! ## The ends of DECODE (R203, R204) -/

theorem Machine.exec_decode_of_short (h : s.rlen < 38) :
    exec .decode s = .next (State.failDecode { s with rpos := 0 } .truncatedPayload) := by
  obtain ⟨-, hexec⟩ | ⟨henough, -⟩ | ⟨henough, -⟩ | ⟨henough, -⟩ := exec_decode_cases s _ rfl
  · exact hexec
  all_goals omega

theorem Machine.exec_decode_of_unsupported (hlen : 38 ≤ s.rlen) (h : unsupported s (fieldValue s.rbufBit 0 6)) :
    exec .decode s = .next (State.failDecode { s with rpos := 0 }
      (.unsupportedMessageType (idMod64 (fieldValue s.rbufBit 0 6)))) := by
  rw [fieldValue_eq_fieldU] at h ⊢
  obtain ⟨hshort, -⟩ | ⟨-, -, hexec⟩ | ⟨-, hsel, -⟩ | ⟨-, hsel, -⟩ := exec_decode_cases s _ rfl
  · omega
  · exact hexec
  all_goals exact absurd ((unsupported_iff.mp h).symm.trans hsel) Bool.false_ne_true

theorem Machine.exec_decode_of_wrongLength (hlen : 38 ≤ s.rlen) (hsel : selected s (fieldValue s.rbufBit 0 6) r)
    (h : s.rlen ≠ r.explen) :
    exec .decode s = .next (State.failDecode { s with rpos := 0 } .wrongPayloadLength) := by
  rw [fieldValue_eq_fieldU] at hsel
  obtain ⟨hselects, hrow⟩ := Config.selects_of_selected hsel
  obtain ⟨hshort, -⟩ | ⟨-, hnone, -⟩ | ⟨-, -, -, hexec⟩ | ⟨-, -, hexplen, -⟩ := exec_decode_cases s r hrow
  · omega
  · exact absurd (hnone.symm.trans hselects) Bool.false_ne_true
  · exact hexec
  · exact absurd hexplen h

/-- The 6-bit identifier of a header is the one its failure carries (R202). -/
theorem Machine.idMod64_toNat_fieldValue (s : State) (p : Nat) :
    (idMod64 (fieldValue s.rbufBit p 6)).toNat = fieldValue s.rbufBit p 6 := by
  rw [fieldValue_eq_fieldU, idMod64, BitVec.ofInt_natCast, BitVec.toNat_ofNat]
  exact Nat.mod_eq_of_lt (s.fieldU_lt p 6)

/-- What a DECODE that fails leaves as it was (R203, R224 c; log 4). -/
theorem Machine.exec_decode_fails_frame {t : State} (hexec : exec .decode s = .next t) (hfails : t.status ≠ 0) :
    t = { s with status := t.status, info := t.info, rpos := 0, msgOk := false, fr := t.fr, posLon := t.posLon,
                 posLat := t.posLat, draws := t.draws } := by
  obtain ⟨hother, -⟩ | ⟨-, e, -, rfl⟩ | ⟨u, -, rfl⟩ := exec_ends .decode s t hexec
  · exact absurd rfl hother
  · rfl
  · exact absurd rfl hfails

/-! ## The ends of ENCODE (R205, R230) -/

theorem Machine.exec_encode_of_not_identifier (h : reg s 0 < 0 ∨ 63 < reg s 0) :
    exec .encode s = .next (s.raise .fieldOverflow) := by
  rw [reg_eq_readFr] at h
  obtain ⟨-, hexec⟩ | ⟨hlow, hhigh, -⟩ | ⟨hsel, -⟩ | ⟨hsel, -⟩ := exec_encode_cases s _ rfl
  · exact hexec
  · omega
  all_goals
    obtain ⟨hlow, hhigh, -⟩ := (s.cfg.selects_iff _).mp hsel
    omega

theorem Machine.exec_encode_of_unsupported (hlow : 0 ≤ reg s 0) (hhigh : reg s 0 ≤ 63) (h : unsupported s (reg s 0)) :
    exec .encode s = .next (s.raise (.unsupportedMessageType (idMod64 (reg s 0)))) := by
  simp only [reg_eq_readFr] at hlow hhigh
  obtain ⟨hout, -⟩ | ⟨-, -, -, hexec⟩ | ⟨hsel, -⟩ | ⟨hsel, -⟩ := exec_encode_cases s _ rfl
  · omega
  · exact hexec
  all_goals exact absurd ((unsupported_iff.mp h).symm.trans hsel) Bool.false_ne_true

theorem Machine.exec_encode_of_overflow (hsel : selected s (reg s 0) r)
    (h : ¬ (s.headerFits = true ∧ r.entries.all s.entryFits = true)) :
    exec .encode s = .next (s.raise .fieldOverflow) := by
  rw [State.headerFits_of_selected hsel] at h
  obtain ⟨hselects, hrow⟩ := Config.selects_of_selected hsel
  obtain ⟨-, hexec⟩ | ⟨-, -, hnone, -⟩ | ⟨-, -, hexec⟩ | ⟨-, hheader, hfits, -⟩ := exec_encode_cases s r hrow
  · exact hexec
  · exact absurd (hnone.symm.trans hselects) Bool.false_ne_true
  · exact hexec
  · exact absurd ⟨hheader, hfits⟩ h

/-! ## Type 18 (R17) -/

/-- The fields of the type-18 table are past the header. -/
theorem Claims.tailFields_past_header : ∀ f ∈ tailFields, 38 + (f.2.1 - 38) = 0 + f.2.1 := by decide

end Ends

/-- Settles O46: `exec_decode_reads` with row 18, whose entries from bit 38 on are the type-18 table. -/
theorem decodeReadsType18Message : Obligations.DecodeReadsType18Message := by
  intro s hs hlen hid
  have hsel : selected s (fieldValue s.rbufBit 0 6) row18 := hid ▸ selected_18 s
  obtain ⟨t, hexec, hheader, hreads, hframe, ht⟩ := exec_decode_reads hs (by omega) hsel hlen
  obtain ⟨htail, hposition⟩ := readsEntries_row18 hreads
  refine ⟨t, hexec, hheader, fun f hf => ?_, hposition, fun i hi => ?_, ht⟩
  · rw [← tailFields_past_header f hf]
    exact htail f hf
  · exact hframe i (by omega) (not_names_row18 (.inr hi))

/-- Settles O47: a clause for each of DECODE's ends. -/
theorem decodeChecksInOrder : Obligations.DecodeChecksInOrder := by
  intro s
  obtain ⟨t, ht⟩ : ∃ t, exec .decode s = .next t := ⟨_, rfl⟩
  have hend {u : State} (hu : exec .decode s = .next u) : t = u := next_inj.mp (ht.symm.trans hu)
  refine ⟨t, ht, fun hshort => ?_, fun hlen hnone => ?_, fun r hlen hsel => ⟨fun hne => ?_, fun hexplen => ?_⟩,
    fun hrows hlen hid => ?_, fun hlen hid => ?_, exec_decode_fails_frame ht⟩
  · obtain rfl := hend (exec_decode_of_short hshort)
    exact ⟨rfl, rfl⟩
  · obtain rfl := hend (exec_decode_of_unsupported hlen hnone)
    exact ⟨rfl, idMod64_toNat_fieldValue s 0⟩
  · obtain rfl := hend (exec_decode_of_wrongLength hlen hsel hne)
    exact ⟨rfl, rfl⟩
  · obtain rfl := hend (exec_decode_of_selected hlen hsel hexplen)
    exact ⟨rfl, rfl⟩
  · obtain rfl := hend (exec_decode_of_unsupported hlen (unsupported_of_rows_nil hrows (by exact_mod_cast hid)))
    rfl
  · have hsel : selected s (fieldValue s.rbufBit 0 6) row18 := hid ▸ selected_18 s
    refine ⟨fun hok => by_contra fun hne => ?_, fun hexplen => ?_⟩
    · obtain rfl := hend (exec_decode_of_wrongLength hlen hsel hne)
      exact Failure.code_ne_zero .wrongPayloadLength hok
    · obtain rfl := hend (exec_decode_of_selected hlen hsel hexplen)
      rfl

/-- Settles O48: row 18 is selected in every configuration, and its bits and text are those of `State.encoded`. -/
theorem encodeWritesType18Message : Obligations.EncodeWritesType18Message := by
  intro s hid hheader htail
  have hbits : 38 + tailbits row18.entries = 168 := rfl
  have hheader := s.headerFits_iff.mpr hheader
  have hfits := (s.entryFits_all_iff _).mpr (entriesFit_row18_iff.mpr htail)
  have hexec := exec_encode_of_selected (hid ▸ selected_18 s) hheader hfits
  have hfields := State.encoded_writesFields hheader row18
  obtain ⟨hentries, hlon, hlat⟩ := writesEntries_row18 (State.encoded_writesEntries hfits)
  have houtside := s.encoded_sameOutside row18
  have htext := s.encoded_holdsText row18
  have harm := s.encoded_arm_sameOutside row18
  rw [s.encoded_done_eq, hbits] at hexec
  rw [hbits] at houtside htext harm
  simp only [State.wbufBit, State.encoded_epoch] at htext
  generalize (s.encoded row18).wbuf = wbuf, (s.encoded row18).arm = arm at *
  refine ⟨_, hexec, hfields, fun f hf => ?_, hlon, hlat, houtside, holdsText_congr htext fun a ha => ?_, harm, rfl⟩
  · rw [Nat.sub_zero, ← tailFields_past_header f hf]
    exact hentries f hf
  · rw [decide_eq_true ha, Bool.true_and]
    rfl

/-- Settles O49: a clause for each of ENCODE's failures; the entries of row 18 are the type-18 table. -/
theorem encodeRejectsInOrder : Obligations.EncodeRejectsInOrder := by
  intro s
  have hoverflow (r : Row) (hsel : selected s (reg s 0) r)
      (hout : ¬ (fieldsFit s headerFields ∧ entriesFit s r.entries)) :
      exec .encode s = .next (s.raise .fieldOverflow) := by
    rw [← s.headerFits_iff, ← s.entryFits_all_iff] at hout
    exact exec_encode_of_overflow hsel hout
  refine ⟨exec_encode_of_not_identifier, exec_encode_of_unsupported, unsupported_of_rows_nil, hoverflow,
    fun hid hout => hoverflow row18 (hid ▸ selected_18 s) ?_⟩
  rwa [entriesFit_row18_iff]

end Sys2Proof
end

