-- ==== Sys2Proof/Proofs/MessageCommands.lean ====
section
/-! PROOFS. DECODE and ENCODE as sequences of the other commands, and what each of them depends on (R151, R203, R205,
R206). -/

namespace Sys2Proof

open Machine Claims

/-! ## The message registers (R206) -/

/-- Two states of one configuration with one message in the registers: the same `FR` and position. -/
structure Machine.SameMessage (s t : State) : Prop where
  cfg : s.cfg = t.cfg
  fr : s.fr = t.fr
  posLon : s.posLon = t.posLon
  posLat : s.posLat = t.posLat

section Message

variable {s t : State} {r : Row} {id : Int}

theorem Claims.selected_congr (h : s.cfg = t.cfg) : selected s id r ↔ selected t id r := by
  rw [selected, selected, h]

theorem Claims.unsupported_congr (h : s.cfg = t.cfg) : unsupported s id ↔ unsupported t id := by
  rw [unsupported_iff, unsupported_iff, h]

theorem Machine.SameMessage.reg_eq (h : SameMessage s t) (i : Nat) : reg s i = reg t i := State.readFr_congr s t h.fr i

theorem Machine.SameMessage.headerFits_eq (h : SameMessage s t) : s.headerFits = t.headerFits := by
  simp only [State.headerFits, State.headerRestFits, ← reg_eq_readFr, h.reg_eq]

theorem Machine.SameMessage.headerBits_eq (h : SameMessage s t) : s.headerBits = t.headerBits := by
  simp only [State.headerBits, ← reg_eq_readFr, h.reg_eq]

theorem Machine.SameMessage.entryFits_eq (h : SameMessage s t) : s.entryFits = t.entryFits :=
  funext fun e => State.entryFits_congr s t e fun d _ => h.reg_eq d

theorem Machine.SameMessage.walkEncBits_eq (h : SameMessage s t) (es : List Entry) :
    s.walkEncBits es = t.walkEncBits es := by
  have hentries : s.entryBits = t.entryBits :=
    funext fun e => State.entryBits_congr s t e (fun d _ => h.reg_eq d) fun _ => ⟨h.posLon, h.posLat⟩
  rw [State.walkEncBits, hentries, State.walkEncBits]

end Message

/-! ## DECODE as HDRDEC, TAILDEC (R151, R203) -/

section Decoding

variable {s t : State} {r : Row}

theorem Machine.SameMessage.readEntry (h : SameMessage s t) (hrbuf : s.rbuf = t.rbuf) (hepoch : s.epoch = t.epoch)
    (p : Nat) (e : Entry) : SameMessage (s.readEntry p e) (t.readEntry p e) := by
  have hread (p w : Nat) : s.readRbuf p w = t.readRbuf p w := State.readRbuf_of_rbuf hrbuf hepoch p w
  obtain ⟨hcfg, hfr, hlon, hlat⟩ := h
  cases e with
  | u d w => constructor <;> simp [State.readEntry, State.fieldU, *]
  | s d w => constructor <;> simp [State.readEntry, State.fieldS, State.fieldU, *]
  | pos => constructor <;> simp [State.readEntry, State.readPos, State.fieldS, State.fieldU, *]

/-- What a walk leaves in the message registers depends on the message registers and on `RBUF` alone (R151). -/
theorem Machine.SameMessage.walkDec (h : SameMessage s t) (hrbuf : s.rbuf = t.rbuf) (hepoch : s.epoch = t.epoch)
    (p : Nat) (es : List Entry) : SameMessage (s.walkDec p es) (t.walkDec p es) := by
  induction es generalizing s t p with
  | nil => exact h
  | cons e es ih => exact ih (h.readEntry hrbuf hepoch p e) (by simpa) (by simpa) (p + e.width)

/-- The state HDRDEC leaves (R156). -/
def Machine.State.headed (s : State) : State := ((s.readHeader s.rpos).advance 38).clearMsgOk.done

theorem Machine.exec_hdrdec_eq_headed (h : s.rpos + 38 ≤ s.rlen) : exec .hdrdec s = .next s.headed := by
  obtain ⟨hshort, -⟩ | ⟨-, hexec⟩ := exec_hdrdec_cases s
  · omega
  · exact hexec

/-- The identifier HDRDEC leaves in `FR[0]` is the first field of the header (R155). -/
theorem Machine.State.headed_reg_zero (hlen : 3 ≤ s.fr.length) : reg s.headed 0 = fieldValue s.rbufBit s.rpos 6 := by
  obtain ⟨hid, -⟩ := s.readHeader_readFr s.rpos hlen
  rw [fieldValue_eq_fieldU, ← hid]
  rfl

/-- TAILDEC from where HDRDEC leaves the cursor is the walk of DECODE (R203). -/
theorem Machine.State.decoded_done_eq_taildec (hpos : s.rpos = 0) (r : Row) : (s.decoded r).done =
    { ((s.headed.walkDec 38 r.entries).advance (tailbits r.entries)).clearMsgOk.done with msgOk := true } := by
  have hheader : SameMessage (s.readHeader 0) s.headed := by constructor <;> simp [State.headed, hpos]
  obtain ⟨-, hfr, hlon, hlat⟩ := hheader.walkDec (by simp [State.headed]) (by simp [State.headed]) 38 r.entries
  ext1 <;> simp [State.decoded, hfr, hlon, hlat]
  all_goals simp [State.headed, hpos]

end Decoding

/-! ## ENCODE as WNEW, HDRENC, TAILENC, FIN (R151, R205) -/

section Encoding

variable {s t : State} {r : Row}

/-- HDRENC of the header fields of `s`, whatever the writer holds (R157). -/
theorem Machine.SameMessage.exec_hdrenc (h : SameMessage s t) (hopen : t.wfin = false) (hfits : s.headerFits = true) :
    exec .hdrenc t = .next (t.append s.headerBits).done := by
  rw [exec_hdrenc_eq, State.complete_appending hopen (h.headerFits_eq ▸ hfits), h.headerBits_eq]

/-- TAILENC of the tail fields of `s`, whatever the writer holds (R159). -/
theorem Machine.SameMessage.exec_tailenc (h : SameMessage s t) (hopen : t.wfin = false) (hsel : selected s (reg s 0) r)
    (hfits : r.entries.all s.entryFits = true) : exec .tailenc t = .next (t.append (s.walkEncBits r.entries)).done := by
  rw [selected_congr h.cfg, h.reg_eq] at hsel
  rw [h.entryFits_eq] at hfits
  obtain ⟨hselects, hrow⟩ := Config.selects_of_selected hsel
  obtain ⟨hlocked, -⟩ | ⟨-, hnone, -⟩ | ⟨-, -, hover, -⟩ | ⟨-, -, -, hexec⟩ := exec_tailenc_cases t r hrow
  · exact absurd (hopen.symm.trans hlocked) Bool.false_ne_true
  · exact absurd (hnone.symm.trans hselects) Bool.false_ne_true
  · exact absurd (hover.symm.trans hfits) Bool.false_ne_true
  · rw [hexec, h.walkEncBits_eq]

theorem Machine.State.append_append (s : State) (as bs : Bits) : (s.append as).append bs = s.append (as ++ bs) := by
  simp only [State.append, Mem.write_append, List.length_append, Nat.add_assoc]

/-! The `STATUS` and `INFO` of a command that is done are no part of what a writer command does (R8). -/

theorem Machine.State.done_append (s : State) (bs : Bits) : s.done.append bs = (s.append bs).done := rfl

theorem Machine.State.done_finalize (s : State) : s.done.finalize = s.finalize.done := rfl

theorem Machine.State.done_done (s : State) : s.done.done = s.done := rfl

/-- Finalizing the header and the tail appended one after the other to a new writer is ENCODE's state (R205). -/
theorem Machine.State.encoded_done_eq_fin (s : State) (r : Row) : (s.encoded r).done =
    ((s.newWriter.done.append s.headerBits).done.append (s.walkEncBits r.entries)).done.finalize.done := by
  simp only [State.done_append, State.done_finalize, State.done_done, State.append_append]
  rw [State.encoded, State.messageBits]

end Encoding

/-! ## DECODE depends on the bound bits (R206) -/

section Independence

variable {s s1 s2 : State} {r : Row}

@[simp] theorem Machine.State.decoded_msgOk (s : State) (r : Row) : (s.decoded r).msgOk = true := rfl

@[simp] theorem Machine.State.decoded_rpos (s : State) (r : Row) : (s.decoded r).rpos = 38 + tailbits r.entries := rfl

/-- One bound sequence, one configuration: both DECODEs report one failure, or both decode a message of one row (R204). -/
theorem Machine.exec_decode_congr (hcfg : s1.cfg = s2.cfg) (hlen : s1.rlen = s2.rlen)
    (hid : 38 ≤ s1.rlen → fieldValue s1.rbufBit 0 6 = fieldValue s2.rbufBit 0 6) :
    (∃ e, exec .decode s1 = .next (State.failDecode { s1 with rpos := 0 } e) ∧
        exec .decode s2 = .next (State.failDecode { s2 with rpos := 0 } e)) ∨
      ∃ r, selected s1 (fieldValue s1.rbufBit 0 6) r ∧ s1.rlen = r.explen ∧
        exec .decode s1 = .next (s1.decoded r).done ∧ exec .decode s2 = .next (s2.decoded r).done := by
  by_cases hshort : s1.rlen < 38
  · exact .inl ⟨_, exec_decode_of_short hshort, exec_decode_of_short (hlen ▸ hshort)⟩
  have henough1 : 38 ≤ s1.rlen := by omega
  have henough2 : 38 ≤ s2.rlen := by omega
  have hid := hid henough1
  obtain hnone1 | ⟨r, hsel1⟩ := unsupported_or_selected s1 (fieldValue s1.rbufBit 0 6)
  · have hnone2 : unsupported s2 (fieldValue s2.rbufBit 0 6) := hid ▸ (unsupported_congr hcfg).mp hnone1
    have hexec1 := exec_decode_of_unsupported henough1 hnone1
    rw [hid] at hexec1
    exact .inl ⟨_, hexec1, exec_decode_of_unsupported henough2 hnone2⟩
  have hsel2 : selected s2 (fieldValue s2.rbufBit 0 6) r := hid ▸ (selected_congr hcfg).mp hsel1
  by_cases hexplen : s1.rlen = r.explen
  · exact .inr ⟨r, hsel1, hexplen, exec_decode_of_selected henough1 hsel1 hexplen,
      exec_decode_of_selected henough2 hsel2 (hlen ▸ hexplen)⟩
  · exact .inl ⟨_, exec_decode_of_wrongLength henough1 hsel1 hexplen,
      exec_decode_of_wrongLength henough2 hsel2 (hlen ▸ hexplen)⟩

/-- A message that was decoded fits its row (R21, R97). -/
theorem Machine.State.decoded_fits (hs : s.isConfigured) (hsel : selected s (fieldValue s.rbufBit 0 6) r) :
    selected (s.decoded r) (reg (s.decoded r) 0) r ∧ (s.decoded r).headerFits = true ∧
      r.entries.all (s.decoded r).entryFits = true := by
  obtain ⟨-, hes⟩ := hsel.row_wf hs.1
  have hid : reg (s.decoded r) 0 = fieldValue s.rbufBit 0 6 := by
    simp [reg, State.decoded_readsFields hs hes (0, 0, 6) (by decide)]
  have hsel' : selected (s.decoded r) (reg (s.decoded r) 0) r := by
    rw [hid]
    exact (selected_congr (s.decoded_cfg r)).mpr hsel
  rw [fieldValue_eq_fieldU] at hsel
  obtain ⟨hselects, hrow⟩ := Config.selects_of_selected hsel
  obtain ⟨-, hheader, hfits⟩ := State.decoded_holdsMessage hs hselects
  rw [Int.toNat_natCast] at hrow
  rw [hrow] at hheader hfits
  obtain ⟨-, hrow'⟩ := Config.selects_of_selected hsel'
  rw [← reg_eq_readFr, hrow'] at hfits
  exact ⟨hsel', (State.headerFits_of_selected hsel').trans hheader, hfits⟩

/-- Where DECODE of the bits of one message succeeds in two states, it leaves the same message (R206). -/
theorem Machine.State.decoded_eq_of_bits (hs1 : s1.isConfigured) (hs2 : s2.isConfigured) (hcfg : s1.cfg = s2.cfg)
    (hlen : s1.rlen = s2.rlen) (hbits : ∀ a, a < s1.rlen → s1.rbufBit a = s2.rbufBit a)
    (hsel : selected s1 (fieldValue s1.rbufBit 0 6) r) (hexplen : s1.rlen = r.explen)
    (hexec : exec .decode s2 = .next (s2.decoded r).done) :
    (∀ i, i < 3 ∨ names r.entries i → (s1.decoded r).fr[i]? = (s2.decoded r).fr[i]?) ∧
      (.pos ∈ r.entries → (s1.decoded r).posLon = (s2.decoded r).posLon ∧
        (s1.decoded r).posLat = (s2.decoded r).posLat) := by
  obtain ⟨hrow, hes⟩ := hsel.row_wf hs1.1
  obtain ⟨hsel1, hheader, hfits⟩ := State.decoded_fits hs1 hsel
  have hsel2 : selected s2 (reg (s1.decoded r) 0) r := (selected_congr ((s1.decoded_cfg r).trans hcfg)).mp hsel1
  have hmessage : s2.readRbuf 0 (38 + tailbits r.entries) = (s1.decoded r).messageBits r := by
    rw [State.messageBits_decoded hs1 hes]
    exact State.readRbuf_congr _ _ 0 0 _ fun k hk => (hbits _ (by omega)).symm
  obtain ⟨u, hu, -, hregs, hpos⟩ := exec_decode_of_messageBits hs2 hsel2 hheader hfits (by omega) hmessage
  obtain rfl := next_inj.mp (hexec.symm.trans hu)
  refine ⟨fun i hi => ?_, fun h => ?_⟩
  · have hregister : i < (s1.decoded r).fr.length := by
      have hnfr := s1.cfg.nfr_ge hs1.1
      rw [s1.decoded_fr, State.walkDec_fr_length, State.readHeader_fr_length, hs1.2]
      obtain hi | hi := hi
      · omega
      · exact (names_bounds hes hi).2
    exact (State.getElem?_eq_readFr _ i hregister).trans (hregs i hi).symm
  · obtain ⟨hlon, hlat⟩ := hpos h
    exact ⟨hlon.symm, hlat.symm⟩

/-! ## ENCODE depends on the message registers (R206) -/

/-- One message in the registers: both ENCODEs report one failure, or both encode the same bits (R205). -/
theorem Machine.SameMessage.exec_encode (h : SameMessage s1 s2) :
    (∃ e, exec .encode s1 = .next (s1.raise e) ∧ exec .encode s2 = .next (s2.raise e)) ∨
      ∃ r, exec .encode s1 = .next (s1.encoded r).done ∧ exec .encode s2 = .next (s2.encoded r).done ∧
        s1.messageBits r = s2.messageBits r := by
  have hid := h.reg_eq 0
  by_cases hout : reg s1 0 < 0 ∨ 63 < reg s1 0
  · exact .inl ⟨_, exec_encode_of_not_identifier hout, exec_encode_of_not_identifier (hid ▸ hout)⟩
  obtain hnone1 | ⟨r, hsel1⟩ := unsupported_or_selected s1 (reg s1 0)
  · have hnone2 : unsupported s2 (reg s2 0) := hid ▸ (unsupported_congr h.cfg).mp hnone1
    have hexec1 := exec_encode_of_unsupported (by omega) (by omega) hnone1
    rw [hid] at hexec1
    exact .inl ⟨_, hexec1, exec_encode_of_unsupported (by omega) (by omega) hnone2⟩
  have hsel2 : selected s2 (reg s2 0) r := hid ▸ (selected_congr h.cfg).mp hsel1
  by_cases hfits : s1.headerFits = true ∧ r.entries.all s1.entryFits = true
  · obtain ⟨hheader, hentries⟩ := hfits
    refine .inr ⟨r, exec_encode_of_selected hsel1 hheader hentries,
      exec_encode_of_selected hsel2 (h.headerFits_eq ▸ hheader) (h.entryFits_eq ▸ hentries), ?_⟩
    rw [State.messageBits, h.headerBits_eq, h.walkEncBits_eq, State.messageBits]
  · refine .inl ⟨_, exec_encode_of_overflow hsel1 hfits, exec_encode_of_overflow hsel2 ?_⟩
    rwa [← h.headerFits_eq, ← h.entryFits_eq]

/-- The same bits make the same written cells and the same text (R42, R115). -/
theorem Machine.State.encoded_congr (hcfg : s1.cfg = s2.cfg) (h : s1.messageBits r = s2.messageBits r) :
    (∀ a, a < 38 + tailbits r.entries → Mem.get? (s1.encoded r).wbuf a = Mem.get? (s2.encoded r).wbuf a) ∧
      ∀ i, i < (38 + tailbits r.entries + 5) / 6 →
        Mem.get? (s1.encoded r).arm i = Mem.get? (s2.encoded r).arm i := by
  have hcells (a : Nat) (ha : a < 38 + tailbits r.entries) :
      Mem.get? (s1.encoded r).wbuf a = Mem.get? (s2.encoded r).wbuf a := by
    rw [State.encoded_get? ha, State.encoded_get? ha, h]
  have hbit (a : Nat) : (decide (a < 38 + tailbits r.entries) && (s1.encoded r).wbufBit a) =
      (decide (a < 38 + tailbits r.entries) && (s2.encoded r).wbufBit a) := by
    by_cases ha : a < 38 + tailbits r.entries
    · have hwritten : (s2.messageBits r)[a]? = some _ := List.getElem?_eq_getElem (by rwa [s2.messageBits_length])
      rw [State.wbufBit, State.wbufBit, hcells a ha, State.encoded_get? ha, hwritten, Option.getD_some, Option.getD_some]
    · simp [ha]
  refine ⟨hcells, fun i hi => ?_⟩
  rw [holdsText_congr (s1.encoded_holdsText r) (fun a _ => hbit a) i hi, s2.encoded_holdsText r i hi, hcfg]

end Independence

/-- Settles O51: HDRDEC leaves the cursor at bit 38 and the identifier in `FR[0]`, so TAILDEC walks the row DECODE does. -/
theorem decodeIsHeaderThenTail : Obligations.DecodeIsHeaderThenTail := by
  intro s r hs hpos hsel hexplen
  obtain ⟨hbits, -⟩ := hsel.row_wf hs.1
  have hnfr := s.cfg.nfr_ge hs.1
  have hid := State.headed_reg_zero (s := s) (by rw [hs.2]; omega)
  have hcfg : s.headed.cfg = s.cfg := by simp [State.headed]
  have hrlen : s.headed.rlen = s.rlen := by simp [State.headed]
  have hrpos : s.headed.rpos = 38 := by simp [State.headed, hpos]
  have hsel' : selected s.headed (reg s.headed 0) r := by
    rw [hid, hpos]
    exact (selected_congr hcfg).mpr hsel
  obtain ⟨-, -, htaildec⟩ := exec_taildec_of_selected hsel'
  have htaildec := htaildec (by omega) (by omega)
  rw [hrpos] at htaildec
  exact ⟨_, _, _, exec_hdrdec_eq_headed (by omega), htaildec, exec_decode_of_selected (by omega) hsel hexplen, rfl,
    State.decoded_done_eq_taildec hpos r⟩

/-- Settles O52: the four commands leave the very state ENCODE leaves. -/
theorem encodeIsHeaderThenTailThenFin : Obligations.EncodeIsHeaderThenTailThenFin := by
  intro s u hexec hok
  obtain ⟨r, hsel, hheader, hfits, rfl⟩ := exec_encode_succeeds hexec hok
  have hnew : SameMessage s s.newWriter.done := by constructor <;> simp
  have hheaded : SameMessage s (s.newWriter.done.append s.headerBits).done := by constructor <;> simp
  refine ⟨_, _, _, _, exec_wnew_eq s, hnew.exec_hdrenc (by simp) hheader, hheaded.exec_tailenc (by simp) hsel hfits,
    exec_fin_of_open (by simp), ?_⟩
  rw [s.encoded_done_eq_fin r]
  exact ⟨rfl, rfl, rfl, rfl, State.done_status _, fun _ => rfl, fun _ => rfl⟩

/-- Settles O53: both runs end the same way, and a message is decided by its bits. -/
theorem messagesAreIndependent : Obligations.MessagesAreIndependent := by
  constructor
  · intro s1 s2 hs1 hs2 hcfg hlen hbits
    have hid (henough : 38 ≤ s1.rlen) : fieldValue s1.rbufBit 0 6 = fieldValue s2.rbufBit 0 6 := by
      refine Finset.sum_congr rfl fun k hk => ?_
      rw [hbits _ (by have := Finset.mem_range.mp hk; omega)]
    obtain ⟨e, hexec1, hexec2⟩ | ⟨r, hsel, hexplen, hexec1, hexec2⟩ := exec_decode_congr hcfg hlen hid
    · exact ⟨_, _, hexec1, hexec2, rfl, rfl, rfl, rfl, fun _ hok => absurd hok e.code_ne_zero⟩
    · refine ⟨_, _, hexec1, hexec2, ?_⟩
      simp only [State.done_status, State.done_info, State.done_msgOk, State.done_rpos, State.done_fr, State.done_posLon,
        State.done_posLat, State.decoded_msgOk, State.decoded_rpos, true_and]
      intro r' _ hsel'
      obtain rfl := hsel.unique hsel'
      exact State.decoded_eq_of_bits hs1 hs2 hcfg hlen hbits hsel hexplen hexec2
  · intro s1 s2 hcfg hfr hlon hlat
    obtain ⟨e, hexec1, hexec2⟩ | ⟨r, hexec1, hexec2, hbits⟩ := (SameMessage.mk hcfg hfr hlon hlat).exec_encode
    · exact ⟨_, _, hexec1, hexec2, rfl, rfl, fun hok => absurd hok e.code_ne_zero⟩
    · refine ⟨_, _, hexec1, hexec2, ?_⟩
      simp only [State.done_status, State.done_info, State.done_wlen, State.done_armlen, State.done_fill, State.done_wbuf,
        State.done_arm, State.encoded_wlen, State.encoded_armlen, State.encoded_fill, true_and, true_imp_iff]
      exact State.encoded_congr hcfg hbits

end Sys2Proof
end

