-- ==== Sys2Proof/Proofs/Failures.lean ====
section
/-! PROOFS. What a failing command leaves, and which commands raise which failure (R221, R224). -/

namespace Sys2Proof

open Machine

section Failures

variable {c : Config} {i : Instr} {s t : State} {e : Failure}

/-- The table of R221 by `STATUS` code: the commands of legal width that can end with it, and 0 for every command. -/
def Machine.CanEndWith (i : Instr) (status : BitVec 4) : Prop :=
  match status.toNat with
  | 0 => True
  | 1 => (∃ w, i = .extu w) ∨ (∃ w, i = .exts w) ∨ i ∈ [Instr.posdec, .hdrdec, .taildec, .decode]
  | 2 => i ∈ [Instr.taildec, .decode]
  | 3 => i ∈ [Instr.taildec, .tailenc, .decode, .encode]
  | 4 =>
    (∃ w, i = .appu w) ∨ (∃ w, i = .apps w) ∨ i ∈ [Instr.possetr, .possetd, .hdrenc, .tailenc, .encode]
  | 5 => (∃ w, i = .appu w) ∨ (∃ w, i = .apps w) ∨ i ∈ [Instr.posenc, .hdrenc, .tailenc]
  | 6 => i = .rbind
  | _ => False

/-- The failures of a command other than DECODE are in the table: IllegalCommand comes only from RBIND and an illegal
width (R63, R221). -/
theorem Machine.CanFail.canEndWith (h : CanFail c i e) (hwf : i.wf c = true) : CanEndWith i e.code := by
  cases i with
  | wnew | fin | posavl | posdeg | sogv | cogv | hdgv | posv | utcst | decode => exact h.elim
  | rbind | posdec | posenc | possetr | possetd | hdrdec =>
    obtain rfl := h
    simp [CanEndWith, Failure.code]
  | extu w | exts w =>
    obtain rfl | ⟨-, hillegal⟩ := h
    · simp [CanEndWith, Failure.code]
    · exact absurd (hillegal.symm.trans hwf) Bool.false_ne_true
  | appu w | apps w =>
    obtain rfl | rfl | ⟨-, hillegal⟩ := h
    · simp [CanEndWith, Failure.code]
    · simp [CanEndWith, Failure.code]
    · exact absurd (hillegal.symm.trans hwf) Bool.false_ne_true
  | hdrenc => obtain rfl | rfl := h <;> simp [CanEndWith, Failure.code]
  | taildec | tailenc => obtain rfl | rfl | ⟨id, rfl⟩ := h <;> simp [CanEndWith, Failure.code]
  | encode => obtain rfl | ⟨id, rfl⟩ := h <;> simp [CanEndWith, Failure.code]

/-- The failures of DECODE are in the table (R204). -/
theorem Machine.decode_canEndWith
    (h : e = .truncatedPayload ∨ e = .wrongPayloadLength ∨ ∃ n, e = .unsupportedMessageType n) :
    CanEndWith .decode e.code := by
  obtain rfl | rfl | ⟨n, rfl⟩ := h <;> simp [CanEndWith, Failure.code]

/-- A command completes with `STATUS` and `INFO` 0, or with those of one failure (R8, R22). -/
theorem Machine.exec_status_info (h : exec i s = .next t) :
    (t.status = 0 ∧ t.info = 0) ∨ ∃ e : Failure, t.status = e.code ∧ t.info = e.info := by
  obtain ⟨-, e, -, rfl⟩ | ⟨-, e, -, rfl⟩ | ⟨u, -, rfl⟩ := exec_ends i s t h
  · exact .inr ⟨e, rfl, rfl⟩
  · exact .inr ⟨e, rfl, rfl⟩
  · exact .inl ⟨rfl, rfl⟩

theorem Machine.exec_status_le (h : exec i s = .next t) : t.status.toNat ≤ 6 := by
  obtain ⟨hok, -⟩ | ⟨e, hcode, -⟩ := exec_status_info h
  · simp [hok]
  · exact hcode ▸ e.code_le

theorem Machine.exec_info_zero (h : exec i s = .next t) (hcode : t.status ≠ 3) : t.info = 0 := by
  obtain ⟨-, hinfo⟩ | ⟨e, hstatus, hinfo⟩ := exec_status_info h
  · exact hinfo
  · exact hinfo.trans (e.info_zero (hstatus ▸ hcode))

theorem Machine.exec_canEndWith (h : exec i s = .next t) (hwf : i.wf s.cfg = true) : CanEndWith i t.status := by
  obtain ⟨-, e, he, rfl⟩ | ⟨rfl, e, he, rfl⟩ | ⟨u, -, rfl⟩ := exec_ends i s t h
  · exact he.canEndWith hwf
  · exact decode_canEndWith he
  · trivial

/-- The commands for which R221 lists no failure. -/
theorem Machine.not_canFail_of_infallible
    (hi : i ∈ [Instr.wnew, .fin, .posavl, .posdeg, .sogv, .cogv, .hdgv, .posv, .utcst]) : ¬ CanFail c i e := by
  cases i with
  | wnew | fin | posavl | posdeg | sogv | cogv | hdgv | posv | utcst => exact id
  | _ => simp at hi

theorem Machine.exec_never_fails (h : exec i s = .next t)
    (hi : i ∈ [Instr.wnew, .fin, .posavl, .posdeg, .sogv, .cogv, .hdgv, .posv, .utcst]) : t.status = 0 := by
  obtain ⟨-, e, he, -⟩ | ⟨rfl, -⟩ | ⟨u, -, rfl⟩ := exec_ends i s t h
  · exact absurd he (not_canFail_of_infallible hi)
  · exact absurd hi (by decide)
  · rfl

end Failures

/-- Settles O54: a command ends in a failure with no other effect, in a failed DECODE, or with `STATUS` 0. -/
theorem failuresArePrecise : Obligations.FailuresArePrecise := by
  intro i s t h hfails
  obtain ⟨hi, e, -, rfl⟩ | ⟨rfl, -⟩ | ⟨u, -, rfl⟩ := exec_ends i s t h
  · exact ⟨fun _ => rfl, fun hdecode => absurd hdecode hi⟩
  · exact ⟨fun hother => absurd rfl hother, fun _ => exec_decode_fails_frame h hfails⟩
  · exact absurd rfl hfails

/-- Settles O55: the first six clauses are the rows of `CanEndWith`. -/
theorem failureKindsByCommand : Obligations.FailureKindsByCommand := by
  intro i s t h hwf
  have row (v : BitVec 4) (hstatus : t.status = v) : CanEndWith i v := hstatus ▸ exec_canEndWith h hwf
  exact ⟨row 1, row 2, row 3, row 4, row 5, row 6, exec_status_le h, exec_info_zero h, exec_never_fails h⟩

end Sys2Proof
end

