-- ==== Sys2Proof/Proofs/CommandExecution.lean ====
section
/-! PROOFS. A step runs the decoded command, an idle instance waits, and every command completes (R52, R251, R262). -/

namespace Sys2Proof

open Machine Claims

/-- Issuing a word that is a command's runs that command (R62, R63). -/
theorem Machine.issue_of_decode {s : State} {c : CommandWord} {i : Instr} (h : decode s.cfg c = .ok i) :
    issue c s = exec i s := by
  rw [issue, h]

/-- Settles O5: the step issues the word to the state without the action, whose configuration is the same. -/
theorem stepRunsDecodedCommand : Obligations.StepRunsDecodedCommand := by
  intro s c i rest hp hdecode
  calc step s
    _ = issue c { s with pending := rest } := step_of_pending s _ rest hp
    _ = exec i { s with pending := rest } := issue_of_decode hdecode

/-- Settles O6: a step without a host action is a wait. -/
theorem idleInstanceWaits : Obligations.IdleInstanceWaits := step_of_idle

/-- Settles O7, by `exec_completes`: each arm of `exec`, failures included, answers a next state. -/
theorem everyCommandCompletes : Obligations.EveryCommandCompletes := exec_completes

end Sys2Proof
end
